-- ==== Sys2Proof/Word.lean ====
section
/-! DEFINITION. The word types of the engine (00_scope.md R10: unsigned values of a stated width, arithmetic modulo 2^N). -/

namespace Sys2Proof

/-- `u8`: one byte of the wire, of a snapshot or of the host buffer (R10). -/
abbrev Byte := BitVec 8

/-- `u16`: one word of the 16-bit path and the CRC16 accumulators (R10, R37). -/
abbrev Half := BitVec 16

/-- `u32`: command arguments, block addresses, counts (R10, R41). -/
abbrev Word := BitVec 32

/-- `u64`: the capacity in bytes (R29). -/
abbrev Wide := BitVec 64

end Sys2Proof
end

