-- ==== Sys2Proof/Machine/Flags.lean ====
section
/-! DEFINITION. The two checksum units and the flag bits: CRC7 (40_crc7.md), CRC16 (41_crc16.md), the R1 flags
(30_encoding.md R95, R96), the R2 flags (R97) and the data-response code (R101). Pure functions of their inputs (R139). -/

namespace Sys2Proof.Machine

/-- `f` applied `n` times ("repeat n times" of the pseudocode). -/
def repeatTimes {α : Type} (f : α → α) : Nat → α → α
  | 0, x => x
  | n + 1, x => repeatTimes f n (f x)

/-! ### CRC7 -/

/-- `CRC7_POLY`: x^7 + x^3 + 1, the x^7 term as bit 7 (00_scope.md R7, 40_crc7.md R130). -/
def crc7Poly : Byte := 0x89#8

/-- XOR with the polynomial when the top bit is set (R131). -/
def crc7Reduce (t : Byte) : Byte := if t.msb then t ^^^ crc7Poly else t

/-- One of the "7 shift iterations" (R131). -/
def crc7Shift (t : Byte) : Byte := crc7Reduce (t <<< 1)

/-- The table entry of index `i` (R131): one reduction, then seven shift iterations. -/
def crc7Entry (i : Byte) : Byte := repeatTimes crc7Shift 7 (crc7Reduce i)

/-- The table as `CRC7_BUILD` writes it (R131, R136). -/
def crc7Table : Vector Byte 256 :=
  ⟨⟨(List.range 256).map fun n => crc7Entry (BitVec.ofNat 8 n)⟩, by simp⟩

/-- One step of the fold (R134): `c <- T[((c << 1)[7:0]) ^ b]`. -/
def crc7Step (table : Vector Byte 256) (c b : Byte) : Byte := table[((c <<< 1) ^^^ b).toFin]

/-- `CRC7_COMPUTE` over a table (R134), seed 0. -/
def crc7Fold (table : Vector Byte 256) (m : List Byte) : BitVec 7 :=
  (m.foldl (crc7Step table) 0#8).setWidth 7

/-- One bit of the bit-by-bit CRC7 (R132). -/
def crc7Bit (c : BitVec 7) (bit : Bool) : BitVec 7 :=
  if c.msb ^^ bit then (c <<< 1) ^^^ 0x09#7 else c <<< 1

/-- One byte of the bit-by-bit CRC7, most significant bit first (R132). -/
def crc7BitByte (c : BitVec 7) (b : Byte) : BitVec 7 :=
  [7, 6, 5, 4, 3, 2, 1, 0].foldl (fun c n => crc7Bit c (b.getLsbD n)) c

/-- `CRC7_BITWISE` (R132). -/
def crc7Bitwise (m : List Byte) : BitVec 7 := m.foldl crc7BitByte 0#7

/-- The byte-parallel XOR network of R138 on the index bits `x`. -/
def crc7Network (x : Byte) : BitVec 7 :=
  let b := x.getLsbD
  BitVec.ofBool (b 3 ^^ b 6 ^^ b 7) ++ BitVec.ofBool (b 2 ^^ b 5 ^^ b 6) ++ BitVec.ofBool (b 1 ^^ b 4 ^^ b 5) ++
    BitVec.ofBool (b 0 ^^ b 3 ^^ b 4) ++ BitVec.ofBool (b 2 ^^ b 6) ++ BitVec.ofBool (b 1 ^^ b 5) ++
    BitVec.ofBool (b 0 ^^ b 4 ^^ b 7)

/-- The first five bytes of a frame (R91, R92, 20_memory.md R62). -/
def frameHead (index : BitVec 6) (arg : Word) : List Byte :=
  [0b01#2 ++ index, arg.extractLsb' 24 8, arg.extractLsb' 16 8, arg.extractLsb' 8 8, arg.extractLsb' 0 8]

/-- The sixth byte of a frame: `(crc7 << 1) | 1` (30_encoding.md R94, 40_crc7.md R135). -/
def frameCheckByte (crc : BitVec 7) : Byte := crc ++ 1#1

/-! ### CRC16 -/

/-- `CRC16_POLY`, the x^16 term implied (00_scope.md R7, 41_crc16.md R150). -/
def crc16Poly : Half := 0x1021#16

/-- `CRC16_SEED` (R150, R158). -/
def crc16Seed : Half := 0x0000#16

/-- One shift of the accumulator (R151). -/
def crc16Shift (c : Half) : Half := if c.msb then (c <<< 1) ^^^ crc16Poly else c <<< 1

/-- One byte of the bit-serial form (R151). -/
def crc16Byte (c : Half) (b : Byte) : Half := repeatTimes crc16Shift 8 (c ^^^ (b.setWidth 16 <<< 8))

/-- `CRC16` in its bit-serial form, the definition the other forms equal (R151). -/
def crc16 (m : List Byte) : Half := m.foldl crc16Byte crc16Seed

/-- `CRC16_STEP16`: one word of the 16-bit path (R152). -/
def crc16Step16 (c w : Half) : Half := repeatTimes crc16Shift 16 (c ^^^ w)

/-- The words of a payload: `byte[2j] ++ byte[2j+1]` (20_memory.md R64); a last odd byte makes no word. -/
def payloadWords : List Byte → List Half
  | hi :: lo :: rest => (hi ++ lo : Half) :: payloadWords rest
  | _ => []

/-- The word-parallel generator (R152): the fold of `CRC16_STEP16` over the words. -/
def crc16Words (m : List Byte) : Half := (payloadWords m).foldl crc16Step16 crc16Seed

/-- `T16[i]`, the byte table of R153. -/
def crc16Entry (i : Byte) : Half := crc16 [i]

/-- One byte step through the byte table (R153): `c <- (c << 8) ^ T16[c[15:8] ^ b]`. -/
def crc16TableStep (c : Half) (b : Byte) : Half :=
  (c <<< 8) ^^^ crc16Entry (c.extractLsb' 8 8 ^^^ b)

/-! ### R1, R2 and data-response bits -/

/-- `R1_NORMAL`: no flag set (30_encoding.md R96). -/
def r1Normal : Byte := 0x00#8

/-- `R1_IDLE`: only the idle flag set (R96). -/
def r1Idle : Byte := 0x01#8

/-- The seven flags of an R1 byte, in the order of R95 from bit 0 up. -/
inductive R1Flag where
  | idle
  | eraseReset
  | illegalCommand
  | comCrcError
  | eraseSeqError
  | addressError
  | parameterError
  deriving DecidableEq, Repr

/-- The bit of a flag (R95). -/
def R1Flag.bit : R1Flag → Nat
  | .idle => 0
  | .eraseReset => 1
  | .illegalCommand => 2
  | .comCrcError => 3
  | .eraseSeqError => 4
  | .addressError => 5
  | .parameterError => 6

/-- Whether an R1 byte has a flag set (R95). -/
def r1Has (f : R1Flag) (r1 : Byte) : Bool := r1.getLsbD f.bit

/-- Bit 7 clear: the byte is an R1 (30_encoding.md R107, 42_command_response.md R171). -/
def isR1 (rx : Byte) : Bool := !rx.msb

/-- The eight flags of the second byte of the answer to `CMD13`, from bit 0 up; for the host only, the engine tests none
(30_encoding.md R97). -/
inductive R2Flag where
  | cardLocked
  | wpEraseSkipOrLockFailed
  | unspecifiedError
  | cardControllerError
  | cardEccFailed
  | wpViolation
  | eraseParameter
  | outOfRangeOrCsdOverwrite
  deriving DecidableEq, Repr

/-- The bit of an R2 flag (R97). -/
def R2Flag.bit : R2Flag → Nat
  | .cardLocked => 0
  | .wpEraseSkipOrLockFailed => 1
  | .unspecifiedError => 2
  | .cardControllerError => 3
  | .cardEccFailed => 4
  | .wpViolation => 5
  | .eraseParameter => 6
  | .outOfRangeOrCsdOverwrite => 7

/-- Whether an R2 byte has a flag set (R97). -/
def r2Has (f : R2Flag) (r2 : Byte) : Bool := r2.getLsbD f.bit

/-- The data-response code: the low 5 bits of the received byte (30_encoding.md R101, 43_token_data.md R215). -/
def dataResponseCode (rx : Byte) : BitVec 5 := rx.setWidth 5

/-- `DR_ACCEPTED` (R101). -/
def drAcceptedCode : BitVec 5 := 0x05#5

/-- `DR_CRC_ERROR` (R101). -/
def drCrcErrorCode : BitVec 5 := 0x0B#5

/-- `DR_WRITE_ERROR` (R101). -/
def drWriteErrorCode : BitVec 5 := 0x0D#5

end Sys2Proof.Machine
end

