-- ==== Sys2Proof/Config.lean ====
section
/-! DEFINITION. What is fixed for one machine: the readings the spec leaves open (00_scope.md R18) and the one free value,
the timestamps of the timing collaborator (60_exceptions.md R385, 93_implementation_defined.md U33). -/

namespace Sys2Proof

/-- A timestamp of the timing collaborator; its width, frequency and wrap-around are not given (R385). -/
abbrev Timestamp := Nat

/-- FREE VALUE (log 4): what the `n`-th `Now()` answers. It has no body, so no proof can see a value of it (R46, R385). -/
opaque Config.now : Nat → Timestamp

/-- The parameter `TOKEN_MATCH` (R18, 43_token_data.md R212): equality, the other candidate the rule names, or any
predicate that meets the rule's two constraints, given by the pairs (received, token) it accepts beside equality. -/
inductive TokenRule where
  | equality
  | subset
  | pairs (accepted : List (Byte × Byte))
  deriving DecidableEq, Repr

/-- The readings of the document that the spec leaves as parameters (R18; log 15). -/
structure Params where
  /-- `TOKEN_MATCH` (R212). -/
  tokenMatch : TokenRule
  /-- `SHARED_WRITE_BUDGET` (R214): the busy wait of a written block keeps the timestamp of the data-response poll. -/
  sharedWriteBudget : Bool
  /-- `ACMD41_PAIR_IN_LOOP` (R244): both issues stand inside each round of the readiness poll. -/
  acmd41PairInLoop : Bool
  /-- `DRAIN_TIMEOUT_IS_ERROR` (R284). -/
  drainTimeoutIsError : Bool
  /-- `R2_NONZERO_IS_ERROR` (R288). -/
  r2NonzeroIsError : Bool
  deriving DecidableEq, Repr

/-- The defaults of R18, which every transcript of 95_test_vectors.md uses. -/
def Params.standard : Params :=
  { tokenMatch := .equality, sharedWriteBudget := false, acmd41PairInLoop := false,
    drainTimeoutIsError := false, r2NonzeroIsError := false }

end Sys2Proof
end

