-- ==== Sys2Proof/Syntax.lean ====
section
/-! DEFINITION. The instructions: one constructor per row of spec/opcode_table.json (30_encoding.md R99, R101, R104, R118),
the three ways an item can travel, and the reasons the decoder rejects one. -/

namespace Sys2Proof

/-- The direction of a start token (43_token_data.md R218: received before a payload of the card, sent before the payload of
`WRITE_BLOCK`). -/
inductive TokenDirection where
  | sent
  | received
  deriving DecidableEq, Repr

/-- The instructions. `arg` is the 32-bit argument of a command frame and `crc` its CRC7 field (R91); `ignored` is bits 7:5 of
a data-response byte (R101); the operands of the host operations are those of R118, the configuration as three words. -/
inductive Instr where
  | cmd0 (arg : Word) (crc : BitVec 7)
  | cmd8 (arg : Word) (crc : BitVec 7)
  | cmd9 (arg : Word) (crc : BitVec 7)
  | cmd10 (arg : Word) (crc : BitVec 7)
  | cmd12 (arg : Word) (crc : BitVec 7)
  | cmd13 (arg : Word) (crc : BitVec 7)
  | cmd16 (arg : Word) (crc : BitVec 7)
  | cmd17 (arg : Word) (crc : BitVec 7)
  | cmd18 (arg : Word) (crc : BitVec 7)
  | cmd24 (arg : Word) (crc : BitVec 7)
  | cmd25 (arg : Word) (crc : BitVec 7)
  | cmd55 (arg : Word) (crc : BitVec 7)
  | cmd58 (arg : Word) (crc : BitVec 7)
  | acmd22 (arg : Word) (crc : BitVec 7)
  | acmd41 (arg : Word) (crc : BitVec 7)
  | tokenStart (dir : TokenDirection)
  | tokenMultiWrite
  | tokenStopTran
  | drAccepted (ignored : BitVec 3)
  | drCrcError (ignored : BitVec 3)
  | drWriteError (ignored : BitVec 3)
  | crc7Build
  | initializeOp (transport cs busClockHz : Word)
  | readBlock (addr buf : Word)
  | writeBlock (addr buf : Word)
  | readMultipleBlock (addr buf count : Word)
  | writeMultipleBlock (addr buf count : Word)
  | readStatus
  | getWrittenBlockCount
  deriving DecidableEq, Repr

/-- The way an item travels (R90, column "direction"); the formats of different lanes share byte values (log 8). -/
inductive Lane where
  | hostToEngine
  | engineToCard
  | cardToEngine
  deriving DecidableEq, Repr

/-- One item as bytes, the first byte first. -/
structure Request where
  lane : Lane
  bytes : List Byte
  deriving DecidableEq, Repr

/-- Why the decoder rejects an item. -/
inductive DecodeError where
  /-- no byte at all, or fewer bytes than the format has -/
  | truncated
  /-- an operation code outside 0 to 7 (R119) -/
  | unknownOperation
  /-- a frame whose `cmdIndex` is none of the fifteen (R110) -/
  | unknownCommand
  /-- a frame whose stop bit is 0 (R91) -/
  | stopBitClear
  /-- a byte to the card that begins no frame (top two bits not `01`, R91) and is no token (R99) -/
  | noFrameNoToken
  /-- a byte from the card that is neither `0xFE` (R99) nor a data response (R101) -/
  | noTokenNoResponse
  deriving DecidableEq, Repr

/-- What the decoder answers: an instruction and the bytes after it, or a rejection by name. -/
inductive Decoded where
  | instr (i : Instr) (rest : List Byte)
  | reject (e : DecodeError)
  deriving DecidableEq, Repr

end Sys2Proof
end

