-- ==== Sys2Proof/Machine/State.lean ====
section
/-! DEFINITION. The state of the engine as plain data (10_state.md), the reasons a step can stop, and the state after reset
(R50, 70_reset_and_hazards.md R410, R411). -/

namespace Sys2Proof.Machine

/-- The session's mode (10_state.md R22, 60_exceptions.md R380). -/
inductive Mode where
  | inactive
  | identification
  | transfer
  deriving DecidableEq, Repr

/-- The code of a mode, 2 bits (R22). -/
def Mode.code : Mode → BitVec 2
  | .inactive => 0
  | .identification => 1
  | .transfer => 2

/-- The session's protocol state (10_state.md R23). -/
inductive Phase where
  | inactive
  | idle
  | ready
  | standby
  | sending
  | receiving
  deriving DecidableEq, Repr

/-- The code of a protocol state, 3 bits (R23). -/
def Phase.code : Phase → BitVec 3
  | .inactive => 0
  | .idle => 1
  | .ready => 2
  | .standby => 3
  | .sending => 4
  | .receiving => 5

/-- The specification version of the card (10_state.md R24). -/
inductive SpecVersion where
  | undetermined
  | v1
  | v2
  deriving DecidableEq, Repr

/-- The code of a version, 2 bits (R24). -/
def SpecVersion.code : SpecVersion → BitVec 2
  | .undetermined => 0
  | .v1 => 1
  | .v2 => 2

/-- The capacity class (10_state.md R25). -/
inductive CapacityClass where
  | sdsc
  | sdhc
  | sdxc
  deriving DecidableEq, Repr

/-- The code of a class (R25). -/
def CapacityClass.code : CapacityClass → BitVec 2
  | .sdsc => 1
  | .sdhc => 2
  | .sdxc => 3

/-- The result codes (60_exceptions.md R360). -/
inductive Code where
  | ok
  | transportIo
  | r1Timeout
  | waitTimeout
  | unexpectedR1
  | tokenTimeout
  | badEcho
  | dataCrc
  | writeProgram
  | refused
  deriving DecidableEq, Repr

/-- The number of a result code (R360). -/
def Code.number : Code → Nat
  | .ok => 0
  | .transportIo => 1
  | .r1Timeout => 2
  | .waitTimeout => 3
  | .unexpectedR1 => 4
  | .tokenTimeout => 5
  | .badEcho => 6
  | .dataCrc => 7
  | .writeProgram => 8
  | .refused => 9

/-- The document's four kinds of error (60_exceptions.md R361). -/
inductive ErrorKind where
  | transport
  | protocol
  | dataIntegrity
  | writeProgram
  deriving DecidableEq, Repr

/-- The kind of a code; `OK` and `E_REFUSED` have none (R361). -/
def Code.kind : Code → Option ErrorKind
  | .ok => none
  | .transportIo => some .transport
  | .r1Timeout => some .transport
  | .waitTimeout => some .transport
  | .unexpectedR1 => some .protocol
  | .tokenTimeout => some .protocol
  | .badEcho => some .protocol
  | .dataCrc => some .dataIntegrity
  | .writeProgram => some .writeProgram
  | .refused => none

/-- The host operations (30_encoding.md R118), the contents of `OP`. -/
inductive HostOp where
  | crc7Build
  | initSession
  | readBlock
  | writeBlock
  | readMultipleBlock
  | writeMultipleBlock
  | readStatus
  | getWrittenBlockCount
  deriving DecidableEq, Repr

/-- The code of a host operation (R118). -/
def HostOp.code : HostOp → BitVec 8
  | .crc7Build => 0
  | .initSession => 1
  | .readBlock => 2
  | .writeBlock => 3
  | .readMultipleBlock => 4
  | .writeMultipleBlock => 5
  | .readStatus => 6
  | .getWrittenBlockCount => 7

/-- The sequencer's position (10_state.md R45): idle, a numbered step of an operation, or the repeated issues of the
`ACMD41` poll (log 19). -/
inductive SeqPos where
  | idleSeq
  | step (op : HostOp) (n : Nat)
  | acmd41Repeat
  deriving DecidableEq, Repr

/-- Chip-select (10_state.md R40, 60_exceptions.md R393). -/
inductive CsLevel where
  | asserted
  | deasserted
  deriving DecidableEq, Repr

/-- The transport's clock profile (10_state.md R40, 60_exceptions.md R394). -/
inductive ClockProfile where
  | clkInit
  | clkTransfer
  deriving DecidableEq, Repr

/-- The configuration operand `CFG` (00_scope.md R8, 10_state.md R21): three words, opaque to the engine (log 21). -/
structure SessionConfig where
  transport : Word
  cs : Word
  busClockHz : Word
  deriving DecidableEq, Repr

/-- The card session, "the sole stateful entity" (10_state.md R20 to R33). -/
structure Session where
  transport : Word
  cs : Word
  busClockHz : Word
  mode : Mode
  state : Phase
  specVersion : SpecVersion
  capacityClass : CapacityClass
  lastR1 : Byte
  lastR2 : Byte
  blockSize : Word
  capacityBytes : Wide
  ocr : Vector Byte 4
  cid : Vector Byte 16
  csd : Vector Byte 16
  lastWrittenBlockCount : Word
  deriving DecidableEq, Repr

/-- The working registers, none visible to the host (10_state.md R36 to R38, R42, R48; 45_transfer.md R290 for `w`). -/
structure Work where
  fr : Vector Byte 6
  crcTx : Half
  crcRx : Half
  crcErr : Bool
  r7 : Vector Byte 4
  w : Vector Byte 4
  tries : Nat
  i : Nat
  k : Nat
  t0 : Timestamp
  seqResult : Code
  deriving DecidableEq, Repr

/-- The operand registers of the operation in progress (10_state.md R41). -/
structure Operands where
  op : HostOp
  addr : Word
  count : Word
  buf : Word
  cfg : SessionConfig
  deriving DecidableEq, Repr

/-- One answer of the environment to an exchange (60_exceptions.md R390, R395; log 2). -/
inductive WireAnswer where
  | byte (rx : Byte)
  | ioFail
  deriving DecidableEq, Repr

/-- One observable action of the engine (60_exceptions.md R397, 00_scope.md R15; log 20). -/
inductive Event where
  | exchange (tx rx : Byte)
  | failedExchange (tx : Byte)
  | csAssert
  | csDeassert
  | setClock (p : ClockProfile)
  | buildTable
  deriving DecidableEq, Repr

/-- The host's memory: (address, byte) cells, strictly rising, none equal to what an unlisted address reads as. -/
abbrev Memory := List Host.Cell

/-- What a byte nothing has written reads as (DESIGN CHOICE, log 7). -/
def Memory.unlisted : Byte := 0x00#8

/-- The canonical form. -/
def Memory.wf : Memory → Bool
  | [] => true
  | [c] => c.2 != Memory.unlisted
  | c :: d :: rest => c.2 != Memory.unlisted && decide (c.1 < d.1) && Memory.wf (d :: rest)

/-- The state of the engine (10_state.md), and beside it the environment's scripts, the trace, the queue of requests and the
constant parameters as plain data (INVENTORY.md, "the MODEL's own fields"). -/
structure State where
  session : Session
  table : Vector Byte 256
  tableValid : Bool
  work : Work
  operands : Operands
  res : Code
  seq : SeqPos
  csLevel : CsLevel
  clockProfile : ClockProfile
  mem : Memory
  wire : List WireAnswer
  timer : List Bool
  nowCount : Nat
  trace : List Event
  pending : List Request
  params : Params
  deriving DecidableEq, Repr

/-- Faults: the spec gives the engine no way to stop; every failure of the engine itself is a result code of a next state
(60_exceptions.md R360, R370), so there is none. -/
inductive Fault where
  deriving DecidableEq, Repr

/-- Why a step has no meaning. -/
inductive Refusal where
  /-- Raised by an arm of `exec` whose instruction has no meaning yet. Safe: the model stops. -/
  | notModelled (mnemonic : String)
  /-- Raised by every host operation when `SEQ` is not `IdleSeq`: "no behaviour" is defined for a second operation during a
  running one (70_reset_and_hazards.md R417, 93_implementation_defined.md U9; log 17). Safe: the model stops. -/
  | operationInProgress
  /-- Raised by `step` on an item that is no encoding of the opcode table: the engine emits no other command (30_encoding.md
  R110) and takes no other byte as a token or data response (R108, R109). Safe: the model stops. -/
  | noEncoding (e : DecodeError)
  deriving DecidableEq, Repr

/-- The state right after reset (R50, R411); the values R50 leaves unspecified are DESIGN CHOICES (log 5). -/
def State.reset : State :=
  { session :=
      { transport := 0, cs := 0, busClockHz := 0, mode := .inactive, state := .inactive, specVersion := .undetermined,
        capacityClass := .sdsc, lastR1 := 0, lastR2 := 0, blockSize := 0, capacityBytes := 0,
        ocr := Vector.replicate 4 0, cid := Vector.replicate 16 0, csd := Vector.replicate 16 0,
        lastWrittenBlockCount := 0 },
    table := Vector.replicate 256 0, tableValid := false,
    work :=
      { fr := Vector.replicate 6 0, crcTx := 0, crcRx := 0, crcErr := false, r7 := Vector.replicate 4 0,
        w := Vector.replicate 4 0, tries := 0, i := 0, k := 0, t0 := 0, seqResult := .ok },
    operands := { op := .crc7Build, addr := 0, count := 0, buf := 0, cfg := { transport := 0, cs := 0, busClockHz := 0 } },
    res := .ok, seq := .idleSeq, csLevel := .deasserted, clockProfile := .clkInit, mem := [], wire := [], timer := [],
    nowCount := 0, trace := [], pending := [], params := Params.standard }

end Sys2Proof.Machine
end

