-- ==== Sys2Proof/Machine/Operands.lean ====
section
/-! DEFINITION. The constants of the protocol and every operand form: the arguments of the commands (30_encoding.md R103),
address translation (20_memory.md R68), buffer offsets (R71, R81), the byte orders (R62 to R66), the fields of a register
snapshot (46_register_decoder.md R331), the token and data-response tests. -/

namespace Sys2Proof.Machine

/-! ### Constants (00_scope.md R7, R9) -/

/-- `FILL` (R9, 60_exceptions.md R391). -/
def fill : Byte := 0xFF#8

/-- `R1_TRIES`. -/
def r1Tries : Nat := 10

/-- `TOKEN_TRIES`. -/
def tokenTries : Nat := 100

/-- `POWERUP_DUMMY_BYTES`. -/
def powerupDummyBytes : Nat := 9

/-- `BLOCK_SIZE`. -/
def blockSizeBytes : Word := 512#32

/-- `TOKEN_START` (43_token_data.md R218). -/
def tokenStartByte : Byte := 0xFE#8

/-- `TOKEN_MULTI_WRITE` (R219). -/
def tokenMultiWriteByte : Byte := 0xFC#8

/-- `TOKEN_STOP_TRAN` (R220). -/
def tokenStopTranByte : Byte := 0xFD#8

/-- `KIB512` (R7, 46_register_decoder.md R334). -/
def kib512 : Wide := 524288#64

/-- `SDXC_THRESHOLD` (R9, 44_init.md R248). -/
def sdxcThreshold : Wide := 34359738368#64

/-! ### Command arguments (30_encoding.md R103) -/

/-- The argument of `CMD0`, `CMD9`, `CMD10`, `CMD12`, `CMD13`, `CMD55`, `CMD58`, `ACMD22` and the repeated `ACMD41`. -/
def argZero : Word := 0x00000000#32

/-- `CMD8_ARG`. -/
def argCmd8 : Word := 0x000001AA#32

/-- The argument of `CMD16`: 512. -/
def argCmd16 : Word := 0x00000200#32

/-- The argument of the first `ACMD41`: the HCS bit, bit 30, for a version-2 card. -/
def argAcmd41First (v : SpecVersion) : Word := if v = .v2 then 0x40000000#32 else 0x00000000#32

/-- `XLATE` (20_memory.md R68, R69): a byte address, truncated to 32 bits, for `SDSC`; else the block address. -/
def xlate (s : Session) (a : Word) : Word :=
  if s.capacityClass = .sdsc then a * s.blockSize else a

/-- The argument bytes of a frame, big-endian (R62), and its first byte (30_encoding.md R92): all of a frame but its last byte
(R91), as the register `FR` holds it, with the check byte `check`. -/
def frameBytes (cmd : BitVec 6) (arg : Word) (check : Byte) : Vector Byte 6 :=
  #v[0b01#2 ++ cmd, arg.extractLsb' 24 8, arg.extractLsb' 16 8, arg.extractLsb' 8 8, arg.extractLsb' 0 8, check]

/-- The bits of a byte in the order of the wire, most significant first (20_memory.md R61). -/
def wireBits (b : Byte) : List Bool := [7, 6, 5, 4, 3, 2, 1, 0].map fun n => b.getLsbD n

/-! ### Where a received payload goes -/

/-- The destination of received bytes (20_memory.md R63): the host buffer from an address, a snapshot, or a scratch. -/
inductive Dest where
  | hostBuffer (base : Nat)
  | ocr
  | cid
  | csd
  | r7
  | w
  deriving DecidableEq, Repr

/-- The address of the first byte of block `i` in the host's memory: `BUF + i × S.blockSize` (20_memory.md R71, R81). -/
def blockBase (s : State) (i : Nat) : Nat := s.operands.buf.toNat + i * s.session.blockSize.toNat

/-- The number of bytes of a block transfer (20_memory.md R72). -/
def blockLength (s : State) : Nat := s.session.blockSize.toNat

/-- The big-endian assembly of the written-block count (20_memory.md R65, 45_transfer.md R290). -/
def countOfBytes (w : Vector Byte 4) : Word := w[0] ++ w[1] ++ w[2] ++ w[3]

/-! ### Tests on received bytes -/

/-- `TOKEN_MATCH` (43_token_data.md R212) under the reading the parameter names; a predicate of the third form meets the
rule's two constraints whatever its pairs are. -/
def tokenMatch (r : TokenRule) (rx tok : Byte) : Bool :=
  match r with
  | .equality => rx == tok
  | .subset => rx &&& ~~~tok == 0#8
  | .pairs accepted => rx == tok || (rx != fill && accepted.contains (rx, tok))

/-- `ACCEPT_DR` (43_token_data.md R215): the outcome of a data-response byte, or none (30_encoding.md R108). -/
def acceptDataResponse (rx : Byte) : Option Code :=
  if dataResponseCode rx = drAcceptedCode then some .ok
  else if dataResponseCode rx = drCrcErrorCode then some .dataCrc
  else if dataResponseCode rx = drWriteErrorCode then some .writeProgram
  else none

/-- The test of `BUSY_WAIT` and `DRAIN` (43_token_data.md R216, 45_transfer.md R284): only `0xFF` ends the wait. -/
def acceptReady (rx : Byte) : Option Code := if rx = 0xFF#8 then some .ok else none

/-- The echo test on the trailer of `CMD8` (44_init.md R243): the last two bytes are `01 AA`. -/
def echoOk (r7 : Vector Byte 4) : Bool := r7[2] == 0x01#8 && r7[3] == 0xAA#8

/-! ### What the engine decodes from the snapshots (46_register_decoder.md R331 to R337) -/

/-- `CCS`: bit 30 of the OCR, bit 6 of its first byte (R332). -/
def ccs (ocr : Vector Byte 4) : Bool := ocr[0].getLsbD 6

/-- `C_SIZE` of a version-2 CSD (R333): 22 bits. -/
def csizeV2 (csd : Vector Byte 16) : BitVec 22 := csd[7].extractLsb' 0 6 ++ csd[8] ++ csd[9]

/-- Capacity, version 2 (R334). -/
def capacityV2 (csd : Vector Byte 16) : Wide := ((csizeV2 csd).setWidth 64 + 1#64) * kib512

/-- `C_SIZE` of a version-1 CSD (R335): 12 bits. -/
def csizeV1 (csd : Vector Byte 16) : BitVec 12 := csd[6].extractLsb' 0 2 ++ csd[7] ++ csd[8].extractLsb' 6 2

/-- `C_SIZE_MULT` of a version-1 CSD (R335): 3 bits. -/
def cmultV1 (csd : Vector Byte 16) : BitVec 3 := csd[9].extractLsb' 0 2 ++ csd[10].extractLsb' 7 1

/-- Capacity, version 1 (R336); the last factor is the constant 512. -/
def capacityV1 (csd : Vector Byte 16) : Wide :=
  (((csizeV1 csd).setWidth 64 + 1#64) <<< ((cmultV1 csd).toNat + 2)) * 512#64

end Sys2Proof.Machine
end

