-- ==== Sys2Proof/Machine/Ops.lean ====
section
/-! DEFINITION. The named operations over the state: the host's memory, the collaborator primitives (00_scope.md R13), the
shared sequences (41_crc16.md, 42_command_response.md, 43_token_data.md), and the one error handler (60_exceptions.md R370).
A sequence ends with a result code (00_scope.md R14). The handler has no return beside it: R374. -/

namespace Sys2Proof.Machine

/-! ### Sequencing -/

/-- `r <- first; if r ≠ OK then return r; rest` (00_scope.md R14). -/
def andThen (r : Code × State) (rest : State → Code × State) : Code × State :=
  match r.1 with
  | .ok => rest r.2
  | _ => r

/-! ### The host's memory -/

/-- `MemRead(address, 1)`. -/
def Memory.read : Memory → Nat → Byte
  | [], _ => Memory.unlisted
  | c :: rest, a => if c.1 = a then c.2 else Memory.read rest a

/-- The cells without the cell of an address. -/
def Memory.erase : Memory → Nat → Memory
  | [], _ => []
  | c :: rest, a => if c.1 = a then rest else c :: Memory.erase rest a

/-- The cells with a cell of an address set, in rising order. -/
def Memory.insert : Memory → Nat → Byte → Memory
  | [], a, v => [(a, v)]
  | c :: rest, a, v =>
    if a < c.1 then (a, v) :: c :: rest
    else if c.1 = a then (a, v) :: rest
    else c :: Memory.insert rest a v

/-- `MemWrite(address, 1, v)`, keeping the canonical form. -/
def Memory.write (m : Memory) (a : Nat) (v : Byte) : Memory :=
  if v = Memory.unlisted then Memory.erase m a else Memory.insert m a v

/-- The `n` bytes from an address. -/
def Memory.readBytes (m : Memory) : Nat → Nat → List Byte
  | _, 0 => []
  | a, n + 1 => Memory.read m a :: Memory.readBytes m (a + 1) n

/-! ### Collaborator primitives (00_scope.md R13; 60_exceptions.md R385 to R395) -/

/-- `TxRx8` (R390): one exchange; `none` is `IOFAIL` (R362, R395). An exhausted script answers `IOFAIL` (log 2). -/
def txRx8 (tx : Byte) (s : State) : Option Byte × State :=
  match s.wire with
  | .byte rx :: rest => (some rx, { s with wire := rest, trace := .exchange tx rx :: s.trace })
  | .ioFail :: rest => (none, { s with wire := rest, trace := .failedExchange tx :: s.trace })
  | [] => (none, { s with trace := .failedExchange tx :: s.trace })

/-- `Send8` (R390): the received byte is dropped (30_encoding.md R111). -/
def send8 (b : Byte) (s : State) : Code × State :=
  match txRx8 b s with
  | (some _, s) => (.ok, s)
  | (none, s) => (.transportIo, s)

/-- `Recv8` (R390, R391): the engine sends `FILL`. -/
def recv8 (s : State) : Option Byte × State := txRx8 fill s

/-- `CsAssert` (R393). -/
def csAssert (s : State) : State := { s with csLevel := .asserted, trace := .csAssert :: s.trace }

/-- `CsDeassert` (R393). -/
def csDeassert (s : State) : State := { s with csLevel := .deasserted, trace := .csDeassert :: s.trace }

/-- `SetClock` (R394). -/
def setClock (p : ClockProfile) (s : State) : State := { s with clockProfile := p, trace := .setClock p :: s.trace }

/-- `t0 <- Now()` (R385): the timestamp is a free value (log 4). -/
def startWait (s : State) : State :=
  { s with work.t0 := Config.now s.nowCount, nowCount := s.nowCount + 1 }

/-- `Elapsed(t0, 1000)` (R385, R387): the next answer of the timer's script; an exhausted script answers true (log 3). -/
def elapsed (s : State) : Bool × State :=
  match s.timer with
  | answer :: rest => (answer, { s with timer := rest })
  | [] => (true, s)

/-- More rounds than the timer's script can let a timed loop run (log 3). -/
def timedRounds (s : State) : Nat := s.timer.length + 1

/-! ### Register writes -/

/-- `S.mode <- m; S.state <- p`. -/
def setModeState (m : Mode) (p : Phase) (s : State) : State := { s with session.mode := m, session.state := p }

/-- `S.state <- p`. -/
def setState (p : Phase) (s : State) : State := { s with session.state := p }

/-- `SEQ <- p` (10_state.md R45). -/
def setSeq (p : SeqPos) (s : State) : State := { s with seq := p }

/-- `S.lastR1 <- r1` (10_state.md R26). -/
def setLastR1 (r1 : Byte) (s : State) : State := { s with session.lastR1 := r1 }

/-- The poll counter (10_state.md R42). -/
def setTries (n : Nat) (s : State) : State := { s with work.tries := n }

/-- The block index (10_state.md R42). -/
def setBlockIndex (n : Nat) (s : State) : State := { s with work.i := n }

/-- `dst[k] <- v` (41_crc16.md R157, 30_encoding.md R98). -/
def storeByte (dst : Dest) (k : Nat) (v : Byte) (s : State) : State :=
  match dst with
  | .hostBuffer base => { s with mem := Memory.write s.mem (base + k) v }
  | .ocr => { s with session.ocr := s.session.ocr.setIfInBounds k v }
  | .cid => { s with session.cid := s.session.cid.setIfInBounds k v }
  | .csd => { s with session.csd := s.session.csd.setIfInBounds k v }
  | .r7 => { s with work.r7 := s.work.r7.setIfInBounds k v }
  | .w => { s with work.w := s.work.w.setIfInBounds k v }

/-! ### The 8-bit path -/

/-- The bytes in order, nothing between them; the first failure ends it (42_command_response.md R170). -/
def sendBytes : List Byte → State → Code × State
  | [], s => (.ok, s)
  | b :: rest, s => andThen (send8 b s) (sendBytes rest)

/-- Dummy bytes, each `FILL` (30_encoding.md R121). -/
def sendDummies (n : Nat) (s : State) : Code × State := sendBytes (List.replicate n fill) s

/-- `n` plain reads into a destination from index `k` on (30_encoding.md R98). -/
def recvPlain (dst : Dest) : Nat → Nat → State → Code × State
  | 0, _, s => (.ok, s)
  | n + 1, k, s =>
    match recv8 s with
    | (none, s) => (.transportIo, s)
    | (some rx, s) => recvPlain dst n (k + 1) (storeByte dst k rx s)

/-! ### Commands and R1 (42_command_response.md) -/

/-- `RECEIVE_R1` with `n` tries left (R171). -/
def pollR1 : Nat → State → Code × State
  | 0, s => (.r1Timeout, s)
  | n + 1, s =>
    match recv8 (setTries (r1Tries - n) s) with
    | (none, s) => (.transportIo, s)
    | (some rx, s) => if isR1 rx then (.ok, setLastR1 rx s) else pollR1 n s

/-- `RECEIVE_R1` (R171). -/
def receiveR1 (s : State) : Code × State := pollR1 r1Tries s

/-- `CRC7_COMPUTE` (40_crc7.md R134); no value without a table (R137). -/
def crc7Compute (s : State) (m : List Byte) : Option (BitVec 7) :=
  if s.tableValid then some (crc7Fold s.table m) else none

/-- Classification of an acquired R1 (R172). -/
def classifyR1 (exp : Byte) (s : State) : Code × State :=
  if s.session.lastR1 = exp then (.ok, s) else (.unexpectedR1, s)

/-- `SEND_COMMAND` (R170); without a table it is refused before anything is sent (R416, 60_exceptions.md R372, log 14). -/
def sendCommand (cmd : BitVec 6) (arg : Word) (exp : Byte) (s : State) : Code × State :=
  match crc7Compute s (frameHead cmd arg) with
  | none => (.refused, s)
  | some crc =>
    let s := { s with work.fr := frameBytes cmd arg (frameCheckByte crc) }
    andThen (sendBytes s.work.fr.toList s) fun s =>
      andThen (receiveR1 s) (classifyR1 exp)

/-- The R1 expected of `CMD55` (R173, R186); none in mode `Inactive`. -/
def expectedOfCmd55 : Mode → Option Byte
  | .identification => some r1Idle
  | .transfer => some r1Normal
  | .inactive => none

/-- The prefix frame (R186); refused in mode `Inactive` (R173, log 14). -/
def sendPrefix (arg : Word) (s : State) : Code × State :=
  match expectedOfCmd55 s.session.mode with
  | none => (.refused, s)
  | some exp => sendCommand 55 arg exp s

/-- `SEND_ACOMMAND` (R173). -/
def sendACommand (acmd : BitVec 6) (arg : Word) (exp : Byte) (s : State) : Code × State :=
  andThen (sendPrefix argZero s) (sendCommand acmd arg exp)

/-! ### Tokens (43_token_data.md R210, R211) -/

/-- `SEND_TOKEN` (R210). -/
def sendToken (tok : Byte) (s : State) : Code × State := send8 tok s

/-- `WAIT_TOKEN` with `n` tries left (R211). -/
def pollToken (tok : Byte) : Nat → State → Code × State
  | 0, s => (.tokenTimeout, s)
  | n + 1, s =>
    match recv8 (setTries (tokenTries - n) s) with
    | (none, s) => (.transportIo, s)
    | (some rx, s) => if tokenMatch s.params.tokenMatch rx tok then (.ok, s) else pollToken tok n s

/-- `WAIT_TOKEN` (R211). -/
def waitToken (tok : Byte) (s : State) : Code × State := pollToken tok tokenTries s

/-! ### Waits bounded by time (43_token_data.md R217) -/

/-- The loop of `TIMED_POLL` (R217): read, test the byte, then test the time. The round count is never used up: each round
takes one answer of the timer's script, and an exhausted script ends the loop (`elapsed`, log 3). -/
def timedLoop (accept : Byte → Option Code) : Nat → State → Code × State
  | 0, s => (.waitTimeout, s)
  | n + 1, s =>
    match recv8 s with
    | (none, s) => (.transportIo, s)
    | (some rx, s) =>
      match accept rx with
      | some c => (c, s)
      | none =>
        match elapsed s with
        | (true, s) => (.waitTimeout, s)
        | (false, s) => timedLoop accept n s

/-- The loop on the timestamp that `t0` already holds. -/
def timedPollOn (accept : Byte → Option Code) (s : State) : Code × State := timedLoop accept (timedRounds s) s

/-- `TIMED_POLL` (R217): a timestamp of its own, then the loop. -/
def timedPoll (accept : Byte → Option Code) (s : State) : Code × State := timedPollOn accept (startWait s)

/-- `BUSY_WAIT` (R216). -/
def busyWait (s : State) : Code × State := timedPoll acceptReady s

/-- `DRAIN` (45_transfer.md R284): expiry of the budget is an error only under the parameter. -/
def drain (s : State) : Code × State :=
  match timedPoll acceptReady s with
  | (.waitTimeout, s) => (if s.params.drainTimeoutIsError then .waitTimeout else .ok, s)
  | r => r

/-! ### Data packets (41_crc16.md R156, R157; 43_token_data.md R213, R214) -/

/-- The words of `RECV16_CRC` from word `j` on (R157). Each byte is stored as it arrives, so the first byte of a word whose
second exchange fails is in the destination (20_memory.md R75, 45_transfer.md R294; log 16). -/
def recvWords (dst : Dest) : Nat → Nat → State → Code × State
  | 0, _, s => (.ok, s)
  | n + 1, j, s =>
    match recv8 s with
    | (none, s) => (.transportIo, s)
    | (some hi, s) =>
      match recv8 (storeByte dst (2 * j) hi s) with
      | (none, s) => (.transportIo, s)
      | (some lo, s) =>
        let s := storeByte dst (2 * j + 1) lo s
        recvWords dst n (j + 1) { s with work.crcRx := crc16Step16 s.work.crcRx (hi ++ lo), work.k := 2 * j + 2 }

/-- The received CRC16 word and its comparison (R157). -/
def checkCrc16 (s : State) : Code × State :=
  match recv8 s with
  | (none, s) => (.transportIo, s)
  | (some hi, s) =>
    match recv8 s with
    | (none, s) => (.transportIo, s)
    | (some lo, s) =>
      let mismatch : Bool := s.work.crcRx != hi ++ lo
      (if mismatch then .dataCrc else .ok, { s with work.crcErr := mismatch })

/-- `RECV16_CRC` (R157); an odd length is refused (20_memory.md R73, log 14). -/
def recv16Crc (n : Nat) (dst : Dest) (s : State) : Code × State :=
  if n % 2 = 0 then
    andThen (recvWords dst (n / 2) 0 { s with work.crcRx := crc16Seed, work.k := 0 }) checkCrc16
  else (.refused, s)

/-- `DATA_RX` (43_token_data.md R213). -/
def dataRx (n : Nat) (dst : Dest) (s : State) : Code × State := recv16Crc n dst s

/-- The words of `SEND16_CRC` (R156): `n` words of the host's memory from an address on. -/
def sendWords : Nat → Nat → State → Code × State
  | 0, _, s => (.ok, s)
  | n + 1, a, s =>
    let hi := Memory.read s.mem a
    let lo := Memory.read s.mem (a + 1)
    andThen (sendBytes [hi, lo] s) fun s =>
      sendWords n (a + 2) { s with work.crcTx := crc16Step16 s.work.crcTx (hi ++ lo), work.k := s.work.k + 2 }

/-- The CRC16 word, high byte first (R156, 20_memory.md R66). -/
def sendCrc16 (s : State) : Code × State :=
  sendBytes [s.work.crcTx.extractLsb' 8 8, s.work.crcTx.extractLsb' 0 8] s

/-- `SEND16_CRC` (R156) on the `n` bytes of the host's memory from an address on; an odd length is refused (R73, log 14). -/
def send16Crc (n : Nat) (base : Nat) (s : State) : Code × State :=
  if n % 2 = 0 then
    andThen (sendWords (n / 2) base { s with work.crcTx := crc16Seed, work.k := 0 }) sendCrc16
  else (.refused, s)

/-- The data-response poll and, on acceptance, the busy wait (R214, R215); the busy wait takes a timestamp of its own unless
`SHARED_WRITE_BUDGET` is set. -/
def dataResponse (s : State) : Code × State :=
  andThen (timedPoll acceptDataResponse s) fun s =>
    if s.params.sharedWriteBudget then timedPollOn acceptReady s else busyWait s

/-- `DATA_TX` (43_token_data.md R214). -/
def dataTx (n : Nat) (base : Nat) (s : State) : Code × State :=
  andThen (send16Crc n base s) dataResponse

/-! ### The precondition of a block transfer (60_exceptions.md R372) -/

/-- Every payload of a transfer of so many blocks has an even length (20_memory.md R73); a transfer of no block has no
payload (45_transfer.md R293). -/
def payloadsEven (blocks : Nat) (s : State) : Bool := blocks == 0 || s.session.blockSize.toNat % 2 == 0

/-- A block command, refused before anything is sent when a payload would have an odd length (R372, log 14). -/
def ifPayloadsEven (blocks : Nat) (command : State → Code × State) (s : State) : Code × State :=
  if payloadsEven blocks s then command s else (.refused, s)

/-! ### The CRC7 table (40_crc7.md R131) -/

/-- The writes of `CRC7_BUILD`. -/
def buildTable (s : State) : State :=
  { s with table := crc7Table, tableValid := true, trace := .buildTable :: s.trace }

/-! ### Starting and ending an operation -/

/-- The uniform error handler `Fail(c)` (60_exceptions.md R370): the two field writes, chip-select, `RES`, `SEQ`; everything
else stays (R371, R378). -/
def failHandler (c : Code) (s : State) : State :=
  { csDeassert (setModeState .inactive .inactive s) with res := c, seq := .idleSeq }

/-- Completion of a public operation: `RES` and `SEQ` (10_state.md R39, R45), through the handler on every code but `OK`
(R370). DESIGN CHOICE (log 25): what the sequencer's result code of 10_state.md R48 holds once the operation is over, the spec
does not say; here it is the operation's own code, also when the last sub-sequence ended with another. DESIGN CHOICE (log 28): the
operand registers keep the operation's operands; (log 30): the working registers keep what the operation left in them. -/
def complete (r : Code × State) : State :=
  let s := { r.2 with work.seqResult := r.1 }
  match r.1 with
  | .ok => { s with res := .ok, seq := .idleSeq }
  | c => failHandler c s

/-- A refused operation: only `RES` is written (60_exceptions.md R372, 45_transfer.md R280); the operand registers are not loaded
(log 28). -/
def refuse (s : State) : State := { s with res := .refused }

/-- `SEQ` and the operand registers when an operation starts (10_state.md R41, R45). The operand registers for which the operation
has no operand keep their values (log 28). -/
def startOp (ops : Operands) (s : State) : State := { s with operands := ops, seq := .step ops.op 1 }

/-- The outcome type of the machine. -/
abbrev Result := Host.Outcome State Fault Refusal

/-- Runs a public operation. No operation starts while `SEQ` is not `IdleSeq` (70_reset_and_hazards.md R417, log 17); one that
is not ready is refused. -/
def runOperation (ops : Operands) (ready : Bool) (body : State → Code × State) (s : State) : Result :=
  if s.seq = .idleSeq then
    .next (if ready then complete (body (startOp ops s)) else refuse s)
  else .refused .operationInProgress

/-- The end of a sequence run on its own: its code goes to the sequencer, no handler runs (00_scope.md R14,
42_command_response.md R172; log 10). DESIGN CHOICE (log 26): such a sequence runs in whatever mode the session is in, and its
exchanges are clocked with chip-select as it stands, against the bracket of 45_transfer.md R281 and the boot sequence of
70_reset_and_hazards.md R412. DESIGN CHOICE (log 29): it runs at whatever clock profile stands and whatever the card was last seen
doing, so that the orders of R419, R421 and R422, which the host operations keep, are not kept between instructions run alone.
DESIGN CHOICE (log 27): it writes the registers that its own rule names, outside the operation which issues it in the spec; (log 31):
it is sent outside that operation, a `CMD55` with no application command after it. -/
def endSequence (r : Code × State) : Result := .next { r.2 with work.seqResult := r.1 }

/-- Admission of the six transfer operations (45_transfer.md R280). -/
def admitted (s : State) : Bool := s.session.mode == .transfer && s.session.state == .standby

/-- Admission and the precondition of every command, the table (R280, 70_reset_and_hazards.md R416; log 14). -/
def commandReady (s : State) : Bool := admitted s && s.tableValid

/-- Admission, the table, and the even payload lengths of a transfer of so many blocks (R280, R416, 20_memory.md R73;
log 14). -/
def blockReady (blocks : Nat) (s : State) : Bool := commandReady s && payloadsEven blocks s

end Sys2Proof.Machine
end

