-- ==== Sys2Proof/Machine/Commands.lean ====
section
/-! DEFINITION. The fifteen commands (42_command_response.md R175 to R189): the exchange of each, with what follows its R1
(30_encoding.md R106), and its meaning as an instruction of its own. The exchanges are what the host operations are made of.
As an instruction the frame's argument is sent as it stands (log 31) and the CRC7 is computed by the engine (R94, log 10); which
results are fatal is the issuing operation's decision (R172). What such an instruction writes is log 27, which operand registers it
reads log 28, and what it does not wait for log 29. -/

namespace Sys2Proof.Machine

/-! ### The exchanges -/

/-- `CMD0` (R175): nothing follows R1. -/
def cmd0Exchange (arg : Word) (s : State) : Code × State := sendCommand 0 arg r1Idle s

/-- `CMD8` (R176): four plain reads into `R7`, only when R1 matched. -/
def cmd8Exchange (arg : Word) (s : State) : Code × State :=
  andThen (sendCommand 8 arg r1Idle s) (recvPlain .r7 4 0)

/-- `CMD9` (R177): the CSD as a data packet. -/
def cmd9Exchange (arg : Word) (s : State) : Code × State :=
  andThen (sendCommand 9 arg r1Normal s) fun s =>
    andThen (waitToken tokenStartByte s) (dataRx 16 .csd)

/-- `CMD10` (R178): the CID as a data packet. -/
def cmd10Exchange (arg : Word) (s : State) : Code × State :=
  andThen (sendCommand 10 arg r1Normal s) fun s =>
    andThen (waitToken tokenStartByte s) (dataRx 16 .cid)

/-- `CMD12` (R179): drained until `0xFF` after a multi-block read; nothing in the multi-block-write recovery (R106). Which of the two
it is, `OP` says (log 28). -/
def cmd12Exchange (arg : Word) (s : State) : Code × State :=
  andThen (sendCommand 12 arg r1Normal s) fun s =>
    if s.operands.op = .readMultipleBlock then drain s else (.ok, s)

/-- The second status byte (45_transfer.md R288). -/
def readR2 (s : State) : Code × State :=
  match recv8 s with
  | (none, s) => (.transportIo, s)
  | (some rx, s) =>
    (if s.params.r2NonzeroIsError && rx != 0x00#8 then .unexpectedR1 else .ok, { s with session.lastR2 := rx })

/-- `CMD13` (R180, 45_transfer.md R288): one plain read into `S.lastR2`, only when R1 matched. -/
def cmd13Exchange (arg : Word) (s : State) : Code × State :=
  andThen (sendCommand 13 arg r1Normal s) readR2

/-- `CMD16` (R181): nothing follows R1. -/
def cmd16Exchange (arg : Word) (s : State) : Code × State := sendCommand 16 arg r1Normal s

/-- `CMD17` (R182): one data packet of `S.blockSize` bytes, which must be even, into the host buffer. -/
def cmd17Exchange (arg : Word) : State → Code × State :=
  ifPayloadsEven 1 fun s =>
    andThen (sendCommand 17 arg r1Normal s) fun s =>
      andThen (waitToken tokenStartByte s) fun s => dataRx (blockLength s) (.hostBuffer (blockBase s 0)) s

/-- `n` blocks of a multi-block read from block `i` on (R183, 45_transfer.md R283). -/
def readBlocks : Nat → Nat → State → Code × State
  | 0, _, s => (.ok, s)
  | n + 1, i, s =>
    andThen (waitToken tokenStartByte (setBlockIndex i s)) fun s =>
      andThen (dataRx (blockLength s) (.hostBuffer (blockBase s i)) s) (readBlocks n (i + 1))

/-- `CMD18` (R183): `COUNT` data packets into the host buffer. The `CMD12` that ends the transfer is an instruction of its
own. -/
def cmd18Exchange (arg : Word) (s : State) : Code × State :=
  ifPayloadsEven s.operands.count.toNat
    (fun s => andThen (sendCommand 18 arg r1Normal s) fun s => readBlocks s.operands.count.toNat 0 s) s

/-- `CMD24` (R184): the start token, then one written packet, its data response and the busy wait. -/
def cmd24Exchange (arg : Word) : State → Code × State :=
  ifPayloadsEven 1 fun s =>
    andThen (sendCommand 24 arg r1Normal s) fun s =>
      andThen (sendToken tokenStartByte s) fun s => dataTx (blockLength s) (blockBase s 0) s

/-- `n` blocks of a multi-block write from block `i` on (R185, 45_transfer.md R286). -/
def writeBlocks : Nat → Nat → State → Code × State
  | 0, _, s => (.ok, s)
  | n + 1, i, s =>
    andThen (sendToken tokenMultiWriteByte (setBlockIndex i s)) fun s =>
      andThen (dataTx (blockLength s) (blockBase s i) s) (writeBlocks n (i + 1))

/-- `CMD25` (R185): one dummy byte, then `COUNT` written packets. The stop token that ends the transfer is an instruction of
its own. -/
def cmd25Exchange (arg : Word) (s : State) : Code × State :=
  ifPayloadsEven s.operands.count.toNat
    (fun s =>
      andThen (sendCommand 25 arg r1Normal s) fun s =>
        andThen (sendDummies 1 s) fun s => writeBlocks s.operands.count.toNat 0 s) s

/-- `CMD55` (R186): the expected R1 is that of the session's mode. -/
def cmd55Exchange (arg : Word) (s : State) : Code × State := sendPrefix arg s

/-- `CMD58` (R187): four plain reads into `S.OCR`, only when R1 matched. -/
def cmd58Exchange (arg : Word) (s : State) : Code × State :=
  andThen (sendCommand 58 arg r1Normal s) (recvPlain .ocr 4 0)

/-- The big-endian assembly into `S.lastWrittenBlockCount` (45_transfer.md R290). -/
def storeCount (s : State) : Code × State :=
  (.ok, { s with session.lastWrittenBlockCount := countOfBytes s.work.w })

/-- `ACMD22` (R188, 45_transfer.md R290): the count as a data packet of four bytes. -/
def acmd22Exchange (arg : Word) (s : State) : Code × State :=
  andThen (sendACommand 22 arg r1Normal s) fun s =>
    andThen (waitToken tokenStartByte s) fun s =>
      andThen (dataRx 4 .w s) storeCount

/-- `ACMD41` (R189) with the R1 its issue expects: nothing follows R1. -/
def acmd41Exchange (arg : Word) (exp : Byte) (s : State) : Code × State := sendACommand 41 arg exp s

/-- `R1_IDLE` on the first issue, `R1_NORMAL` on the repeats (R189), told apart by the sequencer (log 13). -/
def expectedOfAcmd41 (p : SeqPos) : Byte := if p = .acmd41Repeat then r1Normal else r1Idle

/-- `STATUS_SEQ` (45_transfer.md R288). -/
def statusSeq (s : State) : Code × State := cmd13Exchange argZero s

/-- `WBC_SEQ` (45_transfer.md R290). -/
def wbcSeq (s : State) : Code × State := acmd22Exchange argZero s

/-! ### The meanings -/

/-- `CMD0` as an instruction (R175). -/
def execCmd0 (arg : Word) (s : State) : Result := endSequence (cmd0Exchange arg s)

/-- `CMD8` as an instruction (R176); the echo and the version are judged by `INITIALIZE` step 3. DESIGN CHOICE (log 27): it writes
`R7` also outside `INITIALIZE` (10_state.md R38). -/
def execCmd8 (arg : Word) (s : State) : Result := endSequence (cmd8Exchange arg s)

/-- `CMD9` as an instruction (R177). DESIGN CHOICE (log 27): it writes `S.CSD` also outside `INITIALIZE` (10_state.md R32,
70_reset_and_hazards.md R424). -/
def execCmd9 (arg : Word) (s : State) : Result := endSequence (cmd9Exchange arg s)

/-- `CMD10` as an instruction (R178). DESIGN CHOICE (log 27): it writes `S.CID` also outside `INITIALIZE` (10_state.md R31,
70_reset_and_hazards.md R424). -/
def execCmd10 (arg : Word) (s : State) : Result := endSequence (cmd10Exchange arg s)

/-- `CMD12` as an instruction (R179); it drains when `OP` is `READ_MULTIPLE_BLOCK` (log 28). -/
def execCmd12 (arg : Word) (s : State) : Result := endSequence (cmd12Exchange arg s)

/-- `CMD13` as an instruction (R180). DESIGN CHOICE (log 27): it writes `S.lastR2` as `STATUS_SEQ` does (10_state.md R27). -/
def execCmd13 (arg : Word) (s : State) : Result := endSequence (cmd13Exchange arg s)

/-- `CMD16` as an instruction (R181). -/
def execCmd16 (arg : Word) (s : State) : Result := endSequence (cmd16Exchange arg s)

/-- `CMD17` as an instruction (R182), into the buffer that `BUF` holds (log 28). -/
def execCmd17 (arg : Word) (s : State) : Result := endSequence (cmd17Exchange arg s)

/-- `CMD18` as an instruction (R183), with the `BUF` and `COUNT` that the operand registers hold (log 28). -/
def execCmd18 (arg : Word) (s : State) : Result := endSequence (cmd18Exchange arg s)

/-- `CMD24` as an instruction (R184), from the buffer that `BUF` holds (log 28). -/
def execCmd24 (arg : Word) (s : State) : Result := endSequence (cmd24Exchange arg s)

/-- `CMD25` as an instruction (R185), with the `BUF` and `COUNT` that the operand registers hold (log 28). -/
def execCmd25 (arg : Word) (s : State) : Result := endSequence (cmd25Exchange arg s)

/-- `CMD55` as an instruction (R186). DESIGN CHOICE (log 31): run alone it is the prefix frame with no application frame after it, which
the spec never sends (30_encoding.md R105). -/
def execCmd55 (arg : Word) (s : State) : Result := endSequence (cmd55Exchange arg s)

/-- `CMD58` as an instruction (R187); the class is judged by `INITIALIZE` step 5. DESIGN CHOICE (log 27): it writes `S.OCR` also
outside `INITIALIZE` and for every version (10_state.md R30, 70_reset_and_hazards.md R424). -/
def execCmd58 (arg : Word) (s : State) : Result := endSequence (cmd58Exchange arg s)

/-- `ACMD22` as an instruction (R188), the prefix `CMD55` with it (R105). DESIGN CHOICE (log 27): it writes
`S.lastWrittenBlockCount` as `WBC_SEQ` does (10_state.md R33). -/
def execAcmd22 (arg : Word) (s : State) : Result := endSequence (acmd22Exchange arg s)

/-- `ACMD41` as an instruction (R189), the prefix `CMD55` with it (R105). -/
def execAcmd41 (arg : Word) (s : State) : Result :=
  endSequence (acmd41Exchange arg (expectedOfAcmd41 s.seq) s)

end Sys2Proof.Machine
end

