-- ==== Sys2Proof/Machine/Initialize.lean ====
section
/-! DEFINITION. The operations that build the engine up: `CRC7_BUILD` (40_crc7.md R131) and `INITIALIZE`, its steps 1 to 9 in
the document's numbering (44_init.md R240 to R253). -/

namespace Sys2Proof.Machine

/-- `CRC7_BUILD` (R131): cannot fail, touches no wire. -/
def crc7BuildBody (s : State) : Code × State := (.ok, buildTable s)

/-- First action (R240): the configuration, set once from `CFG` (10_state.md R21). -/
def loadConfig (s : State) : State :=
  { s with session.transport := s.operands.cfg.transport, session.cs := s.operands.cfg.cs,
           session.busClockHz := s.operands.cfg.busClockHz }

/-- The assignments of step 1 (R241): the table, mode, state and class, the clock profile, chip-select. -/
def powerUp (s : State) : State :=
  csDeassert (setClock .clkInit
    { setModeState .inactive .ready (buildTable s) with session.capacityClass := .sdsc })

/-- The sequencer at a step of `INITIALIZE` (10_state.md R45). -/
def atStep (n : Nat) (s : State) : State := setSeq (.step .initSession n) s

/-- Step 1 (R241): nine dummy bytes with the card unselected. -/
def initStep1 (s : State) : Code × State := sendDummies powerupDummyBytes (powerUp (atStep 1 s))

/-- Step 2 (R242): `CMD0`. -/
def initStep2 (s : State) : Code × State :=
  andThen (cmd0Exchange argZero (csAssert (atStep 2 s))) fun s =>
    (.ok, setModeState .identification .idle s)

/-- The three outcomes of `CMD8` (R243). -/
def judgeCmd8 (r : Code × State) : Code × State :=
  match r with
  | (.ok, s) =>
    if echoOk s.work.r7 then (.ok, { s with session.specVersion := .v2 }) else (.badEcho, s)
  | (.unexpectedR1, s) =>
    if r1Has .illegalCommand s.session.lastR1 then (.ok, { s with session.specVersion := .v1 }) else (.unexpectedR1, s)
  | r => r

/-- Step 3 (R243): `CMD8`, voltage and version. -/
def initStep3 (s : State) : Code × State := judgeCmd8 (cmd8Exchange argCmd8 (atStep 3 s))

/-- The codes that are fatal inside the readiness poll (R244; D16). -/
def pollFatal (c : Code) : Bool := c == .transportIo || c == .r1Timeout

/-- One issue of `ACMD41` in the poll: only the transport-class results end it (R244). -/
def pollIssue (arg : Word) (exp : Byte) (s : State) : Code × State :=
  let r := acmd41Exchange arg exp s
  if pollFatal r.1 then r else (.ok, r.2)

/-- The first issue: the HCS argument, expecting Idle (R244). -/
def firstIssue (s : State) : Code × State :=
  pollIssue (argAcmd41First s.session.specVersion) r1Idle (atStep 4 s)

/-- A repeated issue: argument 0, expecting Normal (R244). -/
def repeatIssue (s : State) : Code × State := pollIssue argZero r1Normal (setSeq .acmd41Repeat s)

/-- The issues of one round: the repeat alone, or both under `ACMD41_PAIR_IN_LOOP` (R244; D15). -/
def pollRound (s : State) : Code × State :=
  if s.params.acmd41PairInLoop then andThen (firstIssue s) repeatIssue else repeatIssue s

/-- The loop of step 4 (R244): `S.lastR1 = R1_NORMAL` is tested before the budget. The round count is never used up (log 3). -/
def pollLoop : Nat → State → Code × State
  | 0, s => (.waitTimeout, s)
  | n + 1, s =>
    andThen (pollRound s) fun s =>
      if s.session.lastR1 = r1Normal then (.ok, s)
      else
        match elapsed s with
        | (true, s) => (.waitTimeout, s)
        | (false, s) => pollLoop n s

/-- Step 4 (R244): the readiness poll. -/
def initStep4 (s : State) : Code × State :=
  let s := startWait (atStep 4 s)
  andThen (if s.params.acmd41PairInLoop then (.ok, s) else firstIssue s) fun s =>
    andThen (pollLoop (timedRounds s) s) fun s =>
      (.ok, setModeState .transfer .standby s)

/-- The class after the OCR (R245): `SDHC` when CCS is set. -/
def classOfOcr (s : State) : State :=
  if ccs s.session.ocr then { s with session.capacityClass := .sdhc } else s

/-- Step 5 (R245): the OCR, for a version-2 card only. -/
def initStep5 (s : State) : Code × State :=
  let s := atStep 5 s
  if s.session.specVersion = .v2 then
    andThen (cmd58Exchange argZero s) fun s => (.ok, classOfOcr s)
  else (.ok, s)

/-- Step 6 (R246): the transfer clock. -/
def initStep6 (s : State) : Code × State := (.ok, setClock .clkTransfer (atStep 6 s))

/-- Step 7 (R247): CID first, then CSD. -/
def initStep7 (s : State) : Code × State :=
  andThen (cmd10Exchange argZero (atStep 7 s)) (cmd9Exchange argZero)

/-- Step 8, version 2 (R248): block size, capacity, and the extra-capacity class. -/
def deriveV2 (s : State) : State :=
  { s with session.blockSize := blockSizeBytes, session.capacityBytes := capacityV2 s.session.csd,
           session.capacityClass := if sdxcThreshold < capacityV2 s.session.csd then .sdxc else s.session.capacityClass }

/-- Step 8, version 1 (R249): block size and capacity. -/
def deriveV1 (s : State) : State :=
  { s with session.blockSize := blockSizeBytes, session.capacityBytes := capacityV1 s.session.csd }

/-- Step 8 (R248, R249): `CMD16` for a version-1 card. Step 3 has set version 1 or 2. -/
def initStep8 (s : State) : Code × State :=
  let s := atStep 8 s
  if s.session.specVersion = .v2 then (.ok, deriveV2 s)
  else andThen (cmd16Exchange argCmd16 s) fun s => (.ok, deriveV1 s)

/-- Step 9 (R250): chip-select released. -/
def initStep9 (s : State) : Code × State := (.ok, csDeassert (atStep 9 s))

/-- `INITIALIZE` (R240): the configuration, then the steps in order. -/
def initializeBody (s : State) : Code × State :=
  andThen (initStep1 (loadConfig s)) fun s =>
    andThen (initStep2 s) fun s =>
      andThen (initStep3 s) fun s =>
        andThen (initStep4 s) fun s =>
          andThen (initStep5 s) fun s =>
            andThen (initStep6 s) fun s =>
              andThen (initStep7 s) fun s =>
                andThen (initStep8 s) initStep9

/-! ### The meanings -/

/-- `CRC7_BUILD` (R131), admitted in every mode (60_exceptions.md R381); it has no operands. -/
def execCrc7Build (s : State) : Result :=
  runOperation { s.operands with op := .crc7Build } true crc7BuildBody s

/-- `INITIALIZE` (R240), admitted in every mode and state; only a running operation forbids it. -/
def execInitialize (transport cs busClockHz : Word) (s : State) : Result :=
  runOperation { s.operands with op := .initSession, cfg := ⟨transport, cs, busClockHz⟩ } true initializeBody s

end Sys2Proof.Machine
end

