-- ==== Sys2Proof/Machine/Tokens.lean ====
section
/-! DEFINITION. The tokens and the data responses as instructions (43_token_data.md R218 to R223). What an operation does
after a token (a payload, a dummy byte, a wait) is the operation's own (45_transfer.md R283 to R286). -/

namespace Sys2Proof.Machine

/-- `TOKEN_START` (R218): sent by `SEND_TOKEN`, received by `WAIT_TOKEN` (log 11). -/
def execTokenStart (dir : TokenDirection) (s : State) : Result :=
  endSequence (match dir with
    | .sent => sendToken tokenStartByte s
    | .received => waitToken tokenStartByte s)

/-- `TOKEN_MULTI_WRITE` (R219): sent only. -/
def execTokenMultiWrite (s : State) : Result := endSequence (sendToken tokenMultiWriteByte s)

/-- `TOKEN_STOP_TRAN` (R220): sent only. -/
def execTokenStopTran (s : State) : Result := endSequence (sendToken tokenStopTranByte s)

/-- The card presents a byte in the next exchange. -/
def presentByte (rx : Byte) (s : State) : State := { s with wire := .byte rx :: s.wire }

/-- A data-response byte: bits 7:5 ignored, the code below (30_encoding.md R101). -/
def responseByte (ignored : BitVec 3) (code : BitVec 5) : Byte := ignored ++ code

/-- `DR_ACCEPTED` (R221): the data-response poll reads the byte, then `BUSY_WAIT` (log 12). -/
def execDrAccepted (ignored : BitVec 3) (s : State) : Result :=
  endSequence (dataResponse (presentByte (responseByte ignored drAcceptedCode) s))

/-- `DR_CRC_ERROR` (R222): the data-response poll reads the byte and ends with `E_DATA_CRC` (log 12). -/
def execDrCrcError (ignored : BitVec 3) (s : State) : Result :=
  endSequence (dataResponse (presentByte (responseByte ignored drCrcErrorCode) s))

/-- `DR_WRITE_ERROR` (R223): the data-response poll reads the byte and ends with `E_WRITE_PROGRAM` (log 12). -/
def execDrWriteError (ignored : BitVec 3) (s : State) : Result :=
  endSequence (dataResponse (presentByte (responseByte ignored drWriteErrorCode) s))

end Sys2Proof.Machine
end

