-- ==== Sys2Proof/Machine/Transfer.lean ====
section
/-! DEFINITION. The six transfer operations (45_transfer.md R280 to R294). Each opens with `CsAssert` and ends with
`CsDeassert`, on a failure through the handler (R281). -/

namespace Sys2Proof.Machine

/-- `CsAssert`, then `S.state` (R281, R292). -/
def openTransfer (p : Phase) (s : State) : State := setState p (csAssert s)

/-- The sequencer at a later step of the running operation (10_state.md R45). -/
def nextStep (n : Nat) (s : State) : State := setSeq (.step s.operands.op n) s

/-- `S.state <- Standby`, then `CsDeassert` (R282, R283, R285). -/
def closeTransfer (s : State) : Code × State := (.ok, csDeassert (setState .standby s))

/-- `CsDeassert` alone: `S.state` stays (R289, R291). -/
def closeQuery (s : State) : Code × State := (.ok, csDeassert s)

/-- `READ_BLOCK` (R282). -/
def readBlockBody (s : State) : Code × State :=
  let s := openTransfer .receiving s
  andThen (cmd17Exchange (xlate s.session s.operands.addr) (nextStep 2 s)) fun s => closeTransfer (nextStep 3 s)

/-- `READ_MULTIPLE_BLOCK` (R283): the blocks, then `CMD12` and the drain (R284). No status is read. -/
def readMultipleBlockBody (s : State) : Code × State :=
  let s := openTransfer .receiving s
  andThen (cmd18Exchange (xlate s.session s.operands.addr) (nextStep 2 s)) fun s =>
    andThen (cmd12Exchange argZero (nextStep 3 s)) fun s => closeTransfer (nextStep 4 s)

/-- What a write does when the card rejects a block (R285, R286): a diagnostic sequence whose result is ignored; the original
code stays (60_exceptions.md R373). -/
def onRejected (diagnose : State → State) (r : Code × State) : Code × State :=
  match r with
  | (.dataCrc, s) => (.dataCrc, diagnose s)
  | (.writeProgram, s) => (.writeProgram, diagnose s)
  | r => r

/-- The status read before a failed single write is reported (R285). -/
def diagnoseWrite (s : State) : State := (statusSeq s).2

/-- `WRITE_BLOCK` (R285). -/
def writeBlockBody (s : State) : Code × State :=
  let s := openTransfer .sending s
  andThen (onRejected diagnoseWrite (cmd24Exchange (xlate s.session s.operands.addr) (nextStep 2 s)))
    fun s => closeTransfer (nextStep 3 s)

/-- `MULTI_WRITE_RECOVERY` (R287): `CMD12` at once, then, when it got its R1, the written-block count. -/
def multiWriteRecovery (s : State) : State :=
  match cmd12Exchange argZero s with
  | (.ok, s) => (wbcSeq s).2
  | (_, s) => s

/-- The end of a multi-block write all of whose blocks were accepted (R286): stop token, dummy byte, busy wait, `Standby`,
status. -/
def stopWrite (s : State) : Code × State :=
  andThen (sendToken tokenStopTranByte s) fun s =>
    andThen (sendDummies 1 s) fun s =>
      andThen (busyWait s) fun s =>
        andThen (statusSeq (setState .standby s)) closeQuery

/-- `WRITE_MULTIPLE_BLOCK` (R286). -/
def writeMultipleBlockBody (s : State) : Code × State :=
  let s := openTransfer .sending s
  andThen (onRejected multiWriteRecovery (cmd25Exchange (xlate s.session s.operands.addr) (nextStep 2 s)))
    fun s => stopWrite (nextStep 3 s)

/-- `READ_STATUS` (R289). -/
def readStatusBody (s : State) : Code × State := andThen (statusSeq (csAssert s)) closeQuery

/-- `GET_WRITTEN_BLOCK_COUNT` (R291). -/
def getWrittenBlockCountBody (s : State) : Code × State := andThen (wbcSeq (csAssert s)) closeQuery

/-! ### The meanings -/

/-- `READ_BLOCK` (R282). -/
def execReadBlock (addr buf : Word) (s : State) : Result :=
  runOperation { s.operands with op := .readBlock, addr := addr, buf := buf } (blockReady 1 s) readBlockBody s

/-- `WRITE_BLOCK` (R285). -/
def execWriteBlock (addr buf : Word) (s : State) : Result :=
  runOperation { s.operands with op := .writeBlock, addr := addr, buf := buf } (blockReady 1 s) writeBlockBody s

/-- `READ_MULTIPLE_BLOCK` (R283). -/
def execReadMultipleBlock (addr buf count : Word) (s : State) : Result :=
  runOperation { s.operands with op := .readMultipleBlock, addr := addr, buf := buf, count := count }
    (blockReady count.toNat s) readMultipleBlockBody s

/-- `WRITE_MULTIPLE_BLOCK` (R286). -/
def execWriteMultipleBlock (addr buf count : Word) (s : State) : Result :=
  runOperation { s.operands with op := .writeMultipleBlock, addr := addr, buf := buf, count := count }
    (blockReady count.toNat s) writeMultipleBlockBody s

/-- `READ_STATUS` (R289). -/
def execReadStatus (s : State) : Result :=
  runOperation { s.operands with op := .readStatus } (commandReady s) readStatusBody s

/-- `GET_WRITTEN_BLOCK_COUNT` (R291). -/
def execGetWrittenBlockCount (s : State) : Result :=
  runOperation { s.operands with op := .getWrittenBlockCount } (commandReady s) getWrittenBlockCountBody s

end Sys2Proof.Machine
end

