-- ==== Sys2Proof/Machine/Dispatch.lean ====
section
/-! DEFINITION. One arm per instruction. -/

namespace Sys2Proof.Machine

def exec (i : Instr) (s : State) : Host.Outcome State Fault Refusal :=
  match i with
  | .cmd0 arg _ => Sys2Proof.Machine.execCmd0 arg s
  | .cmd8 arg _ => Sys2Proof.Machine.execCmd8 arg s
  | .cmd9 arg _ => Sys2Proof.Machine.execCmd9 arg s
  | .cmd10 arg _ => Sys2Proof.Machine.execCmd10 arg s
  | .cmd12 arg _ => Sys2Proof.Machine.execCmd12 arg s
  | .cmd13 arg _ => Sys2Proof.Machine.execCmd13 arg s
  | .cmd16 arg _ => Sys2Proof.Machine.execCmd16 arg s
  | .cmd17 arg _ => Sys2Proof.Machine.execCmd17 arg s
  | .cmd18 arg _ => Sys2Proof.Machine.execCmd18 arg s
  | .cmd24 arg _ => Sys2Proof.Machine.execCmd24 arg s
  | .cmd25 arg _ => Sys2Proof.Machine.execCmd25 arg s
  | .cmd55 arg _ => Sys2Proof.Machine.execCmd55 arg s
  | .cmd58 arg _ => Sys2Proof.Machine.execCmd58 arg s
  | .acmd22 arg _ => Sys2Proof.Machine.execAcmd22 arg s
  | .acmd41 arg _ => Sys2Proof.Machine.execAcmd41 arg s
  | .tokenStart dir => Sys2Proof.Machine.execTokenStart dir s
  | .tokenMultiWrite => Sys2Proof.Machine.execTokenMultiWrite s
  | .tokenStopTran => Sys2Proof.Machine.execTokenStopTran s
  | .drAccepted ignored => Sys2Proof.Machine.execDrAccepted ignored s
  | .drCrcError ignored => Sys2Proof.Machine.execDrCrcError ignored s
  | .drWriteError ignored => Sys2Proof.Machine.execDrWriteError ignored s
  | .crc7Build => Sys2Proof.Machine.execCrc7Build s
  | .initializeOp transport cs busClockHz => Sys2Proof.Machine.execInitialize transport cs busClockHz s
  | .readBlock addr buf => Sys2Proof.Machine.execReadBlock addr buf s
  | .writeBlock addr buf => Sys2Proof.Machine.execWriteBlock addr buf s
  | .readMultipleBlock addr buf count => Sys2Proof.Machine.execReadMultipleBlock addr buf count s
  | .writeMultipleBlock addr buf count => Sys2Proof.Machine.execWriteMultipleBlock addr buf count s
  | .readStatus => Sys2Proof.Machine.execReadStatus s
  | .getWrittenBlockCount => Sys2Proof.Machine.execGetWrittenBlockCount s

end Sys2Proof.Machine
end

