-- ==== Sys2Proof/WellFormed.lean ====
section
/-! DEFINITION. Which instructions the engine itself can emit: a frame carries the argument its command has
(30_encoding.md R103) and the CRC7 of its first five bytes (R94). Tokens, data responses and host operations are
well-formed with every operand. -/

namespace Sys2Proof

/-- The CRC7 field is the CRC7 of bytes 0 to 4 (R94). -/
def frameCrcOk (index : BitVec 6) (arg : Word) (crc : BitVec 7) : Bool :=
  crc == Machine.crc7Bitwise (Machine.frameHead index arg)

/-- The checks: the argument of R103, and the CRC7 of R94. -/
def Instr.wellFormed : Instr → Bool
  | .cmd0 arg crc => arg == 0#32 && frameCrcOk 0 arg crc
  | .cmd8 arg crc => arg == 0x1AA#32 && frameCrcOk 8 arg crc
  | .cmd9 arg crc => arg == 0#32 && frameCrcOk 9 arg crc
  | .cmd10 arg crc => arg == 0#32 && frameCrcOk 10 arg crc
  | .cmd12 arg crc => arg == 0#32 && frameCrcOk 12 arg crc
  | .cmd13 arg crc => arg == 0#32 && frameCrcOk 13 arg crc
  | .cmd16 arg crc => arg == 0x200#32 && frameCrcOk 16 arg crc
  | .cmd17 arg crc => frameCrcOk 17 arg crc
  | .cmd18 arg crc => frameCrcOk 18 arg crc
  | .cmd24 arg crc => frameCrcOk 24 arg crc
  | .cmd25 arg crc => frameCrcOk 25 arg crc
  | .cmd55 arg crc => arg == 0#32 && frameCrcOk 55 arg crc
  | .cmd58 arg crc => arg == 0#32 && frameCrcOk 58 arg crc
  | .acmd22 arg crc => arg == 0#32 && frameCrcOk 22 arg crc
  | .acmd41 arg crc => (arg == 0#32 || arg == 0x40000000#32) && frameCrcOk 41 arg crc
  | .tokenStart _ | .tokenMultiWrite | .tokenStopTran => true
  | .drAccepted _ | .drCrcError _ | .drWriteError _ => true
  | .crc7Build | .initializeOp _ _ _ | .readBlock _ _ | .writeBlock _ _ => true
  | .readMultipleBlock _ _ _ | .writeMultipleBlock _ _ _ | .readStatus | .getWrittenBlockCount => true

end Sys2Proof
end

