-- ==== Sys2Proof/Decode.lean ====
section
/-! DEFINITION. The decoder, total on any bytes and rejecting by name, and the encoder (30_encoding.md R91, R92, R99, R101,
R104, R118). A frame and the operands of a host operation are big-endian; the operand bytes are the model's (log 8). -/

namespace Sys2Proof

/-! ### Decoding -/

/-- A big-endian 32-bit operand at the head of a byte string. -/
def takeWord : List Byte → Option (Word × List Byte)
  | a :: b :: c :: d :: rest => some ((a ++ b ++ c ++ d : Word), rest)
  | _ => none

/-- The fifteen commands by `cmdIndex` (R92, R104). -/
def commandOfIndex (index : BitVec 6) (arg : Word) (crc : BitVec 7) : Option Instr :=
  match index.toNat with
  | 0 => some (.cmd0 arg crc)
  | 8 => some (.cmd8 arg crc)
  | 9 => some (.cmd9 arg crc)
  | 10 => some (.cmd10 arg crc)
  | 12 => some (.cmd12 arg crc)
  | 13 => some (.cmd13 arg crc)
  | 16 => some (.cmd16 arg crc)
  | 17 => some (.cmd17 arg crc)
  | 18 => some (.cmd18 arg crc)
  | 22 => some (.acmd22 arg crc)
  | 24 => some (.cmd24 arg crc)
  | 25 => some (.cmd25 arg crc)
  | 41 => some (.acmd41 arg crc)
  | 55 => some (.cmd55 arg crc)
  | 58 => some (.cmd58 arg crc)
  | _ => none

/-- A command frame (R91): start and transmission bits `01`, index, argument, CRC7, stop bit 1. -/
def decodeFrame : List Byte → Decoded
  | b0 :: b1 :: b2 :: b3 :: b4 :: b5 :: rest =>
    if b5.getLsbD 0 then
      match commandOfIndex (b0.setWidth 6) (b1 ++ b2 ++ b3 ++ b4) (b5.extractLsb' 1 7) with
      | some i => .instr i rest
      | none => .reject .unknownCommand
    else .reject .stopBitClear
  | _ => .reject .truncated

/-- What travels to the card: a frame when the top two bits are `01` (R91), else a token (R99). -/
def decodeToCard : List Byte → Decoded
  | [] => .reject .truncated
  | b :: rest =>
    if b.extractLsb' 6 2 = 0b01#2 then decodeFrame (b :: rest)
    else if b = 0xFE#8 then .instr (.tokenStart .sent) rest
    else if b = 0xFC#8 then .instr .tokenMultiWrite rest
    else if b = 0xFD#8 then .instr .tokenStopTran rest
    else .reject .noFrameNoToken

/-- What comes from the card: the start token (R99, all 8 bits) or a data response (R101, low 5 bits). -/
def decodeFromCard : List Byte → Decoded
  | [] => .reject .truncated
  | b :: rest =>
    if b = 0xFE#8 then .instr (.tokenStart .received) rest
    else if Machine.dataResponseCode b = Machine.drAcceptedCode then .instr (.drAccepted (b.extractLsb' 5 3)) rest
    else if Machine.dataResponseCode b = Machine.drCrcErrorCode then .instr (.drCrcError (b.extractLsb' 5 3)) rest
    else if Machine.dataResponseCode b = Machine.drWriteErrorCode then .instr (.drWriteError (b.extractLsb' 5 3)) rest
    else .reject .noTokenNoResponse

/-- Two operand words in a row. -/
def decodeTwo (f : Word → Word → Instr) (bytes : List Byte) : Decoded :=
  match takeWord bytes with
  | none => .reject .truncated
  | some (a, rest) =>
    match takeWord rest with
    | none => .reject .truncated
    | some (b, rest) => .instr (f a b) rest

/-- Three operand words in a row. -/
def decodeThree (f : Word → Word → Word → Instr) (bytes : List Byte) : Decoded :=
  match takeWord bytes with
  | none => .reject .truncated
  | some (a, rest) =>
    match takeWord rest with
    | none => .reject .truncated
    | some (b, rest) =>
      match takeWord rest with
      | none => .reject .truncated
      | some (c, rest) => .instr (f a b c) rest

/-- A host operation: the code of R118, then its operands in the order R118 lists them. -/
def decodeHost : List Byte → Decoded
  | [] => .reject .truncated
  | code :: rest =>
    match code.toNat with
    | 0 => .instr .crc7Build rest
    | 1 => decodeThree .initializeOp rest
    | 2 => decodeTwo .readBlock rest
    | 3 => decodeTwo .writeBlock rest
    | 4 => decodeThree .readMultipleBlock rest
    | 5 => decodeThree .writeMultipleBlock rest
    | 6 => .instr .readStatus rest
    | 7 => .instr .getWrittenBlockCount rest
    | _ => .reject .unknownOperation

/-- The decoder: one item, by the way it travels (R90). -/
def decode (r : Request) : Decoded :=
  match r.lane with
  | .hostToEngine => decodeHost r.bytes
  | .engineToCard => decodeToCard r.bytes
  | .cardToEngine => decodeFromCard r.bytes

/-! ### Encoding -/

/-- The four bytes of a word, big-endian (20_memory.md R62). -/
def wordBytes (w : Word) : List Byte :=
  [w.extractLsb' 24 8, w.extractLsb' 16 8, w.extractLsb' 8 8, w.extractLsb' 0 8]

/-- A frame to the card (R91). -/
def encodeFrame (index : BitVec 6) (arg : Word) (crc : BitVec 7) : Request :=
  ⟨.engineToCard, (0b01#2 ++ index : Byte) :: wordBytes arg ++ [(crc ++ 1#1 : Byte)]⟩

/-- A data response of the card (R101). -/
def encodeResponse (ignored : BitVec 3) (code : BitVec 5) : Request :=
  ⟨.cardToEngine, [(ignored ++ code : Byte)]⟩

/-- A host operation (R118). -/
def encodeHost (code : Byte) (operands : List Word) : Request :=
  ⟨.hostToEngine, code :: operands.flatMap wordBytes⟩

/-- The encoder: the words of an instruction, from the same tables of the spec. -/
def encode : Instr → Request
  | .cmd0 arg crc => encodeFrame 0 arg crc
  | .cmd8 arg crc => encodeFrame 8 arg crc
  | .cmd9 arg crc => encodeFrame 9 arg crc
  | .cmd10 arg crc => encodeFrame 10 arg crc
  | .cmd12 arg crc => encodeFrame 12 arg crc
  | .cmd13 arg crc => encodeFrame 13 arg crc
  | .cmd16 arg crc => encodeFrame 16 arg crc
  | .cmd17 arg crc => encodeFrame 17 arg crc
  | .cmd18 arg crc => encodeFrame 18 arg crc
  | .cmd24 arg crc => encodeFrame 24 arg crc
  | .cmd25 arg crc => encodeFrame 25 arg crc
  | .cmd55 arg crc => encodeFrame 55 arg crc
  | .cmd58 arg crc => encodeFrame 58 arg crc
  | .acmd22 arg crc => encodeFrame 22 arg crc
  | .acmd41 arg crc => encodeFrame 41 arg crc
  | .tokenStart .sent => ⟨.engineToCard, [0xFE#8]⟩
  | .tokenStart .received => ⟨.cardToEngine, [0xFE#8]⟩
  | .tokenMultiWrite => ⟨.engineToCard, [0xFC#8]⟩
  | .tokenStopTran => ⟨.engineToCard, [0xFD#8]⟩
  | .drAccepted ignored => encodeResponse ignored Machine.drAcceptedCode
  | .drCrcError ignored => encodeResponse ignored Machine.drCrcErrorCode
  | .drWriteError ignored => encodeResponse ignored Machine.drWriteErrorCode
  | .crc7Build => encodeHost 0 []
  | .initializeOp transport cs busClockHz => encodeHost 1 [transport, cs, busClockHz]
  | .readBlock addr buf => encodeHost 2 [addr, buf]
  | .writeBlock addr buf => encodeHost 3 [addr, buf]
  | .readMultipleBlock addr buf count => encodeHost 4 [addr, buf, count]
  | .writeMultipleBlock addr buf count => encodeHost 5 [addr, buf, count]
  | .readStatus => encodeHost 6 []
  | .getWrittenBlockCount => encodeHost 7 []

/-! ### The opcode table's numbering -/

/-- The `n` bytes of a number, the most significant first: the table numbers a frame as one 48-bit number whose bit 47 is the
first on the wire (R91; log 8). -/
def bytesOfNumber : Nat → Nat → List Byte
  | 0, _ => []
  | n + 1, w => BitVec.ofNat 8 (w >>> (8 * n)) :: bytesOfNumber n w

/-- The item an opcode-table word stands for: a frame of 48 bits; of the 8-bit rows, a host operation for 0 to 7 (with operand
words of zeros), a token to the card for `0xFC` to `0xFE`, else a byte from the card (log 8 for the one word, `0x05`, that two
rows share). -/
def tableRequest (nbits w : Nat) : Request :=
  if nbits = 8 then
    if w < 8 then ⟨.hostToEngine, bytesOfNumber 1 w ++ List.replicate 12 0#8⟩
    else if w = 0xFC ∨ w = 0xFD ∨ w = 0xFE then ⟨.engineToCard, bytesOfNumber 1 w⟩
    else ⟨.cardToEngine, bytesOfNumber 1 w⟩
  else ⟨.engineToCard, bytesOfNumber (nbits / 8) w⟩

/-- The instruction the decoder reads from a word of the opcode table. -/
def decodeTableWord (nbits w : Nat) : Option Instr :=
  match decode (tableRequest nbits w) with
  | .instr i _ => some i
  | .reject _ => none

end Sys2Proof
end

