-- ==== Sys2Proof/Machine/Fetch.lean ====
section
/-! DEFINITION. Where the next item comes from: the queue `pending` (log 9), and what the engine does with an item that is no
instruction (30_encoding.md R110, R119). -/

namespace Sys2Proof.Machine

/-- The state once the item at the head of the queue was taken. -/
def takeItem (rest : List Request) (s : State) : State := { s with pending := rest }

/-- An item that does not decode: an operation code outside 0 to 7 completes at once with `E_REFUSED` (R119); any other item
is refused by name. -/
def rejectItem (e : DecodeError) (s : State) : Result :=
  match e with
  | .unknownOperation => .next (refuse s)
  | e => .refused (.noEncoding e)

/-- An item placed at the head of the queue. -/
def placeItem (r : Request) (s : State) : State := { s with pending := r :: s.pending }

end Sys2Proof.Machine
end

