-- ==== Sys2Proof/Machine/Step.lean ====
section
/-! DEFINITION. One step: take the item at the head of the queue, decode it, run it. An engine nobody started is idle and
stays as it is (10_state.md R45, 70_reset_and_hazards.md R411). -/

namespace Sys2Proof.Machine

/-- One step of the machine (log 1, log 9). -/
def step (s : State) : Host.Outcome State Fault Refusal :=
  match s.pending with
  | [] => .next s
  | r :: rest =>
    match decode r with
    | .instr i _ => exec i (takeItem rest s)
    | .reject e => rejectItem e (takeItem rest s)

/-- The state with the item of an opcode-table word at the head of the queue (log 8). -/
def State.withFetchWord (s : State) (nbits w : Nat) : State := placeItem (tableRequest nbits w) s

end Sys2Proof.Machine
end

