-- ==== Sys2Proof/Machine/RegisterDecoder.lean ====
section
/-! DEFINITION. The host-visible register decoders (46_register_decoder.md R330, R338 to R342): pure functions of the
snapshots, which write nothing and cannot fail. Reserved bits appear in no field (R330). -/

namespace Sys2Proof.Machine

/-- The 128-bit register of a snapshot: byte 0 is bits 127:120 (R331). -/
def snapshotBits (q : Vector Byte 16) : BitVec 128 :=
  q[0] ++ q[1] ++ q[2] ++ q[3] ++ q[4] ++ q[5] ++ q[6] ++ q[7] ++ q[8] ++ q[9] ++ q[10] ++ q[11] ++ q[12] ++ q[13] ++
    q[14] ++ q[15]

/-- The 32-bit OCR: byte 0 is bits 31:24 (R331). -/
def ocrBits (q : Vector Byte 4) : BitVec 32 := q[0] ++ q[1] ++ q[2] ++ q[3]

/-- The fields of the OCR (R338). -/
structure OcrFields where
  powerUpStatus : Bool
  ccs : Bool
  uhs2Status : Bool
  s18a : Bool
  vddWindow : BitVec 9
  lowVoltage : Bool
  deriving DecidableEq, Repr

/-- `DECODE_OCR` (R338). -/
def decodeOcr (ocr : Vector Byte 4) : OcrFields :=
  let q := ocrBits ocr
  { powerUpStatus := q.getLsbD 31, ccs := q.getLsbD 30, uhs2Status := q.getLsbD 29, s18a := q.getLsbD 24,
    vddWindow := q.extractLsb' 15 9, lowVoltage := q.getLsbD 7 }

/-- The fields of the CID (R339). -/
structure CidFields where
  mid : BitVec 8
  oid : BitVec 16
  pnm : BitVec 40
  prv : BitVec 8
  psn : BitVec 32
  mdt : BitVec 12
  crc : BitVec 7
  deriving DecidableEq, Repr

/-- `DECODE_CID` (R339). -/
def decodeCid (cid : Vector Byte 16) : CidFields :=
  let q := snapshotBits cid
  { mid := q.extractLsb' 120 8, oid := q.extractLsb' 104 16, pnm := q.extractLsb' 64 40, prv := q.extractLsb' 56 8,
    psn := q.extractLsb' 24 32, mdt := q.extractLsb' 8 12, crc := q.extractLsb' 1 7 }

/-- The fields both CSD variants have (R340, R341). -/
structure CsdCommon where
  csdStructure : BitVec 2
  taac : BitVec 8
  nsac : BitVec 8
  tranSpeed : BitVec 8
  ccc : BitVec 12
  readBlLen : BitVec 4
  readBlPartial : Bool
  writeBlkMisalign : Bool
  readBlkMisalign : Bool
  dsrImp : Bool
  eraseBlkEn : Bool
  sectorSize : BitVec 7
  wpGrpSize : BitVec 7
  wpGrpEnable : Bool
  r2wFactor : BitVec 3
  writeBlLen : BitVec 4
  writeBlPartial : Bool
  fileFormatGrp : Bool
  copy : Bool
  permWriteProtect : Bool
  tmpWriteProtect : Bool
  fileFormat : BitVec 2
  crc : BitVec 7
  deriving DecidableEq, Repr

/-- The common fields at their bits (R340). -/
def decodeCsdCommon (csd : Vector Byte 16) : CsdCommon :=
  let q := snapshotBits csd
  { csdStructure := q.extractLsb' 126 2, taac := q.extractLsb' 112 8, nsac := q.extractLsb' 104 8,
    tranSpeed := q.extractLsb' 96 8, ccc := q.extractLsb' 84 12, readBlLen := q.extractLsb' 80 4,
    readBlPartial := q.getLsbD 79, writeBlkMisalign := q.getLsbD 78, readBlkMisalign := q.getLsbD 77,
    dsrImp := q.getLsbD 76, eraseBlkEn := q.getLsbD 46, sectorSize := q.extractLsb' 39 7, wpGrpSize := q.extractLsb' 32 7,
    wpGrpEnable := q.getLsbD 31, r2wFactor := q.extractLsb' 26 3, writeBlLen := q.extractLsb' 22 4,
    writeBlPartial := q.getLsbD 21, fileFormatGrp := q.getLsbD 15, copy := q.getLsbD 14, permWriteProtect := q.getLsbD 13,
    tmpWriteProtect := q.getLsbD 12, fileFormat := q.extractLsb' 10 2, crc := q.extractLsb' 1 7 }

/-- The record of a version-1 CSD (R340). -/
structure CsdV1Fields where
  common : CsdCommon
  cSize : BitVec 12
  vddRCurrMin : BitVec 3
  vddRCurrMax : BitVec 3
  vddWCurrMin : BitVec 3
  vddWCurrMax : BitVec 3
  cSizeMult : BitVec 3
  capacityBytes : Wide
  blockSize : Word
  deriving DecidableEq, Repr

/-- The record of a version-2 CSD (R341). -/
structure CsdV2Fields where
  common : CsdCommon
  cSize : BitVec 22
  capacityBytes : Wide
  blockSize : Word
  deriving DecidableEq, Repr

/-- `DECODE_CSD_V1` (R340). -/
def decodeCsdV1 (csd : Vector Byte 16) : CsdV1Fields :=
  let q := snapshotBits csd
  { common := decodeCsdCommon csd, cSize := q.extractLsb' 62 12, vddRCurrMin := q.extractLsb' 59 3,
    vddRCurrMax := q.extractLsb' 56 3, vddWCurrMin := q.extractLsb' 53 3, vddWCurrMax := q.extractLsb' 50 3,
    cSizeMult := q.extractLsb' 47 3, capacityBytes := capacityV1 csd, blockSize := blockSizeBytes }

/-- `DECODE_CSD_V2` (R341). -/
def decodeCsdV2 (csd : Vector Byte 16) : CsdV2Fields :=
  let q := snapshotBits csd
  { common := decodeCsdCommon csd, cSize := q.extractLsb' 48 22, capacityBytes := capacityV2 csd,
    blockSize := blockSizeBytes }

/-- What `DECODE_CSD` returns. -/
inductive CsdFields where
  | v1 (fields : CsdV1Fields)
  | v2 (fields : CsdV2Fields)
  deriving DecidableEq, Repr

/-- `DECODE_CSD` (R342): the variant is chosen by the session's `specVersion` alone; refused while it is undetermined. -/
def decodeCsd (s : Session) : Option CsdFields :=
  match s.specVersion with
  | .undetermined => none
  | .v1 => some (.v1 (decodeCsdV1 s.csd))
  | .v2 => some (.v2 (decodeCsdV2 s.csd))

end Sys2Proof.Machine
end

