-- ==== Sys2Proof/Safety.lean ====
section
/-! DEFINITION. The terms claims use: the invariant of the engine between operations, the host's duties, what a card answers
to a command or with a packet, and what the engine sends meanwhile. -/

namespace Sys2Proof.Machine

/-! ### The invariant and the host's duties -/

/-- The table is there and is the table of 40_crc7.md R136. -/
def State.tableReady (s : State) : Prop := s.tableValid = true ∧ s.table = crc7Table

/-- A session no transfer may use (10_state.md R34 d). -/
def State.unusable (s : State) : Prop := s.session.mode = .inactive ∧ s.session.state = .inactive

/-- A session a successful `INITIALIZE` left (10_state.md R34 b, e; 44_init.md R250; 45_transfer.md R280). -/
def State.usable (s : State) : Prop :=
  s.session.mode = .transfer ∧ s.session.state = .standby ∧ s.session.blockSize = blockSizeBytes ∧
    s.session.specVersion ≠ .undetermined ∧ (s.session.specVersion = .v1 → s.session.capacityClass = .sdsc) ∧
    s.tableValid = true ∧ s.clockProfile = .clkTransfer ∧ s.csLevel = .deasserted

/-- The engine between operations (10_state.md R34, R35, R45; the canonical form of the host's memory is the model's). -/
def State.inv (s : State) : Prop :=
  Memory.wf s.mem = true ∧ s.seq = .idleSeq ∧ (s.unusable ∨ s.usable) ∧ (s.tableValid = true → s.table = crc7Table)

/-- The host's duty on a block address (20_memory.md R69, 70_reset_and_hazards.md R414 g). -/
def State.addressDuty (s : State) (addr : Word) : Prop :=
  s.session.capacityClass = .sdsc → addr.toNat * s.session.blockSize.toNat < 2 ^ 32

/-! ### The wire -/

/-- Bytes as answers of the environment. -/
def answers (bytes : List Byte) : List WireAnswer := bytes.map .byte

/-- Exchanges, the oldest first (00_scope.md R15). -/
def transcript (tx rx : List Byte) : List Event := List.zipWith .exchange tx rx

/-- Exchanges in which the engine sends `FILL` (60_exceptions.md R391). -/
def received (bytes : List Byte) : List Event := transcript (List.replicate bytes.length fill) bytes

/-- An exchange of a byte, answered or failed. -/
def Event.isExchange : Event → Bool
  | .exchange _ _ | .failedExchange _ => true
  | .csAssert | .csDeassert | .setClock _ | .buildTable => false

/-- The six bytes of a command (30_encoding.md R91 to R94), its CRC7 the bit-by-bit one (40_crc7.md R132). -/
def commandFrame (cmd : BitVec 6) (arg : Word) : List Byte :=
  frameHead cmd arg ++ [frameCheckByte (crc7Bitwise (frameHead cmd arg))]

/-- The same bytes as the frame register holds them (10_state.md R36). -/
def frameOf (cmd : BitVec 6) (arg : Word) : Vector Byte 6 :=
  frameBytes cmd arg (frameCheckByte (crc7Bitwise (frameHead cmd arg)))

/-- What the card presents during a command: six bytes nobody looks at, bytes that are no R1, and the R1. -/
structure CommandAnswer where
  dropped : List Byte
  pads : List Byte
  r1 : Byte
  deriving DecidableEq, Repr

/-- The bytes in order. -/
def CommandAnswer.bytes (a : CommandAnswer) : List Byte := a.dropped ++ a.pads ++ [a.r1]

/-- The R1 arrives within ten reads (42_command_response.md R171). -/
def CommandAnswer.ok (a : CommandAnswer) : Bool :=
  a.dropped.length == 6 && decide (a.pads.length < r1Tries) && a.pads.all (fun b => !isR1 b) && isR1 a.r1

/-- What the command ends with when the R1 it expects is `exp` (42_command_response.md R172). -/
def CommandAnswer.code (a : CommandAnswer) (exp : Byte) : Code := if a.r1 = exp then .ok else .unexpectedR1

/-- The events of one answered command (R170, R171). -/
def CommandAnswer.events (a : CommandAnswer) (cmd : BitVec 6) (arg : Word) : List Event :=
  transcript (commandFrame cmd arg) a.dropped ++ received (a.pads ++ [a.r1])

/-- The state when a command that is a whole instruction was answered, with the code the instruction ends with. -/
def commanded (s : State) (a : CommandAnswer) (cmd : BitVec 6) (arg : Word) (rest : List WireAnswer) (code : Code) : State :=
  { s with
    session.lastR1 := a.r1
    work := { s.work with fr := frameOf cmd arg, tries := a.pads.length + 1, seqResult := code }
    wire := rest
    trace := (a.events cmd arg).reverse ++ s.trace }

/-- What the card presents with a data packet (30_encoding.md R100): padding, the start token, the payload, a CRC16 word. -/
structure PacketAnswer where
  pads : List Byte
  payload : List Byte
  crc : Half
  deriving DecidableEq, Repr

/-- A CRC16 word on the wire, high byte first (20_memory.md R66). -/
def crcBytes (c : Half) : List Byte := [c.extractLsb' 8 8, c.extractLsb' 0 8]

/-- The bytes in order. -/
def PacketAnswer.bytes (p : PacketAnswer) : List Byte := p.pads ++ [tokenStartByte] ++ p.payload ++ crcBytes p.crc

/-- The token arrives within a hundred reads (43_token_data.md R211) and the payload has the length. -/
def PacketAnswer.ok (p : PacketAnswer) (rule : TokenRule) (n : Nat) : Bool :=
  decide (p.pads.length < tokenTries) && p.pads.all (fun b => !tokenMatch rule b tokenStartByte) && p.payload.length == n

/-- The CRC16 word is that of the payload (41_crc16.md R151, R157). -/
def PacketAnswer.good (p : PacketAnswer) : Bool := p.crc == crc16 p.payload

/-- What the receiver of the packet ends with (R157, 43_token_data.md R213). -/
def PacketAnswer.code (p : PacketAnswer) : Code := if p.good then .ok else .dataCrc

/-- The working registers after a token wait and a packet (R211, R157). -/
def Work.afterPacket (w : Work) (p : PacketAnswer) : Work :=
  { w with tries := p.pads.length + 1, crcRx := crc16 p.payload, crcErr := !p.good, k := p.payload.length }

/-- The working registers after the packets of a multi-block read, from block `i` on (45_transfer.md R283). -/
def Work.afterBlocks : List PacketAnswer → Nat → Work → Work
  | [], _, w => w
  | p :: packets, i, w => Work.afterBlocks packets (i + 1) (Work.afterPacket { w with i := i } p)

/-- A data packet to the card (30_encoding.md R100). -/
def dataPacket (token : Byte) (payload : List Byte) : List Byte := token :: payload ++ crcBytes (crc16 payload)

/-- What the card presents while a packet is written: bytes nobody looks at, bytes that are no data response, the accepting
response, busy bytes (43_token_data.md R214 to R216). -/
structure WriteAnswer where
  dropped : List Byte
  pads : List Byte
  ignored : BitVec 3
  busy : List Byte
  deriving DecidableEq, Repr

/-- The bytes after the packet: the polls up to the accepting response, then the busy wait. -/
def WriteAnswer.polled (a : WriteAnswer) : List Byte :=
  a.pads ++ [responseByte a.ignored drAcceptedCode] ++ a.busy ++ [0xFF#8]

/-- The bytes in order. -/
def WriteAnswer.bytes (a : WriteAnswer) : List Byte := a.dropped ++ a.polled

/-- A card that accepts a payload of `n` bytes (token, payload and CRC16 are `n + 3` exchanges). -/
def WriteAnswer.ok (a : WriteAnswer) (n : Nat) : Bool :=
  a.dropped.length == n + 3 && a.pads.all (fun b => acceptDataResponse b == none) && a.busy.all (fun b => b != 0xFF#8)

/-- The timer queries of a written packet: one for each poll that is no answer (R217). -/
def WriteAnswer.queries (a : WriteAnswer) : Nat := a.pads.length + a.busy.length

/-- The events of one written packet. -/
def WriteAnswer.events (a : WriteAnswer) (token : Byte) (payload : List Byte) : List Event :=
  transcript (dataPacket token payload) a.dropped ++ received a.polled

/-- What the card presents while it rejects a written packet: bytes nobody looks at, bytes that are no data response, and the
rejecting response (43_token_data.md R214, R215). -/
structure Rejection where
  dropped : List Byte
  pads : List Byte
  response : Byte
  deriving DecidableEq, Repr

/-- The bytes in order. -/
def Rejection.bytes (r : Rejection) : List Byte := r.dropped ++ r.pads ++ [r.response]

/-- A card that rejects a payload of `n` bytes, for its CRC16 or for the write itself. -/
def Rejection.ok (r : Rejection) (n : Nat) : Bool :=
  r.dropped.length == n + 3 && r.pads.all (fun b => acceptDataResponse b == none) &&
    (r.response &&& 0x1F#8 == 0x0B#8 || r.response &&& 0x1F#8 == 0x0D#8)

/-- The code of the data response (R215). -/
def Rejection.code (r : Rejection) : Code := if r.response &&& 0x1F#8 = 0x0B#8 then .dataCrc else .writeProgram

/-- The events of the rejected packet. -/
def Rejection.events (r : Rejection) (token : Byte) (payload : List Byte) : List Event :=
  transcript (dataPacket token payload) r.dropped ++ received (r.pads ++ [r.response])

/-- What the card presents during `MULTI_WRITE_RECOVERY` (45_transfer.md R287), by how far the recovery gets. -/
inductive Recovery where
  /-- `CMD12` gets no R1: six bytes nobody looks at, ten reads. -/
  | noR1 (dropped reads : List Byte)
  /-- `CMD12` gets another R1 than the expected one. -/
  | stopUnexpected (stop : CommandAnswer)
  /-- The prefix of `ACMD22` does. -/
  | appUnexpected (stop app : CommandAnswer)
  /-- `ACMD22` does. -/
  | queryUnexpected (stop app query : CommandAnswer)
  /-- The count arrives, its CRC16 right or wrong. -/
  | counted (stop app query : CommandAnswer) (p : PacketAnswer)
  deriving DecidableEq, Repr

/-- The card answers so. -/
def Recovery.ok (rule : TokenRule) : Recovery → Bool
  | .noR1 dropped reads => dropped.length == 6 && reads.length == r1Tries && reads.all (fun b => !isR1 b)
  | .stopUnexpected stop => stop.ok && stop.r1 != r1Normal
  | .appUnexpected stop app => stop.ok && stop.r1 == r1Normal && app.ok && app.r1 != r1Normal
  | .queryUnexpected stop app query =>
    stop.ok && stop.r1 == r1Normal && app.ok && app.r1 == r1Normal && query.ok && query.r1 != r1Normal
  | .counted stop app query p =>
    stop.ok && stop.r1 == r1Normal && app.ok && app.r1 == r1Normal && query.ok && query.r1 == r1Normal && p.ok rule 4

/-- The bytes in order. -/
def Recovery.bytes : Recovery → List Byte
  | .noR1 dropped reads => dropped ++ reads
  | .stopUnexpected stop => stop.bytes
  | .appUnexpected stop app => stop.bytes ++ app.bytes
  | .queryUnexpected stop app query => stop.bytes ++ app.bytes ++ query.bytes
  | .counted stop app query p => stop.bytes ++ app.bytes ++ query.bytes ++ p.bytes

/-- The events of the recovery. -/
def Recovery.events : Recovery → List Event
  | .noR1 dropped reads => transcript (commandFrame 12 argZero) dropped ++ received reads
  | .stopUnexpected stop => stop.events 12 argZero
  | .appUnexpected stop app => stop.events 12 argZero ++ app.events 55 argZero
  | .queryUnexpected stop app query => stop.events 12 argZero ++ app.events 55 argZero ++ query.events 22 argZero
  | .counted stop app query p =>
    stop.events 12 argZero ++ app.events 55 argZero ++ query.events 22 argZero ++ received p.bytes

/-- `S.lastR1` after the recovery, `old` before it. -/
def Recovery.lastR1 (old : Byte) : Recovery → Byte
  | .noR1 _ _ => old
  | .stopUnexpected stop => stop.r1
  | .appUnexpected _ app => app.r1
  | .queryUnexpected _ _ query => query.r1
  | .counted _ _ _ _ => r1Normal

/-- `S.lastWrittenBlockCount` after the recovery, `old` before it: big-endian, and written only when the query succeeds
(45_transfer.md R290). -/
def Recovery.count (old : Word) : Recovery → Word
  | .counted _ _ _ p =>
    match p.good, p.payload with
    | true, [b0, b1, b2, b3] => b0 ++ b1 ++ b2 ++ b3
    | _, _ => old
  | _ => old

/-- The timestamps a written packet takes (R214): one for the data-response poll, and one for the busy wait unless the
parameter `SHARED_WRITE_BUDGET` is set. -/
def State.stamps (s : State) : Nat := if s.params.sharedWriteBudget then 1 else 2

/-- The working registers after packets were written, from block `i` and timestamp `now` on (R214, 45_transfer.md R286). -/
def Work.afterWrites (stamps : Nat) : List (List Byte) → Nat → Nat → Work → Work
  | [], _, _, w => w
  | payload :: payloads, i, now, w =>
    Work.afterWrites stamps payloads (i + 1) (now + stamps)
      { w with i := i, crcTx := crc16 payload, k := payload.length, t0 := Config.now (now + stamps - 1) }

/-- The payload of block `i` of a write: `S.blockSize` bytes of the host's buffer (20_memory.md R63, R71). -/
def blockPayload (s : State) (buf : Word) (i : Nat) : List Byte :=
  Memory.readBytes s.mem (buf.toNat + i * s.session.blockSize.toNat) s.session.blockSize.toNat

/-- The events of packets written one after another. -/
def writeEvents (token : Byte) (blocks : List WriteAnswer) (payloads : List (List Byte)) : List Event :=
  (List.zipWith (fun a m => a.events token m) blocks payloads).flatten

/-- `n` answers "not elapsed" of the timer: the premise of 70_reset_and_hazards.md R432. -/
def notElapsed (n : Nat) : List Bool := List.replicate n false

/-- The host's memory after a payload was stored from an address on, read byte by byte. -/
def readAfter (m : Memory) (base : Nat) (payload : List Byte) (a : Nat) : Byte :=
  if base ≤ a then payload.getD (a - base) (Memory.read m a) else Memory.read m a

/-- Sixteen payload bytes as a snapshot. -/
def snapshotOf (payload : List Byte) : Vector Byte 16 := Vector.ofFn fun n => payload.getD n 0

/-! ### A whole initialization (44_init.md R253) -/

/-- What a card answers to one issue of `ACMD41`: the prefix, and the command itself when the prefix got `R1_IDLE`
(42_command_response.md R173, R186). -/
structure PollAnswer where
  app : CommandAnswer
  acmd : Option CommandAnswer
  deriving DecidableEq, Repr

/-- Mode `Identification` expects `R1_IDLE` of the prefix; on any other R1 the second frame is not sent. -/
def PollAnswer.ok (p : PollAnswer) : Bool :=
  p.app.ok && (match p.acmd with
    | some b => p.app.r1 == r1Idle && b.ok
    | none => p.app.r1 != r1Idle)

/-- The bytes in order. -/
def PollAnswer.bytes (p : PollAnswer) : List Byte := p.app.bytes ++ (p.acmd.map CommandAnswer.bytes).getD []

/-- The R1 that `S.lastR1` holds after the issue. -/
def PollAnswer.r1 (p : PollAnswer) : Byte := (p.acmd.map CommandAnswer.r1).getD p.app.r1

/-- The events of one issue. -/
def PollAnswer.events (p : PollAnswer) (arg : Word) : List Event :=
  p.app.events 55 argZero ++ (p.acmd.map fun b => b.events 41 arg).getD []

/-- What a card of either version answers to `INITIALIZE`; the rest is the version's own. -/
structure InitAnswer where
  dummies : List Byte
  cmd0 : CommandAnswer
  cmd8 : CommandAnswer
  first : PollAnswer
  rounds : List PollAnswer
  last : PollAnswer
  cmd10 : CommandAnswer
  cid : PacketAnswer
  cmd9 : CommandAnswer
  csd : PacketAnswer
  deriving DecidableEq, Repr

/-- Power-up, `CMD0`, the polls that are not ready yet and the one that is, the packets. -/
def InitAnswer.ok (a : InitAnswer) (rule : TokenRule) : Bool :=
  a.dummies.length == 9 && a.cmd0.ok && a.cmd0.r1 == r1Idle && a.cmd8.ok && a.first.ok &&
    a.rounds.all (fun p => p.ok && p.r1 != r1Normal) && a.last.ok && a.last.r1 == r1Normal &&
    a.cmd10.ok && a.cmd10.r1 == r1Normal && a.cid.ok rule 16 && a.cid.good && a.cmd9.ok && a.cmd9.r1 == r1Normal &&
    a.csd.ok rule 16 && a.csd.good

/-- The bytes up to the R1 of `CMD8`. -/
def InitAnswer.opening (a : InitAnswer) : List Byte := a.dummies ++ a.cmd0.bytes ++ a.cmd8.bytes

/-- The bytes of the readiness poll. -/
def InitAnswer.poll (a : InitAnswer) : List Byte :=
  a.first.bytes ++ a.rounds.flatMap PollAnswer.bytes ++ a.last.bytes

/-- The bytes of the two register reads. -/
def InitAnswer.registers (a : InitAnswer) : List Byte := a.cmd10.bytes ++ a.cid.bytes ++ a.cmd9.bytes ++ a.csd.bytes

/-- The events up to the R1 of `CMD8`. -/
def InitAnswer.openingEvents (a : InitAnswer) : List Event :=
  [.buildTable, .setClock .clkInit, .csDeassert] ++ received a.dummies ++ [.csAssert] ++ a.cmd0.events 0 argZero ++
    a.cmd8.events 8 argCmd8

/-- The events of the readiness poll; only the first argument carries HCS. -/
def InitAnswer.pollEvents (a : InitAnswer) (firstArg : Word) : List Event :=
  a.first.events firstArg ++ a.rounds.flatMap (PollAnswer.events · argZero) ++ a.last.events argZero

/-- The events of the clock switch and the two register reads. -/
def InitAnswer.registerEvents (a : InitAnswer) : List Event :=
  [.setClock .clkTransfer] ++ a.cmd10.events 10 argZero ++ received a.cid.bytes ++ a.cmd9.events 9 argZero ++
    received a.csd.bytes

end Sys2Proof.Machine
end

