-- ==== Sys2Proof/Certificates/Slice0/Obligations.lean ====
section
/-! DEFINITION. The statements about the engine. In each, `rest` is the part of the environment's script that is not consumed
and `later` the part of the timer's script; a card's answers are the structures of Safety.lean. A statement that gives the
whole next state says with it that every other field is as before. -/

section Statements

open Sys2Proof Sys2Proof.Machine

/-! ### Decoding and stepping -/

/-- A step runs the instruction that the item at the head of the queue decodes to, with only that item taken; an unknown
operation code completes at once with `E_REFUSED` (30_encoding.md R119); any other item is refused by name; an engine nobody
started stays as it is (log 9). -/
def Obligations.StepRunsTheDecodedItem : Prop :=
  (∀ s : State, s.pending = [] → step s = .next s) ∧
  ∀ (s : State) (r : Request) (queue : List Request), s.pending = r :: queue →
    (∀ i more, decode r = .instr i more → step s = exec i { s with pending := queue }) ∧
    (decode r = .reject .unknownOperation → step s = .next { s with pending := queue, res := .refused }) ∧
    (∀ e, e ≠ .unknownOperation → decode r = .reject e → step s = .refused (.noEncoding e))

/-- Words of the spec's encodings decode to the instructions they stand for (30_encoding.md R91, R99, R101, R118; the frames are
those of 42_command_response.md R175, R176, R182, R184, R189). -/
def Obligations.SpecWordsDecode : Prop :=
  decode ⟨.engineToCard, [0x40#8, 0x00#8, 0x00#8, 0x00#8, 0x00#8, 0x95#8]⟩ = .instr (.cmd0 0#32 0x4A#7) [] ∧
  decode ⟨.engineToCard, [0x48#8, 0x00#8, 0x00#8, 0x01#8, 0xAA#8, 0x87#8]⟩ = .instr (.cmd8 0x1AA#32 0x43#7) [] ∧
  decode ⟨.engineToCard, [0x51#8, 0x00#8, 0x00#8, 0x02#8, 0x00#8, 0x79#8]⟩ = .instr (.cmd17 0x200#32 0x3C#7) [] ∧
  decode ⟨.engineToCard, [0x58#8, 0x00#8, 0x00#8, 0x14#8, 0x00#8, 0x45#8]⟩ = .instr (.cmd24 0x1400#32 0x22#7) [] ∧
  decode ⟨.engineToCard, [0x69#8, 0x40#8, 0x00#8, 0x00#8, 0x00#8, 0x77#8]⟩ = .instr (.acmd41 0x40000000#32 0x3B#7) [] ∧
  decode ⟨.engineToCard, [0xFD#8]⟩ = .instr .tokenStopTran [] ∧
  decode ⟨.cardToEngine, [0xE5#8]⟩ = .instr (.drAccepted 0b111#3) [] ∧
  decode ⟨.hostToEngine, [0x07#8]⟩ = .instr .getWrittenBlockCount []

/-- Decoding an encoded instruction gives it back, with every operand at every value and whatever bytes follow. -/
def Obligations.DecodeReadsBackEncode : Prop :=
  ∀ (i : Instr) (more : List Byte), decode ⟨(encode i).lane, (encode i).bytes ++ more⟩ = .instr i more

/-- Nothing but an encoding decodes: an item that decodes to an instruction is that instruction's encoding and the bytes after
it, so no two instructions share an item and no bit of a format is ignored. -/
def Obligations.OnlyEncodingsDecode : Prop :=
  ∀ (r : Request) (i : Instr) (more : List Byte), decode r = .instr i more →
    r = ⟨(encode i).lane, (encode i).bytes ++ more⟩

/-! ### Reset and the invariant -/

/-- The values that reset guarantees (10_state.md R50, 70_reset_and_hazards.md R411). -/
def Obligations.ResetValues : Prop :=
  State.reset.session.mode = .inactive ∧ State.reset.session.state = .inactive ∧
  State.reset.session.capacityClass = .sdsc ∧ State.reset.session.specVersion = .undetermined ∧
  State.reset.tableValid = false ∧ State.reset.seq = .idleSeq

/-- Reset meets the invariant `State.inv`. -/
def Obligations.ResetMeetsTheInvariant : Prop := State.reset.inv

/-- Every step keeps the invariant: the host's memory in canonical form, the sequencer idle, the session either unusable or as
a successful `INITIALIZE` left it (10_state.md R34), a valid table constant (R35). -/
def Obligations.StepKeepsTheInvariant : Prop := ∀ s t : State, s.inv → step s = .next t → t.inv

/-! ### The checksums -/

/-- Every entry of the table that `CRC7_BUILD` writes is the bit-by-bit CRC7 of the one byte that indexes it, and what the
byte-parallel network gives (40_crc7.md R131, R132, R138). -/
def Obligations.Crc7TableEntries : Prop :=
  ∀ x : Byte, crc7Table[x.toFin] = (crc7Bitwise [x]).setWidth 8 ∧ crc7Network x = crc7Bitwise [x]

/-- `CRC7_COMPUTE` over the table is the bit-by-bit CRC7 of every message, and the table is linear (40_crc7.md R134, R136). -/
def Obligations.Crc7ComputeIsBitwise : Prop :=
  (∀ m : List Byte, crc7Fold crc7Table m = crc7Bitwise m) ∧
  ∀ a b : Byte, crc7Entry (a ^^^ b) = crc7Entry a ^^^ crc7Entry b

/-- The word-parallel form on every even payload, and the byte-table form on every byte, equal the bit-serial CRC16
(41_crc16.md R152, R153). -/
def Obligations.Crc16FormsAgree : Prop :=
  (∀ m : List Byte, m.length % 2 = 0 → crc16Words m = crc16 m) ∧
  ∀ (c : Half) (b : Byte), crc16TableStep c b = crc16Byte c b

/-- The properties of CRC16: linearity, the zero residue of a payload with its own CRC16, and that leading zero bytes do not
show (41_crc16.md R154). -/
def Obligations.Crc16Properties : Prop :=
  (∀ a b : List Byte, a.length = b.length → crc16 (List.zipWith (· ^^^ ·) a b) = crc16 a ^^^ crc16 b) ∧
  (∀ m : List Byte, crc16 (m ++ crcBytes (crc16 m)) = 0#16) ∧
  ∀ (n : Nat) (m : List Byte), crc16 (List.replicate n 0#8 ++ m) = crc16 m

/-! ### The shared sequences -/

/-- `RECEIVE_R1`: the first byte with bit 7 clear among at most ten ends the poll and is stored; ten bytes with bit 7 set end
it with `E_R1_TIMEOUT`, which is of the transport class; a failed exchange ends it with `E_TRANSPORT_IO`; on both, `S.lastR1`
keeps its value. -/
def Obligations.ReceiveR1 : Prop :=
  Code.r1Timeout.kind = some .transport ∧
  ∀ (s : State) (pads : List Byte) (rest : List WireAnswer), pads.all (fun b => b.getLsbD 7) = true →
    (∀ rx : Byte, rx.getLsbD 7 = false → pads.length < 10 → s.wire = answers (pads ++ [rx]) ++ rest →
      receiveR1 s = (.ok, { s with
        session.lastR1 := rx
        work.tries := pads.length + 1
        wire := rest
        trace := (received (pads ++ [rx])).reverse ++ s.trace })) ∧
    (pads.length = 10 → s.wire = answers pads ++ rest →
      receiveR1 s = (.r1Timeout, { s with
        work.tries := 10
        wire := rest
        trace := (received pads).reverse ++ s.trace })) ∧
    (pads.length < 10 → s.wire = answers pads ++ .ioFail :: rest →
      receiveR1 s = (.transportIo, { s with
        work.tries := pads.length + 1
        wire := rest
        trace := .failedExchange 0xFF#8 :: (received pads).reverse ++ s.trace }))

/-- `WAIT_TOKEN`: the first matching byte among at most a hundred ends the wait; a hundred that do not match end it with
`E_TOKEN_TIMEOUT`; a failed exchange ends it with `E_TRANSPORT_IO`; no session field is written. -/
def Obligations.WaitToken : Prop :=
  ∀ (s : State) (tok : Byte) (pads : List Byte) (rest : List WireAnswer),
    pads.all (fun b => !tokenMatch s.params.tokenMatch b tok) = true →
    (∀ rx : Byte, tokenMatch s.params.tokenMatch rx tok = true → pads.length < 100 →
      s.wire = answers (pads ++ [rx]) ++ rest →
      waitToken tok s = (.ok, { s with
        work.tries := pads.length + 1
        wire := rest
        trace := (received (pads ++ [rx])).reverse ++ s.trace })) ∧
    (pads.length = 100 → s.wire = answers pads ++ rest →
      waitToken tok s = (.tokenTimeout, { s with
        work.tries := 100
        wire := rest
        trace := (received pads).reverse ++ s.trace })) ∧
    (pads.length < 100 → s.wire = answers pads ++ .ioFail :: rest →
      waitToken tok s = (.transportIo, { s with
        work.tries := pads.length + 1
        wire := rest
        trace := .failedExchange 0xFF#8 :: (received pads).reverse ++ s.trace }))

/-- `BUSY_WAIT` (43_token_data.md R216, R217): only `0xFF` ends it; a budget that has expired after a busy byte ends it with
`E_WAIT_TIMEOUT`, but the byte is tested first; a failed exchange ends it with `E_TRANSPORT_IO`. The timestamp is a free value
(log 4). -/
def Obligations.BusyWait : Prop :=
  ∀ (s : State) (busy : List Byte) (rest : List WireAnswer) (later : List Bool), busy.all (fun b => b != 0xFF#8) = true →
    (s.wire = answers (busy ++ [0xFF#8]) ++ rest → s.timer = notElapsed busy.length ++ later →
      busyWait s = (.ok, { s with
        work.t0 := Config.now s.nowCount
        nowCount := s.nowCount + 1
        wire := rest
        timer := later
        trace := (received (busy ++ [0xFF#8])).reverse ++ s.trace })) ∧
    (∀ b : Byte, b ≠ 0xFF#8 → s.wire = answers (busy ++ [b]) ++ rest → s.timer = notElapsed busy.length ++ true :: later →
      busyWait s = (.waitTimeout, { s with
        work.t0 := Config.now s.nowCount
        nowCount := s.nowCount + 1
        wire := rest
        timer := later
        trace := (received (busy ++ [b])).reverse ++ s.trace })) ∧
    (s.wire = answers busy ++ .ioFail :: rest → s.timer = notElapsed busy.length ++ later →
      busyWait s = (.transportIo, { s with
        work.t0 := Config.now s.nowCount
        nowCount := s.nowCount + 1
        wire := rest
        timer := later
        trace := .failedExchange 0xFF#8 :: (received busy).reverse ++ s.trace }))

/-- A frame whose exchange fails ends there: the bytes before it are on the wire, the rest is not sent, `S.lastR1` stays
(42_command_response.md R170, 60_exceptions.md R362, R395). -/
def Obligations.FrameStopsAtAFailedExchange : Prop :=
  ∀ (s : State) (cmd : BitVec 6) (arg : Word) (exp : Byte) (dropped : List Byte) (rest : List WireAnswer),
    s.tableReady → dropped.length < 6 → s.wire = answers dropped ++ .ioFail :: rest →
    sendCommand cmd arg exp s = (.transportIo, { s with
      work.fr := frameOf cmd arg
      wire := rest
      trace := .failedExchange ((commandFrame cmd arg).getD dropped.length 0#8) ::
        (transcript ((commandFrame cmd arg).take dropped.length) dropped).reverse ++ s.trace })

/-! ### The commands as instructions -/

/-- `CMD0`, `CMD16`, `CMD55`, and `CMD12` outside a multi-block read: six frame bytes, then the R1 poll; the result is `OK`
exactly on the expected R1, else `E_UNEXPECTED_R1`; the R1 is in `S.lastR1` either way; nothing else is read
(42_command_response.md R170, R172, R175, R179, R181, R186). The frame's `crc` operand is not used: the engine computes the CRC7
itself (log 10). An instruction run alone is the model's: mode and chip-select log 26, what it writes log 27, operand registers
log 28, clock and busy card log 29, working registers afterwards log 30, a prefix or an argument the spec does not send log 31. -/
def Obligations.PlainCommandsComplete : Prop :=
  ∀ (s : State) (arg : Word) (crc : BitVec 7) (a : CommandAnswer) (rest : List WireAnswer),
    s.tableReady → a.ok = true → s.wire = answers a.bytes ++ rest →
    exec (.cmd0 arg crc) s = .next (commanded s a 0 arg rest (a.code 0x01#8)) ∧
    exec (.cmd16 arg crc) s = .next (commanded s a 16 arg rest (a.code 0x00#8)) ∧
    (s.session.mode = .identification →
      exec (.cmd55 arg crc) s = .next (commanded s a 55 arg rest (a.code 0x01#8))) ∧
    (s.session.mode = .transfer → exec (.cmd55 arg crc) s = .next (commanded s a 55 arg rest (a.code 0x00#8))) ∧
    (s.operands.op ≠ .readMultipleBlock →
      exec (.cmd12 arg crc) s = .next (commanded s a 12 arg rest (a.code 0x00#8)))

/-- A command whose R1 is not the expected one ends with `E_UNEXPECTED_R1`, with the R1 in `S.lastR1`, and nothing that would
follow the R1 is sent or read (42_command_response.md R172, R176 to R187). A block command whose payloads would have an odd length
sends nothing: that is `PreconditionsRefused`. An instruction run alone is the model's: mode and chip-select log 26, what it
writes log 27, operand registers log 28, clock and busy card log 29, working registers afterwards log 30, a prefix or an argument
the spec does not send log 31. -/
def Obligations.UnexpectedR1EndsACommand : Prop :=
  ∀ (s : State) (arg : Word) (crc : BitVec 7) (a : CommandAnswer) (rest : List WireAnswer),
    s.tableReady → a.ok = true → s.wire = answers a.bytes ++ rest →
    (a.r1 ≠ 0x01#8 → exec (.cmd8 arg crc) s = .next (commanded s a 8 arg rest .unexpectedR1)) ∧
    (a.r1 ≠ 0x00#8 →
      exec (.cmd9 arg crc) s = .next (commanded s a 9 arg rest .unexpectedR1) ∧
      exec (.cmd10 arg crc) s = .next (commanded s a 10 arg rest .unexpectedR1) ∧
      exec (.cmd12 arg crc) s = .next (commanded s a 12 arg rest .unexpectedR1) ∧
      exec (.cmd13 arg crc) s = .next (commanded s a 13 arg rest .unexpectedR1) ∧
      exec (.cmd58 arg crc) s = .next (commanded s a 58 arg rest .unexpectedR1) ∧
      (s.session.blockSize.toNat % 2 = 0 →
        exec (.cmd17 arg crc) s = .next (commanded s a 17 arg rest .unexpectedR1) ∧
        exec (.cmd24 arg crc) s = .next (commanded s a 24 arg rest .unexpectedR1)) ∧
      (payloadsEven s.operands.count.toNat s = true →
        exec (.cmd18 arg crc) s = .next (commanded s a 18 arg rest .unexpectedR1) ∧
        exec (.cmd25 arg crc) s = .next (commanded s a 25 arg rest .unexpectedR1)))

/-- `CMD12` after a multi-block read is followed by the drain: bytes are read until `0xFF`, or until the budget expires, which is
no error unless the parameter says so (45_transfer.md R284, 30_encoding.md R106). Which use of `CMD12` it is, `OP` says (log 28).
An instruction run alone is the model's: mode and chip-select log 26, what it writes log 27, operand registers log 28, clock and
busy card log 29, working registers afterwards log 30, a prefix or an argument the spec does not send log 31. -/
def Obligations.StopTransmissionDrains : Prop :=
  ∀ (s : State) (arg : Word) (crc : BitVec 7) (a : CommandAnswer) (busy : List Byte) (rest : List WireAnswer)
    (later : List Bool),
    s.tableReady → s.operands.op = .readMultipleBlock → a.ok = true → a.r1 = 0x00#8 →
    busy.all (fun b => b != 0xFF#8) = true →
    (s.wire = answers (a.bytes ++ busy ++ [0xFF#8]) ++ rest → s.timer = notElapsed busy.length ++ later →
      exec (.cmd12 arg crc) s = .next { s with
        session.lastR1 := 0x00#8
        work := { s.work with fr := frameOf 12 arg, tries := a.pads.length + 1, t0 := Config.now s.nowCount, seqResult := .ok }
        nowCount := s.nowCount + 1
        wire := rest
        timer := later
        trace := (a.events 12 arg ++ received (busy ++ [0xFF#8])).reverse ++ s.trace }) ∧
    (∀ b : Byte, b ≠ 0xFF#8 → s.wire = answers (a.bytes ++ busy ++ [b]) ++ rest →
      s.timer = notElapsed busy.length ++ true :: later →
      exec (.cmd12 arg crc) s = .next { s with
        session.lastR1 := 0x00#8
        work := { s.work with
          fr := frameOf 12 arg
          tries := a.pads.length + 1
          t0 := Config.now s.nowCount
          seqResult := if s.params.drainTimeoutIsError then .waitTimeout else .ok }
        nowCount := s.nowCount + 1
        wire := rest
        timer := later
        trace := (a.events 12 arg ++ received (busy ++ [b])).reverse ++ s.trace })

/-- The commands with bytes after their R1, read plainly and in order: `CMD8` exactly four into `R7`, `CMD58` exactly four into
`S.OCR`, `CMD13` exactly one into `S.lastR2`, which is an error only under the parameter (42_command_response.md R176, R180, R187,
30_encoding.md R98, 45_transfer.md R288). An instruction run alone is the model's: mode and chip-select log 26, what it writes log
27, operand registers log 28, clock and busy card log 29, working registers afterwards log 30, a prefix or an argument the spec
does not send log 31. -/
def Obligations.TrailerCommandsComplete : Prop :=
  (∀ (s : State) (arg : Word) (crc : BitVec 7) (a : CommandAnswer) (b0 b1 b2 b3 : Byte) (rest : List WireAnswer),
    s.tableReady → a.ok = true → s.wire = answers (a.bytes ++ [b0, b1, b2, b3]) ++ rest →
    (a.r1 = 0x01#8 → exec (.cmd8 arg crc) s = .next { s with
      session.lastR1 := 0x01#8
      work := { s.work with fr := frameOf 8 arg, tries := a.pads.length + 1, r7 := #v[b0, b1, b2, b3], seqResult := .ok }
      wire := rest
      trace := (a.events 8 arg ++ received [b0, b1, b2, b3]).reverse ++ s.trace }) ∧
    (a.r1 = 0x00#8 → exec (.cmd58 arg crc) s = .next { s with
      session.lastR1 := 0x00#8
      session.ocr := #v[b0, b1, b2, b3]
      work := { s.work with fr := frameOf 58 arg, tries := a.pads.length + 1, seqResult := .ok }
      wire := rest
      trace := (a.events 58 arg ++ received [b0, b1, b2, b3]).reverse ++ s.trace })) ∧
  ∀ (s : State) (arg : Word) (crc : BitVec 7) (a : CommandAnswer) (r2 : Byte) (rest : List WireAnswer),
    s.tableReady → a.ok = true → a.r1 = 0x00#8 → s.wire = answers (a.bytes ++ [r2]) ++ rest →
    exec (.cmd13 arg crc) s = .next { s with
      session.lastR1 := 0x00#8
      session.lastR2 := r2
      work := { s.work with
        fr := frameOf 13 arg
        tries := a.pads.length + 1
        seqResult := if s.params.r2NonzeroIsError = true ∧ r2 ≠ 0x00#8 then .unexpectedR1 else .ok }
      wire := rest
      trace := (a.events 13 arg ++ received [r2]).reverse ++ s.trace }

/-- `CMD9` and `CMD10`: the sixteen payload bytes after the start token are the snapshot, byte 0 first; a CRC16 word that is not
the payload's gives `E_DATA_CRC`, and the payload is stored all the same (42_command_response.md R177, R178, 41_crc16.md R157). An
instruction run alone is the model's: mode and chip-select log 26, what it writes log 27, operand registers log 28, clock and busy
card log 29, working registers afterwards log 30, a prefix or an argument the spec does not send log 31. -/
def Obligations.RegisterReadsComplete : Prop :=
  ∀ (s : State) (arg : Word) (crc : BitVec 7) (a : CommandAnswer) (p : PacketAnswer) (rest : List WireAnswer),
    s.tableReady → a.ok = true → a.r1 = 0x00#8 → p.ok s.params.tokenMatch 16 = true →
    s.wire = answers (a.bytes ++ p.bytes) ++ rest →
    exec (.cmd9 arg crc) s = .next { s with
      session.lastR1 := 0x00#8
      session.csd := snapshotOf p.payload
      work := { ({ s.work with fr := frameOf 9 arg } : Work).afterPacket p with seqResult := p.code }
      wire := rest
      trace := (a.events 9 arg ++ received p.bytes).reverse ++ s.trace } ∧
    exec (.cmd10 arg crc) s = .next { s with
      session.lastR1 := 0x00#8
      session.cid := snapshotOf p.payload
      work := { ({ s.work with fr := frameOf 10 arg } : Work).afterPacket p with seqResult := p.code }
      wire := rest
      trace := (a.events 10 arg ++ received p.bytes).reverse ++ s.trace }

/-- `ACMD41`: the prefix `CMD55` with the R1 that the mode expects, then the command's own frame, whose expected R1 is `R1_NORMAL`
on the repeated issues and `R1_IDLE` on the first (which issue it is, the sequencer says, log 13). A prefix that does not get the
R1 of the mode ends `ACMD41`, and `ACMD22`, with the second frame not sent (42_command_response.md R173, R186, R189). An
instruction run alone is the model's: mode and chip-select log 26, what it writes log 27, operand registers log 28, clock and busy
card log 29, working registers afterwards log 30, a prefix or an argument the spec does not send log 31. -/
def Obligations.ApplicationCommandsComplete : Prop :=
  (∀ (s : State) (arg : Word) (crc : BitVec 7) (app a : CommandAnswer) (rest : List WireAnswer),
    s.tableReady → app.ok = true → a.ok = true → expectedOfCmd55 s.session.mode = some app.r1 →
    s.wire = answers (app.bytes ++ a.bytes) ++ rest →
    exec (.acmd41 arg crc) s = .next { s with
      session.lastR1 := a.r1
      work := { s.work with
        fr := frameOf 41 arg
        tries := a.pads.length + 1
        seqResult := a.code (if s.seq = .acmd41Repeat then 0x00#8 else 0x01#8) }
      wire := rest
      trace := (app.events 55 0#32 ++ a.events 41 arg).reverse ++ s.trace }) ∧
  ∀ (s : State) (arg : Word) (crc : BitVec 7) (app : CommandAnswer) (rest : List WireAnswer),
    s.tableReady → s.session.mode ≠ .inactive → app.ok = true → expectedOfCmd55 s.session.mode ≠ some app.r1 →
    s.wire = answers app.bytes ++ rest →
    exec (.acmd41 arg crc) s = .next (commanded s app 55 0#32 rest .unexpectedR1) ∧
    exec (.acmd22 arg crc) s = .next (commanded s app 55 0#32 rest .unexpectedR1)

/-- `ACMD22`: the four payload bytes, big-endian, are the written-block count, which is stored only when the CRC16 is right
(42_command_response.md R188, 45_transfer.md R290, 20_memory.md R65). An instruction run alone is the model's: mode and
chip-select log 26, what it writes log 27, operand registers log 28, clock and busy card log 29, working registers afterwards log
30, a prefix or an argument the spec does not send log 31. -/
def Obligations.WrittenBlocksCommandCompletes : Prop :=
  ∀ (s : State) (arg : Word) (crc : BitVec 7) (app a : CommandAnswer) (p : PacketAnswer) (b0 b1 b2 b3 : Byte)
    (rest : List WireAnswer),
    s.tableReady → app.ok = true → expectedOfCmd55 s.session.mode = some app.r1 → a.ok = true → a.r1 = 0x00#8 →
    p.payload = [b0, b1, b2, b3] → p.ok s.params.tokenMatch 4 = true →
    s.wire = answers (app.bytes ++ a.bytes ++ p.bytes) ++ rest →
    exec (.acmd22 arg crc) s = .next { s with
      session.lastR1 := 0x00#8
      session.lastWrittenBlockCount := if p.good then b0 ++ b1 ++ b2 ++ b3 else s.session.lastWrittenBlockCount
      work := { ({ s.work with fr := frameOf 22 arg, w := #v[b0, b1, b2, b3] } : Work).afterPacket p with seqResult := p.code }
      wire := rest
      trace := (app.events 55 0#32 ++ a.events 22 arg ++ received p.bytes).reverse ++ s.trace }

/-- `CMD17`: the payload of `S.blockSize` bytes goes to the buffer that `BUF` holds, byte `k` to offset `k`, also when its CRC16
word is wrong; no other byte of memory changes (42_command_response.md R182, 20_memory.md R63, R75). An instruction run alone is
the model's: mode and chip-select log 26, what it writes log 27, operand registers log 28, clock and busy card log 29, working
registers afterwards log 30, a prefix or an argument the spec does not send log 31. -/
def Obligations.ReadSingleCommandCompletes : Prop :=
  ∀ (s : State) (arg : Word) (crc : BitVec 7) (a : CommandAnswer) (p : PacketAnswer) (rest : List WireAnswer),
    s.tableReady → Memory.wf s.mem = true → s.session.blockSize.toNat % 2 = 0 → a.ok = true → a.r1 = 0x00#8 →
    p.ok s.params.tokenMatch s.session.blockSize.toNat = true → s.wire = answers (a.bytes ++ p.bytes) ++ rest →
    ∃ m, Memory.wf m = true ∧ (∀ x, Memory.read m x = readAfter s.mem s.operands.buf.toNat p.payload x) ∧
      exec (.cmd17 arg crc) s = .next { s with
        session.lastR1 := 0x00#8
        work := { ({ s.work with fr := frameOf 17 arg } : Work).afterPacket p with seqResult := p.code }
        mem := m
        wire := rest
        trace := (a.events 17 arg ++ received p.bytes).reverse ++ s.trace }

/-- `CMD18`: `COUNT` packets (none for 0), block `i` to offset `i × S.blockSize` of the buffer; a packet whose CRC16 word is wrong
ends it with `E_DATA_CRC`, with its payload and those before it in the buffer and nothing further read (42_command_response.md
R183, 20_memory.md R71, 45_transfer.md R294). The `CMD12` that ends the transfer is an instruction of its own (log 10). An
instruction run alone is the model's: mode and chip-select log 26, what it writes log 27, operand registers log 28, clock and busy
card log 29, working registers afterwards log 30, a prefix or an argument the spec does not send log 31. -/
def Obligations.ReadManyCommandCompletes : Prop :=
  ∀ (s : State) (arg : Word) (crc : BitVec 7) (a : CommandAnswer) (packets : List PacketAnswer) (rest : List WireAnswer),
    s.tableReady → Memory.wf s.mem = true → payloadsEven s.operands.count.toNat s = true → a.ok = true → a.r1 = 0x00#8 →
    (∀ p ∈ packets, p.ok s.params.tokenMatch s.session.blockSize.toNat = true ∧ p.good = true) →
    (packets.length = s.operands.count.toNat →
      s.wire = answers (a.bytes ++ packets.flatMap PacketAnswer.bytes) ++ rest →
      ∃ m, Memory.wf m = true ∧
        (∀ x, Memory.read m x = readAfter s.mem s.operands.buf.toNat (packets.flatMap PacketAnswer.payload) x) ∧
        exec (.cmd18 arg crc) s = .next { s with
          session.lastR1 := 0x00#8
          work := { Work.afterBlocks packets 0 { s.work with fr := frameOf 18 arg, tries := a.pads.length + 1 } with
            seqResult := .ok }
          mem := m
          wire := rest
          trace := (a.events 18 arg ++ received (packets.flatMap PacketAnswer.bytes)).reverse ++ s.trace }) ∧
    ∀ bad : PacketAnswer, packets.length < s.operands.count.toNat →
      bad.ok s.params.tokenMatch s.session.blockSize.toNat = true → bad.good = false →
      s.wire = answers (a.bytes ++ (packets ++ [bad]).flatMap PacketAnswer.bytes) ++ rest →
      ∃ m, Memory.wf m = true ∧
        (∀ x, Memory.read m x = readAfter s.mem s.operands.buf.toNat ((packets ++ [bad]).flatMap PacketAnswer.payload) x) ∧
        exec (.cmd18 arg crc) s = .next { s with
          session.lastR1 := 0x00#8
          work := { Work.afterBlocks (packets ++ [bad]) 0 { s.work with fr := frameOf 18 arg } with seqResult := .dataCrc }
          mem := m
          wire := rest
          trace := (a.events 18 arg ++ received ((packets ++ [bad]).flatMap PacketAnswer.bytes)).reverse ++ s.trace }

/-- `CMD24`: after the R1 the token `0xFE`, the `S.blockSize` bytes of the buffer and their CRC16, high byte first; then the
accepting data response and the busy wait (42_command_response.md R184, 43_token_data.md R214). An instruction run alone is the
model's: mode and chip-select log 26, what it writes log 27, operand registers log 28, clock and busy card log 29, working
registers afterwards log 30, a prefix or an argument the spec does not send log 31. -/
def Obligations.WriteSingleCommandCompletes : Prop :=
  ∀ (s : State) (arg : Word) (crc : BitVec 7) (a : CommandAnswer) (b : WriteAnswer) (rest : List WireAnswer)
    (later : List Bool),
    s.tableReady → s.session.blockSize.toNat % 2 = 0 → a.ok = true → a.r1 = 0x00#8 →
    b.ok s.session.blockSize.toNat = true → s.wire = answers (a.bytes ++ b.bytes) ++ rest →
    s.timer = notElapsed b.queries ++ later →
    exec (.cmd24 arg crc) s = .next { s with
      session.lastR1 := 0x00#8
      work := { s.work with
        fr := frameOf 24 arg
        tries := a.pads.length + 1
        crcTx := crc16 (blockPayload s s.operands.buf 0)
        k := s.session.blockSize.toNat
        t0 := Config.now (s.nowCount + s.stamps - 1)
        seqResult := .ok }
      nowCount := s.nowCount + s.stamps
      wire := rest
      timer := later
      trace := (a.events 24 arg ++ b.events 0xFE#8 (blockPayload s s.operands.buf 0)).reverse ++ s.trace }

/-- `CMD25`: one dummy byte after the R1, then `COUNT` blocks (none for 0), each with the token `0xFC`, its payload and CRC16, the
accepting data response and the busy wait (42_command_response.md R185, 45_transfer.md R286). The stop token is an instruction of
its own (log 10). An instruction run alone is the model's: mode and chip-select log 26, what it writes log 27, operand registers
log 28, clock and busy card log 29, working registers afterwards log 30, a prefix or an argument the spec does not send log 31. -/
def Obligations.WriteManyCommandCompletes : Prop :=
  ∀ (s : State) (arg : Word) (crc : BitVec 7) (a : CommandAnswer) (dummy : Byte) (blocks : List WriteAnswer)
    (rest : List WireAnswer) (later : List Bool),
    s.tableReady → payloadsEven s.operands.count.toNat s = true → a.ok = true → a.r1 = 0x00#8 →
    blocks.length = s.operands.count.toNat → (∀ b ∈ blocks, b.ok s.session.blockSize.toNat = true) →
    s.wire = answers (a.bytes ++ [dummy] ++ blocks.flatMap WriteAnswer.bytes) ++ rest →
    s.timer = notElapsed (blocks.map WriteAnswer.queries).sum ++ later →
    exec (.cmd25 arg crc) s = .next { s with
      session.lastR1 := 0x00#8
      work := { Work.afterWrites s.stamps ((List.range blocks.length).map (blockPayload s s.operands.buf)) 0 s.nowCount
          { s.work with fr := frameOf 25 arg, tries := a.pads.length + 1 } with seqResult := .ok }
      nowCount := s.nowCount + s.stamps * blocks.length
      wire := rest
      timer := later
      trace := (a.events 25 arg ++ received [dummy] ++
        writeEvents 0xFC#8 blocks ((List.range blocks.length).map (blockPayload s s.operands.buf))).reverse ++ s.trace }

/-! ### Tokens, data responses, the table -/

/-- The three tokens as instructions: `0xFE`, `0xFC`, `0xFD` sent as one exchange each, `E_TRANSPORT_IO` when it fails; `0xFE`
received ends a token wait within a hundred reads (43_token_data.md R210, R211, R218 to R220; log 11). An instruction run alone is
the model's: mode and chip-select log 26, what it writes log 27, operand registers log 28, clock and busy card log 29, working
registers afterwards log 30, a prefix or an argument the spec does not send log 31. -/
def Obligations.TokensComplete : Prop :=
  (∀ (s : State) (rx : Byte) (rest : List WireAnswer), s.wire = .byte rx :: rest →
    exec (.tokenStart .sent) s = .next { s with
      work.seqResult := .ok, wire := rest, trace := .exchange 0xFE#8 rx :: s.trace } ∧
    exec .tokenMultiWrite s = .next { s with
      work.seqResult := .ok, wire := rest, trace := .exchange 0xFC#8 rx :: s.trace } ∧
    exec .tokenStopTran s = .next { s with
      work.seqResult := .ok, wire := rest, trace := .exchange 0xFD#8 rx :: s.trace }) ∧
  (∀ (s : State) (rest : List WireAnswer), s.wire = .ioFail :: rest →
    exec (.tokenStart .sent) s = .next { s with
      work.seqResult := .transportIo, wire := rest, trace := .failedExchange 0xFE#8 :: s.trace } ∧
    exec .tokenMultiWrite s = .next { s with
      work.seqResult := .transportIo, wire := rest, trace := .failedExchange 0xFC#8 :: s.trace } ∧
    exec .tokenStopTran s = .next { s with
      work.seqResult := .transportIo, wire := rest, trace := .failedExchange 0xFD#8 :: s.trace }) ∧
  (∀ (s : State) (pads : List Byte) (rest : List WireAnswer), pads.length < 100 →
    pads.all (fun b => !tokenMatch s.params.tokenMatch b 0xFE#8) = true →
    s.wire = answers (pads ++ [0xFE#8]) ++ rest →
    exec (.tokenStart .received) s = .next { s with
      work.tries := pads.length + 1
      work.seqResult := .ok
      wire := rest
      trace := (received (pads ++ [0xFE#8])).reverse ++ s.trace })

/-- The data responses as instructions, bits 7:5 whatever they are: acceptance goes on to the busy wait; the two rejections end at
once with their codes (43_token_data.md R214, R215, R221 to R223; that the byte arrives in the next exchange is log 12). An
instruction run alone is the model's: mode and chip-select log 26, what it writes log 27, operand registers log 28, clock and busy
card log 29, working registers afterwards log 30, a prefix or an argument the spec does not send log 31. -/
def Obligations.DataResponsesComplete : Prop :=
  ∀ (s : State) (ignored : BitVec 3),
    (∀ (busy : List Byte) (rest : List WireAnswer) (later : List Bool), busy.all (fun b => b != 0xFF#8) = true →
      s.wire = answers (busy ++ [0xFF#8]) ++ rest → s.timer = notElapsed busy.length ++ later →
      exec (.drAccepted ignored) s = .next { s with
        work.t0 := Config.now (s.nowCount + s.stamps - 1)
        work.seqResult := .ok
        nowCount := s.nowCount + s.stamps
        wire := rest
        timer := later
        trace := (received ([ignored ++ 0x05#5] ++ busy ++ [0xFF#8])).reverse ++ s.trace }) ∧
    exec (.drCrcError ignored) s = .next { s with
      work.t0 := Config.now s.nowCount
      work.seqResult := .dataCrc
      nowCount := s.nowCount + 1
      trace := .exchange 0xFF#8 (ignored ++ 0x0B#5) :: s.trace } ∧
    exec (.drWriteError ignored) s = .next { s with
      work.t0 := Config.now s.nowCount
      work.seqResult := .writeProgram
      nowCount := s.nowCount + 1
      trace := .exchange 0xFF#8 (ignored ++ 0x0D#5) :: s.trace }

/-- `CRC7_BUILD` writes the table and `tableValid`, touches no wire and no session field, and cannot fail; it runs in every mode
and building twice gives the same table (40_crc7.md R131, R133, 60_exceptions.md R381). What `seqResult`, the operand registers
and the working registers hold afterwards is the model's choice: logs 25, 28, 30. -/
def Obligations.Crc7BuildCompletes : Prop :=
  ∀ s : State, s.seq = .idleSeq → exec .crc7Build s = .next { s with
    table := crc7Table
    tableValid := true
    work.seqResult := .ok
    operands.op := .crc7Build
    res := .ok
    trace := .buildTable :: s.trace }

/-! ### `INITIALIZE` -/

/-- A whole initialization of a version-2 card: from any state with the sequencer idle, when no exchange fails, the card answers
as 44_init.md R241 to R253 expect and the budget does not expire before the poll is ready, the session is usable, with the
version, class, capacity, snapshots and clock the steps give, and every byte and event of the run is as R253 orders it. The
readings are the defaults of `ACMD41_PAIR_IN_LOOP` (00_scope.md R18). What `seqResult`, the operand registers and the working
registers hold afterwards is the model's choice: logs 25, 28, 30. -/
def Obligations.InitializesAVersion2Card : Prop :=
  ∀ (s : State) (transport cs busClockHz : Word) (a : InitAnswer) (t0 t1 : Byte) (cmd58 : CommandAnswer)
    (o0 o1 o2 o3 : Byte) (rest : List WireAnswer) (later : List Bool),
    s.seq = .idleSeq → s.params.acmd41PairInLoop = false → a.ok s.params.tokenMatch = true →
    a.cmd8.r1 = 0x01#8 → cmd58.ok = true → cmd58.r1 = 0x00#8 →
    s.wire = answers (a.opening ++ [t0, t1, 0x01#8, 0xAA#8] ++ a.poll ++ cmd58.bytes ++ [o0, o1, o2, o3] ++ a.registers)
      ++ rest →
    s.timer = notElapsed a.rounds.length ++ later →
    exec (.initializeOp transport cs busClockHz) s = .next { s with
      session := {
        transport := transport, cs := cs, busClockHz := busClockHz
        mode := .transfer
        state := .standby
        specVersion := .v2
        capacityClass :=
          if 34359738368#64 < capacityV2 (snapshotOf a.csd.payload) then .sdxc else if o0.getLsbD 6 then .sdhc else .sdsc
        lastR1 := 0x00#8
        lastR2 := s.session.lastR2
        blockSize := 512#32
        capacityBytes := capacityV2 (snapshotOf a.csd.payload)
        ocr := #v[o0, o1, o2, o3]
        cid := snapshotOf a.cid.payload
        csd := snapshotOf a.csd.payload
        lastWrittenBlockCount := s.session.lastWrittenBlockCount }
      table := crc7Table
      tableValid := true
      work := { ({ s.work with
          fr := frameOf 9 0#32, r7 := #v[t0, t1, 0x01#8, 0xAA#8], t0 := Config.now s.nowCount } : Work).afterPacket a.csd with
        seqResult := .ok }
      operands := { s.operands with op := .initSession, cfg := ⟨transport, cs, busClockHz⟩ }
      res := .ok
      csLevel := .deasserted
      clockProfile := .clkTransfer
      nowCount := s.nowCount + 1
      wire := rest
      timer := later
      trace := (a.openingEvents ++ received [t0, t1, 0x01#8, 0xAA#8] ++ a.pollEvents 0x40000000#32 ++
        cmd58.events 58 0#32 ++ received [o0, o1, o2, o3] ++ a.registerEvents ++ [Event.csDeassert]).reverse ++ s.trace }

/-- A whole initialization of a version-1 card: `CMD8` answered with the illegal-command flag, no trailer and no OCR read, the
class `SDSC`, the block length set by `CMD16`, the capacity by the version-1 formula (44_init.md R243, R245, R249, R253). The
reading is the default of `ACMD41_PAIR_IN_LOOP`, false (R244, 00_scope.md R18). What `seqResult`, the operand registers and the
working registers hold afterwards is the model's choice: logs 25, 28, 30. -/
def Obligations.InitializesAVersion1Card : Prop :=
  ∀ (s : State) (transport cs busClockHz : Word) (a : InitAnswer) (cmd16 : CommandAnswer) (rest : List WireAnswer)
    (later : List Bool),
    s.seq = .idleSeq → s.params.acmd41PairInLoop = false → a.ok s.params.tokenMatch = true →
    a.cmd8.r1.getLsbD 2 = true → cmd16.ok = true → cmd16.r1 = 0x00#8 →
    s.wire = answers (a.opening ++ a.poll ++ a.registers ++ cmd16.bytes) ++ rest →
    s.timer = notElapsed a.rounds.length ++ later →
    exec (.initializeOp transport cs busClockHz) s = .next { s with
      session := {
        transport := transport, cs := cs, busClockHz := busClockHz
        mode := .transfer
        state := .standby
        specVersion := .v1
        capacityClass := .sdsc
        lastR1 := 0x00#8
        lastR2 := s.session.lastR2
        blockSize := 512#32
        capacityBytes := capacityV1 (snapshotOf a.csd.payload)
        ocr := s.session.ocr
        cid := snapshotOf a.cid.payload
        csd := snapshotOf a.csd.payload
        lastWrittenBlockCount := s.session.lastWrittenBlockCount }
      table := crc7Table
      tableValid := true
      work := { ({ s.work with t0 := Config.now s.nowCount } : Work).afterPacket a.csd with
        fr := frameOf 16 0x200#32, tries := cmd16.pads.length + 1, seqResult := .ok }
      operands := { s.operands with op := .initSession, cfg := ⟨transport, cs, busClockHz⟩ }
      res := .ok
      csLevel := .deasserted
      clockProfile := .clkTransfer
      nowCount := s.nowCount + 1
      wire := rest
      timer := later
      trace := (a.openingEvents ++ a.pollEvents 0#32 ++ a.registerEvents ++ cmd16.events 16 0x200#32 ++
        [Event.csDeassert]).reverse ++ s.trace }

/-- The order of the writes to mode and state (44_init.md R252): `(Inactive, Ready)` in step 1; `(Identification, Idle)` in a
step 2 that succeeds; `(Transfer, Standby)` in a step 4 that succeeds; no other step, and no failing one, writes them. -/
def Obligations.InitializeTrajectory : Prop :=
  ∀ s : State,
    ((initStep1 s).2.session.mode = .inactive ∧ (initStep1 s).2.session.state = .ready) ∧
    (((initStep2 s).1 = .ok ∧ (initStep2 s).2.session.mode = .identification ∧ (initStep2 s).2.session.state = .idle) ∨
      ((initStep2 s).1 ≠ .ok ∧ (initStep2 s).2.session.mode = s.session.mode ∧
        (initStep2 s).2.session.state = s.session.state)) ∧
    (((initStep4 s).1 = .ok ∧ (initStep4 s).2.session.mode = .transfer ∧ (initStep4 s).2.session.state = .standby) ∨
      ((initStep4 s).1 ≠ .ok ∧ (initStep4 s).2.session.mode = s.session.mode ∧
        (initStep4 s).2.session.state = s.session.state)) ∧
    (∀ f ∈ [initStep3, initStep5, initStep6, initStep7, initStep8, initStep9],
      (f s).2.session.mode = s.session.mode ∧ (f s).2.session.state = s.session.state)

/-- The outcomes of `CMD8` in step 3 (44_init.md R243): the right echo is version 2; a wrong echo is `E_BAD_ECHO`; the
illegal-command flag is version 1, and no trailer is read; any other unexpected R1 is fatal; without an R1 it is
`E_R1_TIMEOUT` and `S.lastR1` is not looked at. -/
def Obligations.VersionNegotiation : Prop :=
  ∀ (s : State) (a : CommandAnswer) (rest : List WireAnswer), s.tableReady → a.ok = true →
    (∀ b0 b1 b2 b3 : Byte, a.r1 = 0x01#8 → s.wire = answers (a.bytes ++ [b0, b1, b2, b3]) ++ rest →
      (initStep3 s).2.wire = rest ∧
      (b2 = 0x01#8 → b3 = 0xAA#8 → (initStep3 s).1 = .ok ∧ (initStep3 s).2.session.specVersion = .v2) ∧
      (¬(b2 = 0x01#8 ∧ b3 = 0xAA#8) →
        (initStep3 s).1 = .badEcho ∧ (initStep3 s).2.session.specVersion = s.session.specVersion)) ∧
    (a.r1 ≠ 0x01#8 → s.wire = answers a.bytes ++ rest →
      (initStep3 s).2.wire = rest ∧ (initStep3 s).2.session.lastR1 = a.r1 ∧
      (a.r1.getLsbD 2 = true → (initStep3 s).1 = .ok ∧ (initStep3 s).2.session.specVersion = .v1) ∧
      (a.r1.getLsbD 2 = false →
        (initStep3 s).1 = .unexpectedR1 ∧ (initStep3 s).2.session.specVersion = s.session.specVersion)) ∧
    (∀ pads : List Byte, pads.length = 10 → pads.all (fun b => b.getLsbD 7) = true →
      s.wire = answers (a.dropped ++ pads) ++ rest →
      (initStep3 s).1 = .r1Timeout ∧ (initStep3 s).2.wire = rest ∧
        (initStep3 s).2.session = s.session)

/-- The readiness poll ends with `E_WAIT_TIMEOUT` when the budget expires after a round that was not ready, however many rounds
there were, and the session is still in `Identification` (44_init.md R244). -/
def Obligations.ReadinessPollExpires : Prop :=
  ∀ (s : State) (first : PollAnswer) (rounds : List PollAnswer) (last : PollAnswer) (rest : List WireAnswer)
    (later : List Bool),
    s.tableReady → s.session.mode = .identification → s.params.acmd41PairInLoop = false → first.ok = true →
    (∀ p ∈ rounds, p.ok = true ∧ p.r1 ≠ 0x00#8) → last.ok = true → last.r1 ≠ 0x00#8 →
    s.wire = answers (first.bytes ++ rounds.flatMap PollAnswer.bytes ++ last.bytes) ++ rest →
    s.timer = notElapsed rounds.length ++ true :: later →
    (initStep4 s).1 = .waitTimeout ∧ (initStep4 s).2.wire = rest ∧ (initStep4 s).2.timer = later ∧
      (initStep4 s).2.session = { s.session with lastR1 := last.r1 }

/-! ### The transfers -/

/-- `READ_BLOCK` (45_transfer.md R282): chip-select, `CMD17` with the translated address, the packet into the buffer, chip-select
released, and nothing more on the wire. A packet whose CRC16 word is right completes with `OK` in `Standby`; a wrong one ends with
`E_DATA_CRC`, the session `Inactive`, and the payload in the buffer all the same. An exchange that fails inside the payload ends
it with `E_TRANSPORT_IO`, and every byte received before it is in the buffer (R294, 20_memory.md R75). That this holds of half a
word too is the model's choice between R75, R294 and decision D37 on one side and the line order of R157's pseudocode
(41_crc16.md) on the other: log 16. What `seqResult`, the operand registers and the working registers hold afterwards is the
model's choice: logs 25, 28, 30. -/
def Obligations.ReadBlockCompletes : Prop :=
  ∀ (s : State) (addr buf : Word) (a : CommandAnswer) (rest : List WireAnswer),
    s.seq = .idleSeq → s.session.mode = .transfer → s.session.state = .standby → s.tableReady →
    Memory.wf s.mem = true → s.session.blockSize.toNat % 2 = 0 → a.ok = true → a.r1 = 0x00#8 →
    (∀ p : PacketAnswer, p.ok s.params.tokenMatch s.session.blockSize.toNat = true →
      s.wire = answers (a.bytes ++ p.bytes) ++ rest →
      ∃ m, Memory.wf m = true ∧ (∀ x, Memory.read m x = readAfter s.mem buf.toNat p.payload x) ∧
        exec (.readBlock addr buf) s = .next { s with
          session := { s.session with
            mode := if p.good then .transfer else .inactive
            state := if p.good then .standby else .inactive
            lastR1 := 0x00#8 }
          work := { ({ s.work with fr := frameOf 17 (xlate s.session addr) } : Work).afterPacket p with seqResult := p.code }
          operands := { s.operands with op := .readBlock, addr := addr, buf := buf }
          res := p.code
          csLevel := .deasserted
          mem := m
          wire := rest
          trace := ([Event.csAssert] ++ a.events 17 (xlate s.session addr) ++ received p.bytes ++ [Event.csDeassert]).reverse
            ++ s.trace }) ∧
    ∀ pads got : List Byte, pads.length < 100 →
      pads.all (fun b => !tokenMatch s.params.tokenMatch b 0xFE#8) = true → got.length < s.session.blockSize.toNat →
      s.wire = answers (a.bytes ++ pads ++ [0xFE#8] ++ got) ++ .ioFail :: rest →
      ∃ m w, Memory.wf m = true ∧ (∀ x, Memory.read m x = readAfter s.mem buf.toNat got x) ∧
        exec (.readBlock addr buf) s = .next { s with
          session := { s.session with mode := .inactive, state := .inactive, lastR1 := 0x00#8 }
          work := w
          operands := { s.operands with op := .readBlock, addr := addr, buf := buf }
          res := .transportIo
          csLevel := .deasserted
          mem := m
          wire := rest
          trace := ([Event.csAssert] ++ a.events 17 (xlate s.session addr) ++ received (pads ++ [0xFE#8] ++ got) ++
            [Event.failedExchange 0xFF#8, Event.csDeassert]).reverse ++ s.trace }

/-- `READ_MULTIPLE_BLOCK` (45_transfer.md R283, R284, R293): `CMD18`, `COUNT` packets (none for 0), block `i` at offset `i ×
S.blockSize`, then `CMD12` and the drain; no status is read. A packet whose CRC16 word is wrong goes straight to the handler with
`E_DATA_CRC`: no `CMD12` is sent, no later packet is read, and the payloads up to that block are in the buffer (R294). What
`seqResult`, the operand registers and the working registers hold afterwards is the model's choice: logs 25, 28, 30. -/
def Obligations.ReadMultipleBlockCompletes : Prop :=
  ∀ (s : State) (addr buf count : Word) (a : CommandAnswer) (packets : List PacketAnswer) (rest : List WireAnswer),
    s.seq = .idleSeq → s.session.mode = .transfer → s.session.state = .standby → s.tableReady →
    Memory.wf s.mem = true → payloadsEven count.toNat s = true → a.ok = true → a.r1 = 0x00#8 →
    (∀ p ∈ packets, p.ok s.params.tokenMatch s.session.blockSize.toNat = true ∧ p.good = true) →
    (∀ (stop : CommandAnswer) (busy : List Byte) (later : List Bool),
      packets.length = count.toNat → stop.ok = true → stop.r1 = 0x00#8 → busy.all (fun b => b != 0xFF#8) = true →
      s.wire = answers (a.bytes ++ packets.flatMap PacketAnswer.bytes ++ stop.bytes ++ busy ++ [0xFF#8]) ++ rest →
      s.timer = notElapsed busy.length ++ later →
      ∃ m, Memory.wf m = true ∧
        (∀ x, Memory.read m x = readAfter s.mem buf.toNat (packets.flatMap PacketAnswer.payload) x) ∧
        exec (.readMultipleBlock addr buf count) s = .next { s with
          session.lastR1 := 0x00#8
          work := { Work.afterBlocks packets 0 s.work with
            fr := frameOf 12 0#32
            tries := stop.pads.length + 1
            t0 := Config.now s.nowCount
            seqResult := .ok }
          operands := { s.operands with op := .readMultipleBlock, addr := addr, buf := buf, count := count }
          res := .ok
          csLevel := .deasserted
          mem := m
          nowCount := s.nowCount + 1
          wire := rest
          timer := later
          trace := ([Event.csAssert] ++ a.events 18 (xlate s.session addr) ++ received (packets.flatMap PacketAnswer.bytes) ++
            stop.events 12 0#32 ++ received (busy ++ [0xFF#8]) ++ [Event.csDeassert]).reverse ++ s.trace }) ∧
    ∀ bad : PacketAnswer, packets.length < count.toNat →
      bad.ok s.params.tokenMatch s.session.blockSize.toNat = true → bad.good = false →
      s.wire = answers (a.bytes ++ (packets ++ [bad]).flatMap PacketAnswer.bytes) ++ rest →
      ∃ m, Memory.wf m = true ∧
        (∀ x, Memory.read m x = readAfter s.mem buf.toNat ((packets ++ [bad]).flatMap PacketAnswer.payload) x) ∧
        exec (.readMultipleBlock addr buf count) s = .next { s with
          session := { s.session with mode := .inactive, state := .inactive, lastR1 := 0x00#8 }
          work := { Work.afterBlocks (packets ++ [bad]) 0 { s.work with fr := frameOf 18 (xlate s.session addr) } with
            seqResult := .dataCrc }
          operands := { s.operands with op := .readMultipleBlock, addr := addr, buf := buf, count := count }
          res := .dataCrc
          csLevel := .deasserted
          mem := m
          wire := rest
          trace := ([Event.csAssert] ++ a.events 18 (xlate s.session addr) ++
            received ((packets ++ [bad]).flatMap PacketAnswer.bytes) ++ [Event.csDeassert]).reverse ++ s.trace }

/-- `WRITE_BLOCK` (45_transfer.md R285): `CMD24`, the token `0xFE` at once, the block and its CRC16, the accepting data response,
the busy wait; no status is read. What `seqResult`, the operand registers and the working registers hold afterwards is the model's
choice: logs 25, 28, 30. -/
def Obligations.WriteBlockCompletes : Prop :=
  ∀ (s : State) (addr buf : Word) (a : CommandAnswer) (b : WriteAnswer) (rest : List WireAnswer) (later : List Bool),
    s.seq = .idleSeq → s.session.mode = .transfer → s.session.state = .standby → s.tableReady →
    s.session.blockSize.toNat % 2 = 0 → a.ok = true → a.r1 = 0x00#8 → b.ok s.session.blockSize.toNat = true →
    s.wire = answers (a.bytes ++ b.bytes) ++ rest → s.timer = notElapsed b.queries ++ later →
    exec (.writeBlock addr buf) s = .next { s with
      session.lastR1 := 0x00#8
      work := { s.work with
        fr := frameOf 24 (xlate s.session addr)
        tries := a.pads.length + 1
        crcTx := crc16 (blockPayload s buf 0)
        k := s.session.blockSize.toNat
        t0 := Config.now (s.nowCount + s.stamps - 1)
        seqResult := .ok }
      operands := { s.operands with op := .writeBlock, addr := addr, buf := buf }
      res := .ok
      csLevel := .deasserted
      nowCount := s.nowCount + s.stamps
      wire := rest
      timer := later
      trace := ([Event.csAssert] ++ a.events 24 (xlate s.session addr) ++ b.events 0xFE#8 (blockPayload s buf 0) ++
        [Event.csDeassert]).reverse ++ s.trace }

/-- `WRITE_MULTIPLE_BLOCK` whose blocks are all accepted (45_transfer.md R286, R293): `CMD25`, a dummy byte, the blocks (none for
0), the stop token, a dummy byte, the busy wait, and the status, whose second byte is left for the host unless the parameter
`R2_NONZERO_IS_ERROR` is set. What `seqResult`, the operand registers and the working registers hold afterwards is the model's
choice: logs 25, 28, 30. -/
def Obligations.WriteMultipleBlockCompletes : Prop :=
  ∀ (s : State) (addr buf count : Word) (a : CommandAnswer) (d0 : Byte) (blocks : List WriteAnswer) (d1 d2 : Byte)
    (busy : List Byte) (status : CommandAnswer) (r2 : Byte) (rest : List WireAnswer) (later : List Bool),
    s.seq = .idleSeq → s.session.mode = .transfer → s.session.state = .standby → s.tableReady →
    payloadsEven count.toNat s = true → a.ok = true → a.r1 = 0x00#8 → blocks.length = count.toNat →
    (∀ b ∈ blocks, b.ok s.session.blockSize.toNat = true) → busy.all (fun b => b != 0xFF#8) = true →
    status.ok = true → status.r1 = 0x00#8 → (s.params.r2NonzeroIsError = true → r2 = 0x00#8) →
    s.wire = answers (a.bytes ++ [d0] ++ blocks.flatMap WriteAnswer.bytes ++ [d1, d2] ++ busy ++ [0xFF#8] ++
      status.bytes ++ [r2]) ++ rest →
    s.timer = notElapsed ((blocks.map WriteAnswer.queries).sum + busy.length) ++ later →
    exec (.writeMultipleBlock addr buf count) s = .next { s with
      session.lastR1 := 0x00#8
      session.lastR2 := r2
      work := { Work.afterWrites s.stamps ((List.range blocks.length).map (blockPayload s buf)) 0 s.nowCount s.work with
        fr := frameOf 13 0#32
        tries := status.pads.length + 1
        t0 := Config.now (s.nowCount + s.stamps * blocks.length)
        seqResult := .ok }
      operands := { s.operands with op := .writeMultipleBlock, addr := addr, buf := buf, count := count }
      res := .ok
      csLevel := .deasserted
      nowCount := s.nowCount + s.stamps * blocks.length + 1
      wire := rest
      timer := later
      trace := ([Event.csAssert] ++ a.events 25 (xlate s.session addr) ++ received [d0] ++
        writeEvents 0xFC#8 blocks ((List.range blocks.length).map (blockPayload s buf)) ++
        [Event.exchange 0xFD#8 d1] ++ received ([d2] ++ busy ++ [0xFF#8]) ++ status.events 13 0#32 ++ received [r2] ++
        [Event.csDeassert]).reverse ++ s.trace }

/-- The two queries, between chip-select and its release, `S.state` unchanged: `READ_STATUS` is `CMD13` and its second byte;
`GET_WRITTEN_BLOCK_COUNT` is `CMD55`, `ACMD22`, a packet, and the big-endian count (45_transfer.md R288 to R291). What
`seqResult`, the operand registers and the working registers hold afterwards is the model's choice: logs 25, 28, 30. -/
def Obligations.QueriesComplete : Prop :=
  (∀ (s : State) (a : CommandAnswer) (r2 : Byte) (rest : List WireAnswer),
    s.seq = .idleSeq → s.session.mode = .transfer → s.session.state = .standby → s.tableReady →
    a.ok = true → a.r1 = 0x00#8 → (s.params.r2NonzeroIsError = true → r2 = 0x00#8) →
    s.wire = answers (a.bytes ++ [r2]) ++ rest →
    exec .readStatus s = .next { s with
      session.lastR1 := 0x00#8
      session.lastR2 := r2
      work := { s.work with fr := frameOf 13 0#32, tries := a.pads.length + 1, seqResult := .ok }
      operands.op := .readStatus
      res := .ok
      csLevel := .deasserted
      wire := rest
      trace := ([Event.csAssert] ++ a.events 13 0#32 ++ received [r2] ++ [Event.csDeassert]).reverse ++ s.trace }) ∧
  ∀ (s : State) (app a : CommandAnswer) (p : PacketAnswer) (b0 b1 b2 b3 : Byte) (rest : List WireAnswer),
    s.seq = .idleSeq → s.session.mode = .transfer → s.session.state = .standby → s.tableReady →
    app.ok = true → app.r1 = 0x00#8 → a.ok = true → a.r1 = 0x00#8 → p.payload = [b0, b1, b2, b3] →
    p.ok s.params.tokenMatch 4 = true → p.good = true →
    s.wire = answers (app.bytes ++ a.bytes ++ p.bytes) ++ rest →
    exec .getWrittenBlockCount s = .next { s with
      session.lastR1 := 0x00#8
      session.lastWrittenBlockCount := b0 ++ b1 ++ b2 ++ b3
      work := { ({ s.work with fr := frameOf 22 0#32, w := #v[b0, b1, b2, b3] } : Work).afterPacket p with seqResult := .ok }
      operands.op := .getWrittenBlockCount
      res := .ok
      csLevel := .deasserted
      wire := rest
      trace := ([Event.csAssert] ++ app.events 55 0#32 ++ a.events 22 0#32 ++ received p.bytes ++ [Event.csDeassert]).reverse
        ++ s.trace }

/-! ### Failures -/

/-- A block the card rejects in `WRITE_BLOCK`: the result is the code of the data response whatever the card answers to the status
read that follows, and the session is `Inactive`; a `CMD13` that gets its R1 leaves the second status byte for the host, one that
gets another R1 ends the status read there (45_transfer.md R285, R288, 60_exceptions.md R373). What the operand registers hold
afterwards is the model's choice: log 28. -/
def Obligations.RejectedWriteReadsTheStatus : Prop :=
  ∀ (s : State) (addr buf : Word) (a : CommandAnswer) (r : Rejection) (tail : List WireAnswer) (later : List Bool),
    s.seq = .idleSeq → s.session.mode = .transfer → s.session.state = .standby → s.tableReady →
    s.session.blockSize.toNat % 2 = 0 → a.ok = true → a.r1 = 0x00#8 → r.ok s.session.blockSize.toNat = true →
    s.wire = answers (a.bytes ++ r.bytes) ++ tail → s.timer = notElapsed r.pads.length ++ later →
    (∃ t, exec (.writeBlock addr buf) s = .next t ∧ t.res = r.code ∧ t.session.mode = .inactive ∧
      t.session.state = .inactive ∧ t.csLevel = .deasserted ∧ t.seq = .idleSeq) ∧
    ∀ (status : CommandAnswer) (r2 : Byte) (rest : List WireAnswer), status.ok = true →
      tail = answers (status.bytes ++ [r2]) ++ rest →
      ∃ w, exec (.writeBlock addr buf) s = .next { s with
        session := { s.session with
          mode := .inactive
          state := .inactive
          lastR1 := status.r1
          lastR2 := if status.r1 = 0x00#8 then r2 else s.session.lastR2 }
        work := w
        operands := { s.operands with op := .writeBlock, addr := addr, buf := buf }
        res := r.code
        csLevel := .deasserted
        nowCount := s.nowCount + 1
        wire := if status.r1 = 0x00#8 then rest else .byte r2 :: rest
        timer := later
        trace := ([Event.csAssert] ++ a.events 24 (xlate s.session addr) ++ r.events 0xFE#8 (blockPayload s buf 0) ++
          status.events 13 0#32 ++ (if status.r1 = 0x00#8 then received [r2] else []) ++ [Event.csDeassert]).reverse ++ s.trace }

/-- A block the card rejects in `WRITE_MULTIPLE_BLOCK` after some were accepted: no further block and no stop token is sent, the
result is the code of the data response whatever the card answers to the recovery that follows, and the session is `Inactive`. The
recovery is `CMD12` at once; when it got its R1, the written-block count is queried, and recorded when the query succeeds; a
`CMD12` without its R1 skips the query, and a query that fails is swallowed (45_transfer.md R287, 60_exceptions.md R373). What the
operand registers hold afterwards is the model's choice: log 28. -/
def Obligations.RejectedMultiWriteRecovers : Prop :=
  ∀ (s : State) (addr buf count : Word) (a : CommandAnswer) (d0 : Byte) (blocks : List WriteAnswer) (r : Rejection)
    (tail : List WireAnswer) (later : List Bool),
    s.seq = .idleSeq → s.session.mode = .transfer → s.session.state = .standby → s.tableReady →
    s.session.blockSize.toNat % 2 = 0 → a.ok = true → a.r1 = 0x00#8 → blocks.length < count.toNat →
    (∀ b ∈ blocks, b.ok s.session.blockSize.toNat = true) → r.ok s.session.blockSize.toNat = true →
    s.wire = answers (a.bytes ++ [d0] ++ blocks.flatMap WriteAnswer.bytes ++ r.bytes) ++ tail →
    s.timer = notElapsed ((blocks.map WriteAnswer.queries).sum + r.pads.length) ++ later →
    (∃ t, exec (.writeMultipleBlock addr buf count) s = .next t ∧ t.res = r.code ∧ t.session.mode = .inactive ∧
      t.session.state = .inactive ∧ t.csLevel = .deasserted ∧ t.seq = .idleSeq) ∧
    ∀ (v : Recovery) (rest : List WireAnswer), v.ok s.params.tokenMatch = true → tail = answers v.bytes ++ rest →
      ∃ w, exec (.writeMultipleBlock addr buf count) s = .next { s with
        session := { s.session with
          mode := .inactive
          state := .inactive
          lastR1 := v.lastR1 0x00#8
          lastWrittenBlockCount := v.count s.session.lastWrittenBlockCount }
        work := w
        operands := { s.operands with op := .writeMultipleBlock, addr := addr, buf := buf, count := count }
        res := r.code
        csLevel := .deasserted
        nowCount := s.nowCount + s.stamps * blocks.length + 1
        wire := rest
        timer := later
        trace := ([Event.csAssert] ++ a.events 25 (xlate s.session addr) ++ received [d0] ++
          writeEvents 0xFC#8 blocks ((List.range blocks.length).map (blockPayload s buf)) ++
          r.events 0xFC#8 (blockPayload s buf blocks.length) ++ v.events ++ [Event.csDeassert]).reverse ++ s.trace }

/-- A card whose busy line never clears: `WRITE_BLOCK` ends with `E_WAIT_TIMEOUT` when the budget expires, with no status read,
and the session is `Inactive` (45_transfer.md R285, 43_token_data.md R216). What the operand registers hold afterwards is the
model's choice: log 28. -/
def Obligations.BusyCardEndsTheWrite : Prop :=
  ∀ (s : State) (addr buf : Word) (a : CommandAnswer) (dropped pads : List Byte) (ignored : BitVec 3) (busy : List Byte)
    (b : Byte) (rest : List WireAnswer) (later : List Bool),
    s.seq = .idleSeq → s.session.mode = .transfer → s.session.state = .standby → s.tableReady →
    s.session.blockSize.toNat % 2 = 0 → a.ok = true → a.r1 = 0x00#8 →
    dropped.length = s.session.blockSize.toNat + 3 → pads.all (fun b => acceptDataResponse b == none) = true →
    busy.all (fun b => b != 0xFF#8) = true → b ≠ 0xFF#8 →
    s.wire = answers (a.bytes ++ dropped ++ pads ++ [ignored ++ 0x05#5] ++ busy ++ [b]) ++ rest →
    s.timer = notElapsed (pads.length + busy.length) ++ true :: later →
    ∃ w : Work, exec (.writeBlock addr buf) s = .next { s with
      session := { s.session with mode := .inactive, state := .inactive, lastR1 := 0x00#8 }
      work := w
      operands := { s.operands with op := .writeBlock, addr := addr, buf := buf }
      res := .waitTimeout
      csLevel := .deasserted
      nowCount := s.nowCount + s.stamps
      wire := rest
      timer := later
      trace := ([Event.csAssert] ++ a.events 24 (xlate s.session addr) ++
        transcript (dataPacket 0xFE#8 (blockPayload s buf 0)) dropped ++
        received (pads ++ [ignored ++ 0x05#5] ++ busy ++ [b]) ++ [Event.csDeassert]).reverse ++ s.trace }

/-- The uniform error handler: mode and state `Inactive`, chip-select released, the code in `RES`, the sequencer idle; every other
field keeps its value (60_exceptions.md R370, R371; part of it the spec's own decisions D3, D22 and D36, log 18). -/
def Obligations.UniformErrorHandler : Prop :=
  ∀ (s : State) (c : Code), failHandler c s = { s with
    session := { s.session with mode := .inactive, state := .inactive }
    res := c
    seq := .idleSeq
    csLevel := .deasserted
    trace := .csDeassert :: s.trace }

/-- Whatever fails, in whatever state and whatever the environment answers: a public operation that ends with a code other than
`OK` and `E_REFUSED` leaves the session `Inactive`, chip-select released and the sequencer idle (10_state.md R34 d,
60_exceptions.md R370). -/
def Obligations.FailureForcesInactive : Prop :=
  ∀ (s t : State) (i : Instr) (x y z : Word),
    i ∈ [.initializeOp x y z, .readBlock x y, .writeBlock x y, .readMultipleBlock x y z, .writeMultipleBlock x y z,
      .readStatus, .getWrittenBlockCount] →
    exec i s = .next t → t.res ≠ .ok → t.res ≠ .refused →
    t.session.mode = .inactive ∧ t.session.state = .inactive ∧ t.csLevel = .deasserted ∧ t.seq = .idleSeq

/-- Whatever the environment answers, a transfer that ends with `OK` was admitted and leaves the session in
`(Transfer, Standby)`; an `INITIALIZE` that ends with `OK` leaves it usable, with the constant table (10_state.md R34 e, 44_init.md
R250). Chip-select is released. -/
def Obligations.SuccessLeavesTheSessionReady : Prop :=
  ∀ (s t : State) (x y z : Word),
    (exec (.initializeOp x y z) s = .next t → t.res = .ok → t.usable ∧ t.table = crc7Table ∧ t.seq = .idleSeq) ∧
    ∀ i ∈ [.readBlock x y, .writeBlock x y, .readMultipleBlock x y z, .writeMultipleBlock x y z, .readStatus,
        .getWrittenBlockCount],
      exec i s = .next t → t.res = .ok →
      admitted s = true ∧ t.session.mode = .transfer ∧ t.session.state = .standby ∧ t.csLevel = .deasserted ∧
        t.seq = .idleSeq

/-- Admission: outside `(Transfer, Standby)` the six transfer operations complete at once with `E_REFUSED`, and nothing else
changes: no wire activity, no chip-select change, no session field (45_transfer.md R280, 60_exceptions.md R372). That a refused
operation does not load the operand registers is the model's choice: log 28. -/
def Obligations.RefusedUnlessAdmitted : Prop :=
  ∀ (s : State) (x y z : Word), s.seq = .idleSeq → ¬(s.session.mode = .transfer ∧ s.session.state = .standby) →
    ∀ i ∈ [.readBlock x y, .writeBlock x y, .readMultipleBlock x y z, .writeMultipleBlock x y z, .readStatus,
        .getWrittenBlockCount],
      exec i s = .next { s with res := .refused }

/-- The preconditions of the sequences (40_crc7.md R137, 42_command_response.md R173, 20_memory.md R73): a command without the
table, an application command in mode `Inactive`, and an odd block length of a transfer with a payload are refused before anything
is sent, the four block commands and the four block operations alike (60_exceptions.md R372). A transfer of no block has no
payload (45_transfer.md R293), so the length does not matter to it. That they are refused with `E_REFUSED` is the model's choice
among those the spec gives (log 14). That a refused operation does not load the operand registers is the model's choice: log 28. -/
def Obligations.PreconditionsRefused : Prop :=
  ∀ (s : State) (arg x y z : Word) (crc : BitVec 7),
    (s.tableValid = false →
      ∀ i ∈ [.cmd0 arg crc, .cmd8 arg crc, .cmd9 arg crc, .cmd10 arg crc, .cmd12 arg crc, .cmd13 arg crc, .cmd16 arg crc,
          .cmd17 arg crc, .cmd18 arg crc, .cmd24 arg crc, .cmd25 arg crc, .cmd55 arg crc, .cmd58 arg crc, .acmd22 arg crc,
          .acmd41 arg crc],
        exec i s = .next { s with work.seqResult := .refused }) ∧
    (s.session.mode = .inactive →
      ∀ i ∈ [.cmd55 arg crc, .acmd22 arg crc, .acmd41 arg crc], exec i s = .next { s with work.seqResult := .refused }) ∧
    (s.session.blockSize.toNat % 2 = 1 →
      (∀ i ∈ [.cmd17 arg crc, .cmd24 arg crc], exec i s = .next { s with work.seqResult := .refused }) ∧
      (s.operands.count ≠ 0#32 →
        ∀ i ∈ [.cmd18 arg crc, .cmd25 arg crc], exec i s = .next { s with work.seqResult := .refused }) ∧
      (s.seq = .idleSeq → ∀ i ∈ [.readBlock x y, .writeBlock x y], exec i s = .next { s with res := .refused }) ∧
      (s.seq = .idleSeq → z ≠ 0#32 →
        ∀ i ∈ [.readMultipleBlock x y z, .writeMultipleBlock x y z], exec i s = .next { s with res := .refused }))

/-- No public operation starts while another runs: the document defines no behaviour, and the model stops by name
(70_reset_and_hazards.md R417; log 17). -/
def Obligations.NoSecondOperation : Prop :=
  ∀ (s : State) (x y z : Word), s.seq ≠ .idleSeq →
    ∀ i ∈ [.crc7Build, .initializeOp x y z, .readBlock x y, .writeBlock x y, .readMultipleBlock x y z,
        .writeMultipleBlock x y z, .readStatus, .getWrittenBlockCount],
      exec i s = .refused .operationInProgress

/-- The bracket: every transfer that is not refused asserts chip-select first and releases it last, and all it does between is
exchanges of bytes (45_transfer.md R281). -/
def Obligations.ChipSelectBracketsATransfer : Prop :=
  ∀ (s t : State) (x y z : Word),
    ∀ i ∈ [.readBlock x y, .writeBlock x y, .readMultipleBlock x y z, .writeMultipleBlock x y z, .readStatus,
        .getWrittenBlockCount],
      exec i s = .next t → t.res ≠ .refused →
      ∃ events : List Event, t.trace = .csDeassert :: events ++ .csAssert :: s.trace ∧
        ∀ e ∈ events, e.isExchange = true

/-! ### Frames: what each instruction leaves unchanged, whatever the environment answers -/

/-- The commands that move no block: each writes `S.lastR1`, the frame and poll registers and the result of the sequence, and
beside these `CMD8` writes `R7`, `CMD58` `S.OCR`, `CMD13` `S.lastR2`, `CMD12` the timestamp of its drain, `CMD9` `S.CSD`, `CMD10`
`S.CID` and `ACMD22` the count and its scratch, the last three also the receiver's registers. Every other register and every byte
of memory is as before. What an instruction run alone reads and writes, and what the working registers hold afterwards, is the
model's choice: logs 26 to 31. -/
def Obligations.CommandFrame : Prop :=
  ∀ (s t : State) (arg : Word) (crc : BitVec 7),
    (∀ i ∈ [Instr.cmd0 arg crc, .cmd16 arg crc, .cmd55 arg crc, .acmd41 arg crc], exec i s = .next t →
      { t with
        session.lastR1 := s.session.lastR1
        work := { t.work with fr := s.work.fr, tries := s.work.tries, seqResult := s.work.seqResult }
        wire := s.wire
        trace := s.trace } = s) ∧
    (exec (.cmd8 arg crc) s = .next t →
      { t with
        session.lastR1 := s.session.lastR1
        work := { t.work with fr := s.work.fr, tries := s.work.tries, r7 := s.work.r7, seqResult := s.work.seqResult }
        wire := s.wire
        trace := s.trace } = s) ∧
    (exec (.cmd58 arg crc) s = .next t →
      { t with
        session := { t.session with lastR1 := s.session.lastR1, ocr := s.session.ocr }
        work := { t.work with fr := s.work.fr, tries := s.work.tries, seqResult := s.work.seqResult }
        wire := s.wire
        trace := s.trace } = s) ∧
    (exec (.cmd13 arg crc) s = .next t →
      { t with
        session := { t.session with lastR1 := s.session.lastR1, lastR2 := s.session.lastR2 }
        work := { t.work with fr := s.work.fr, tries := s.work.tries, seqResult := s.work.seqResult }
        wire := s.wire
        trace := s.trace } = s) ∧
    (exec (.cmd12 arg crc) s = .next t →
      { t with
        session.lastR1 := s.session.lastR1
        work := { t.work with fr := s.work.fr, tries := s.work.tries, t0 := s.work.t0, seqResult := s.work.seqResult }
        wire := s.wire
        timer := s.timer
        nowCount := s.nowCount
        trace := s.trace } = s) ∧
    (exec (.cmd9 arg crc) s = .next t →
      { t with
        session := { t.session with lastR1 := s.session.lastR1, csd := s.session.csd }
        work := { t.work with
          fr := s.work.fr, tries := s.work.tries, crcRx := s.work.crcRx, crcErr := s.work.crcErr, k := s.work.k,
          seqResult := s.work.seqResult }
        wire := s.wire
        trace := s.trace } = s) ∧
    (exec (.cmd10 arg crc) s = .next t →
      { t with
        session := { t.session with lastR1 := s.session.lastR1, cid := s.session.cid }
        work := { t.work with
          fr := s.work.fr, tries := s.work.tries, crcRx := s.work.crcRx, crcErr := s.work.crcErr, k := s.work.k,
          seqResult := s.work.seqResult }
        wire := s.wire
        trace := s.trace } = s) ∧
    (exec (.acmd22 arg crc) s = .next t →
      { t with
        session := { t.session with
          lastR1 := s.session.lastR1, lastWrittenBlockCount := s.session.lastWrittenBlockCount }
        work := { t.work with
          fr := s.work.fr, tries := s.work.tries, crcRx := s.work.crcRx, crcErr := s.work.crcErr, w := s.work.w,
          k := s.work.k, seqResult := s.work.seqResult }
        wire := s.wire
        trace := s.trace } = s)

/-- The commands that move blocks. `CMD17` and `CMD18` write `S.lastR1`, the receiver's registers and the lent part of the buffer,
one block and `COUNT` blocks from `BUF` on; every byte of memory outside reads as before. `CMD24` and `CMD25` write `S.lastR1` and
the sender's registers; every byte of memory is as before. What an instruction run alone reads and writes, and what the working
registers hold afterwards, is the model's choice: logs 26 to 31. -/
def Obligations.BlockCommandFrame : Prop :=
  (∀ (s t : State) (arg : Word) (crc : BitVec 7), Memory.wf s.mem = true →
    (exec (.cmd17 arg crc) s = .next t →
      { t with
        session.lastR1 := s.session.lastR1
        work := { t.work with
          fr := s.work.fr, tries := s.work.tries, crcRx := s.work.crcRx, crcErr := s.work.crcErr, k := s.work.k,
          seqResult := s.work.seqResult }
        mem := s.mem
        wire := s.wire
        trace := s.trace } = s ∧
      ∀ x, ¬(s.operands.buf.toNat ≤ x ∧ x < s.operands.buf.toNat + s.session.blockSize.toNat) →
        Memory.read t.mem x = Memory.read s.mem x) ∧
    (exec (.cmd18 arg crc) s = .next t →
      { t with
        session.lastR1 := s.session.lastR1
        work := { t.work with
          fr := s.work.fr, tries := s.work.tries, crcRx := s.work.crcRx, crcErr := s.work.crcErr, i := s.work.i,
          k := s.work.k, seqResult := s.work.seqResult }
        mem := s.mem
        wire := s.wire
        trace := s.trace } = s ∧
      ∀ x, ¬(s.operands.buf.toNat ≤ x ∧
          x < s.operands.buf.toNat + s.operands.count.toNat * s.session.blockSize.toNat) →
        Memory.read t.mem x = Memory.read s.mem x)) ∧
  ∀ (s t : State) (arg : Word) (crc : BitVec 7),
    (exec (.cmd24 arg crc) s = .next t →
      { t with
        session.lastR1 := s.session.lastR1
        work := { t.work with
          fr := s.work.fr, tries := s.work.tries, crcTx := s.work.crcTx, k := s.work.k, t0 := s.work.t0,
          seqResult := s.work.seqResult }
        wire := s.wire
        timer := s.timer
        nowCount := s.nowCount
        trace := s.trace } = s) ∧
    (exec (.cmd25 arg crc) s = .next t →
      { t with
        session.lastR1 := s.session.lastR1
        work := { t.work with
          fr := s.work.fr, tries := s.work.tries, crcTx := s.work.crcTx, i := s.work.i, k := s.work.k, t0 := s.work.t0,
          seqResult := s.work.seqResult }
        wire := s.wire
        timer := s.timer
        nowCount := s.nowCount
        trace := s.trace } = s)

/-- The tokens and the data responses write no session field and no byte of memory: only poll registers, the timestamp and the
result of the sequence. What an instruction run alone reads and writes, and what the working registers hold afterwards, is the
model's choice: logs 26 to 31. -/
def Obligations.TokenFrame : Prop :=
  ∀ (s t : State) (ignored : BitVec 3),
    (∀ i ∈ [Instr.tokenStart .sent, .tokenStart .received, .tokenMultiWrite, .tokenStopTran], exec i s = .next t →
      { t with
        work := { t.work with tries := s.work.tries, seqResult := s.work.seqResult }
        wire := s.wire
        trace := s.trace } = s) ∧
    (∀ i ∈ [Instr.drAccepted ignored, .drCrcError ignored, .drWriteError ignored], exec i s = .next t →
      { t with
        work := { t.work with t0 := s.work.t0, seqResult := s.work.seqResult }
        wire := s.wire
        timer := s.timer
        nowCount := s.nowCount
        trace := s.trace } = s)

/-- The six transfers, whatever happens. Of the session they write mode, state and `S.lastR1`, the writes and `READ_STATUS` also
`S.lastR2`, the multi-block write and the count query also `S.lastWrittenBlockCount`; the table, the clock profile and the
snapshots are as before. The two reads write the lent part of the buffer and no other byte of memory; the others write none. What
`seqResult`, the operand registers and the working registers hold afterwards is the model's choice: logs 25, 28, 30. -/
def Obligations.TransferFrame : Prop :=
  (∀ (s t : State) (addr buf count : Word), Memory.wf s.mem = true →
    (exec (.readBlock addr buf) s = .next t →
      { t with
        session := { t.session with mode := s.session.mode, state := s.session.state, lastR1 := s.session.lastR1 }
        work := { t.work with
          fr := s.work.fr, tries := s.work.tries, crcRx := s.work.crcRx, crcErr := s.work.crcErr, k := s.work.k,
          seqResult := s.work.seqResult }
        operands := { t.operands with op := s.operands.op, addr := s.operands.addr, buf := s.operands.buf }
        res := s.res
        csLevel := s.csLevel
        mem := s.mem
        wire := s.wire
        trace := s.trace } = s ∧
      ∀ x, ¬(buf.toNat ≤ x ∧ x < buf.toNat + s.session.blockSize.toNat) → Memory.read t.mem x = Memory.read s.mem x) ∧
    (exec (.readMultipleBlock addr buf count) s = .next t →
      { t with
        session := { t.session with mode := s.session.mode, state := s.session.state, lastR1 := s.session.lastR1 }
        work := { t.work with
          fr := s.work.fr, tries := s.work.tries, crcRx := s.work.crcRx, crcErr := s.work.crcErr, i := s.work.i,
          k := s.work.k, t0 := s.work.t0, seqResult := s.work.seqResult }
        operands := { t.operands with
          op := s.operands.op, addr := s.operands.addr, buf := s.operands.buf, count := s.operands.count }
        res := s.res
        csLevel := s.csLevel
        mem := s.mem
        wire := s.wire
        timer := s.timer
        nowCount := s.nowCount
        trace := s.trace } = s ∧
      ∀ x, ¬(buf.toNat ≤ x ∧ x < buf.toNat + count.toNat * s.session.blockSize.toNat) →
        Memory.read t.mem x = Memory.read s.mem x)) ∧
  ∀ (s t : State) (addr buf count : Word),
    (exec (.writeBlock addr buf) s = .next t →
      { t with
        session := { t.session with
          mode := s.session.mode, state := s.session.state, lastR1 := s.session.lastR1, lastR2 := s.session.lastR2 }
        work := { t.work with
          fr := s.work.fr, tries := s.work.tries, crcTx := s.work.crcTx, k := s.work.k, t0 := s.work.t0,
          seqResult := s.work.seqResult }
        operands := { t.operands with op := s.operands.op, addr := s.operands.addr, buf := s.operands.buf }
        res := s.res
        csLevel := s.csLevel
        wire := s.wire
        timer := s.timer
        nowCount := s.nowCount
        trace := s.trace } = s) ∧
    (exec (.writeMultipleBlock addr buf count) s = .next t →
      { t with
        session := { t.session with
          mode := s.session.mode, state := s.session.state, lastR1 := s.session.lastR1, lastR2 := s.session.lastR2,
          lastWrittenBlockCount := s.session.lastWrittenBlockCount }
        work := { t.work with
          fr := s.work.fr, tries := s.work.tries, crcTx := s.work.crcTx, crcRx := s.work.crcRx, crcErr := s.work.crcErr,
          w := s.work.w, i := s.work.i, k := s.work.k, t0 := s.work.t0, seqResult := s.work.seqResult }
        operands := { t.operands with
          op := s.operands.op, addr := s.operands.addr, buf := s.operands.buf, count := s.operands.count }
        res := s.res
        csLevel := s.csLevel
        wire := s.wire
        timer := s.timer
        nowCount := s.nowCount
        trace := s.trace } = s) ∧
    (exec .readStatus s = .next t →
      { t with
        session := { t.session with
          mode := s.session.mode, state := s.session.state, lastR1 := s.session.lastR1, lastR2 := s.session.lastR2 }
        work := { t.work with fr := s.work.fr, tries := s.work.tries, seqResult := s.work.seqResult }
        operands.op := s.operands.op
        res := s.res
        csLevel := s.csLevel
        wire := s.wire
        trace := s.trace } = s) ∧
    (exec .getWrittenBlockCount s = .next t →
      { t with
        session := { t.session with
          mode := s.session.mode, state := s.session.state, lastR1 := s.session.lastR1,
          lastWrittenBlockCount := s.session.lastWrittenBlockCount }
        work := { t.work with
          fr := s.work.fr, tries := s.work.tries, crcRx := s.work.crcRx, crcErr := s.work.crcErr, w := s.work.w,
          k := s.work.k, seqResult := s.work.seqResult }
        operands.op := s.operands.op
        res := s.res
        csLevel := s.csLevel
        wire := s.wire
        trace := s.trace } = s)

/-- `INITIALIZE`, whatever happens: `S.lastR2`, the written-block count, the sender's registers, the block index, the address,
count and buffer operands and every byte of memory are as before, and the configuration is that of the operand (10_state.md R20 to
R33). That the operand registers keep the operands, and those without an operand their values, is the model's choice, log 28; that
the working registers `INITIALIZE` does not use keep theirs is log 30. That the session fields named are kept follows from their
writers (R27, R33). -/
def Obligations.InitializeFrame : Prop :=
  ∀ (s t : State) (transport cs busClockHz : Word), exec (.initializeOp transport cs busClockHz) s = .next t →
    t.session.transport = transport ∧ t.session.cs = cs ∧ t.session.busClockHz = busClockHz ∧
    t.session.lastR2 = s.session.lastR2 ∧ t.session.lastWrittenBlockCount = s.session.lastWrittenBlockCount ∧
    t.table = crc7Table ∧ t.tableValid = true ∧
    t.work.crcTx = s.work.crcTx ∧ t.work.w = s.work.w ∧ t.work.i = s.work.i ∧
    t.operands = { s.operands with op := .initSession, cfg := ⟨transport, cs, busClockHz⟩ } ∧
    t.seq = .idleSeq ∧ t.mem = s.mem ∧ t.pending = s.pending ∧ t.params = s.params

/-- Bit 7 of `S.lastR1` stays clear: whatever runs, the register keeps its value or takes a byte with bit 7 clear
(10_state.md R26). -/
def Obligations.LastR1HasBit7Clear : Prop :=
  ∀ (i : Instr) (s t : State), exec i s = .next t →
    t.session.lastR1 = s.session.lastR1 ∨ t.session.lastR1.getLsbD 7 = false

/-! ### Addresses, capacities, register fields -/

/-- The address translation: the argument is the byte address, truncated to 32 bits, for `SDSC`, else the block address; the
document's example, block 10 of a 512-byte `SDSC` session, is 5120; a byte address of 512-byte blocks is a multiple of 512;
under the host's duty nothing is truncated. -/
def Obligations.AddressTranslation : Prop :=
  (∀ (s : Session) (a : Word),
    (s.capacityClass = .sdsc → xlate s a = BitVec.ofNat 32 (a.toNat * s.blockSize.toNat)) ∧
    (s.capacityClass ≠ .sdsc → xlate s a = a)) ∧
  (∀ s : Session, s.capacityClass = .sdsc → s.blockSize = 512#32 →
    xlate s 10#32 = 5120#32 ∧ ∀ a : Word, (xlate s a).toNat % 512 = 0) ∧
  ∀ (s : State) (a : Word), s.session.capacityClass = .sdsc → s.addressDuty a →
    (xlate s.session a).toNat = a.toNat * s.session.blockSize.toNat

/-- The two capacity formulas, exactly, for every CSD, with no overflow: version 2 is `(C_SIZE + 1) × 524288` bytes, version 1 is
`(C_SIZE + 1) × 2^(C_SIZE_MULT + 2) × 512` bytes, the last factor 512 whatever `READ_BL_LEN` says; the decoded records carry the
capacity, and the block size 512. The bits of `C_SIZE` and `C_SIZE_MULT` are general knowledge (46_register_decoder.md R333, R335;
decision D21, log 18). -/
def Obligations.Capacities : Prop :=
  ∀ csd : Vector Byte 16,
    (decodeCsdV2 csd).blockSize = 512#32 ∧
    (decodeCsdV2 csd).capacityBytes.toNat =
      ((csd[7].toNat % 64) * 65536 + csd[8].toNat * 256 + csd[9].toNat + 1) * 524288 ∧
    (decodeCsdV1 csd).blockSize = 512#32 ∧
    (decodeCsdV1 csd).capacityBytes.toNat =
      ((csd[6].toNat % 4) * 1024 + csd[7].toNat * 4 + csd[8].toNat / 64 + 1) *
        2 ^ ((csd[9].toNat % 4) * 2 + csd[10].toNat / 128 + 2) * 512

/-- The fields the engine itself uses stand at the bits of the registers that 46_register_decoder.md R331 to R335 name:
`CCS = OCR[30]`, `C_SIZE = CSD[69:48]` and `CSD[73:62]`, `C_SIZE_MULT = CSD[49:47]`. -/
def Obligations.FieldPositions : Prop :=
  (∀ ocr : Vector Byte 4, ccs ocr = (ocrBits ocr).getLsbD 30) ∧
  ∀ csd : Vector Byte 16,
    csizeV2 csd = (snapshotBits csd).extractLsb' 48 22 ∧ csizeV1 csd = (snapshotBits csd).extractLsb' 62 12 ∧
    cmultV1 csd = (snapshotBits csd).extractLsb' 47 3

/-- The CSD decoder chooses its variant by the session's version alone: two sessions with one version and one CSD decode alike,
version 1 by the version-1 layout, version 2 by the version-2 layout, and an undetermined version is refused; `CSD_STRUCTURE` is
returned and not consulted. -/
def Obligations.CsdVariantByVersion : Prop :=
  ∀ s : Session,
    (s.specVersion = .v1 → decodeCsd s = some (.v1 (decodeCsdV1 s.csd))) ∧
    (s.specVersion = .v2 → decodeCsd s = some (.v2 (decodeCsdV2 s.csd))) ∧
    (s.specVersion = .undetermined → decodeCsd s = none) ∧
    (decodeCsdV1 s.csd).common.csdStructure = (snapshotBits s.csd).extractLsb' 126 2 ∧
    (decodeCsdV2 s.csd).common.csdStructure = (snapshotBits s.csd).extractLsb' 126 2

end Statements
end

