-- ==== Sys2Proof/Laws/Memory.lean ====
section
/-! SUPPORT. The host's memory: every write keeps the canonical form, a read after a write gives the value, every other address
reads as before, and equal memories are equal lists. -/

namespace Sys2Proof.Machine

/-- Every listed address is above `lo`. -/
def Memory.above (lo : Nat) (m : Memory) : Prop := ∀ c ∈ m, lo < c.1

theorem Memory.wf_cons (c : Host.Cell) (m : Memory) :
    Memory.wf (c :: m) = true ↔ c.2 ≠ Memory.unlisted ∧ Memory.above c.1 m ∧ Memory.wf m = true := by
  induction m generalizing c with
  | nil => simp [Memory.wf, Memory.above]
  | cons d m ih =>
    have h := ih d
    simp only [Memory.wf, Memory.above, Bool.and_eq_true, bne_iff_ne, ne_eq, decide_eq_true_eq, List.mem_cons,
      forall_eq_or_imp] at h ⊢
    constructor
    · rintro ⟨⟨h1, h2⟩, h3⟩
      exact ⟨h1, ⟨h2, fun x hx => lt_trans h2 ((h.1 h3).2.1 x hx)⟩, h3⟩
    · rintro ⟨h1, ⟨h2, _⟩, h3⟩
      exact ⟨⟨h1, h2⟩, h3⟩

theorem Memory.mem_insert (m : Memory) (a : Nat) (v : Byte) (c : Host.Cell) (h : c ∈ Memory.insert m a v) :
    c = (a, v) ∨ c ∈ m := by
  induction m with
  | nil => simpa [Memory.insert] using h
  | cons d m ih =>
    simp only [Memory.insert] at h
    split at h
    · simpa using h
    · split at h
      · rcases List.mem_cons.1 h with h | h <;> simp [h]
      · rcases List.mem_cons.1 h with h | h
        · simp [h]
        · rcases ih h with h | h <;> simp [h]

theorem Memory.mem_erase (m : Memory) (a : Nat) (c : Host.Cell) (h : c ∈ Memory.erase m a) : c ∈ m := by
  induction m with
  | nil => simp [Memory.erase] at h
  | cons d m ih =>
    simp only [Memory.erase] at h
    split at h
    · simp [h]
    · rcases List.mem_cons.1 h with h | h
      · simp [h]
      · simp [ih h]

theorem Memory.insert_wf (m : Memory) (a : Nat) (v : Byte) (hv : v ≠ Memory.unlisted) (h : Memory.wf m = true) :
    Memory.wf (Memory.insert m a v) = true := by
  induction m with
  | nil => simpa [Memory.insert, Memory.wf] using hv
  | cons d m ih =>
    have hd := (Memory.wf_cons d m).1 h
    simp only [Memory.insert]
    split
    · rename_i hlt
      refine (Memory.wf_cons _ _).2 ⟨hv, ?_, h⟩
      intro c hc
      rcases List.mem_cons.1 hc with rfl | hc
      · exact hlt
      · exact lt_trans hlt (hd.2.1 c hc)
    · split
      · rename_i he
        exact (Memory.wf_cons _ _).2 ⟨hv, by simpa [he] using hd.2.1, hd.2.2⟩
      · rename_i hn he
        refine (Memory.wf_cons _ _).2 ⟨hd.1, ?_, ih hd.2.2⟩
        intro c hc
        rcases Memory.mem_insert m a v c hc with rfl | hc
        · show d.1 < a
          omega
        · exact hd.2.1 c hc

theorem Memory.erase_wf (m : Memory) (a : Nat) (h : Memory.wf m = true) : Memory.wf (Memory.erase m a) = true := by
  induction m with
  | nil => rfl
  | cons d m ih =>
    have hd := (Memory.wf_cons d m).1 h
    simp only [Memory.erase]
    split
    · exact hd.2.2
    · exact (Memory.wf_cons _ _).2 ⟨hd.1, fun c hc => hd.2.1 c (Memory.mem_erase m a c hc), ih hd.2.2⟩

/-- A write keeps the canonical form. -/
theorem Memory.write_wf (m : Memory) (a : Nat) (v : Byte) (h : Memory.wf m = true) :
    Memory.wf (Memory.write m a v) = true := by
  unfold Memory.write
  split
  · exact Memory.erase_wf m a h
  · rename_i hv
    exact Memory.insert_wf m a v hv h

theorem Memory.read_insert (m : Memory) (a b : Nat) (v : Byte) :
    Memory.read (Memory.insert m a v) b = if a = b then v else Memory.read m b := by
  induction m with
  | nil => simp [Memory.insert, Memory.read]
  | cons d m ih =>
    simp only [Memory.insert]
    split
    · simp [Memory.read]
    · split
      · rename_i he
        by_cases hab : a = b
        · simp [Memory.read, hab]
        · simp [Memory.read, hab, he]
      · rename_i hne
        simp only [Memory.read, ih]
        by_cases hdb : d.1 = b
        · have : a ≠ b := fun h => hne (hdb.trans h.symm)
          simp [hdb, this]
        · simp [hdb]

theorem Memory.read_above (m : Memory) (a : Nat) (h : Memory.above a m) : Memory.read m a = Memory.unlisted := by
  induction m with
  | nil => rfl
  | cons d m ih =>
    have hd : a < d.1 := h d (by simp)
    simp only [Memory.read, if_neg (Nat.ne_of_gt hd)]
    exact ih fun c hc => h c (by simp [hc])

theorem Memory.read_erase (m : Memory) (a b : Nat) (h : Memory.wf m = true) :
    Memory.read (Memory.erase m a) b = if a = b then Memory.unlisted else Memory.read m b := by
  induction m with
  | nil => simp [Memory.erase, Memory.read]
  | cons d m ih =>
    have hd := (Memory.wf_cons d m).1 h
    simp only [Memory.erase]
    split
    · rename_i he
      by_cases hab : a = b
      · subst hab
        simpa using Memory.read_above m a (he ▸ hd.2.1)
      · simp [Memory.read, hab, he]
    · rename_i hne
      simp only [Memory.read, ih hd.2.2]
      by_cases hdb : d.1 = b
      · have : a ≠ b := fun h => hne (hdb.trans h.symm)
        simp [hdb, this]
      · simp [hdb]

/-- Read after write: the value there, every other address as before. -/
theorem Memory.read_write (m : Memory) (a b : Nat) (v : Byte) (h : Memory.wf m = true) :
    Memory.read (Memory.write m a v) b = if a = b then v else Memory.read m b := by
  unfold Memory.write
  split
  · rename_i hv
    rw [Memory.read_erase m a b h, hv]
  · exact Memory.read_insert m a b v

/-- The canonical form is canonical: memories that read alike are equal. -/
theorem Memory.ext_of_read (m n : Memory) (hm : Memory.wf m = true) (hn : Memory.wf n = true)
    (h : ∀ a, Memory.read m a = Memory.read n a) : m = n := by
  induction m generalizing n with
  | nil =>
    cases n with
    | nil => rfl
    | cons d n =>
      have hd := (Memory.wf_cons d n).1 hn
      exact absurd (by simpa [Memory.read] using (h d.1).symm) hd.1
  | cons c m ih =>
    have hc := (Memory.wf_cons c m).1 hm
    cases n with
    | nil => exact absurd (by simpa [Memory.read] using h c.1) hc.1
    | cons d n =>
      have hd := (Memory.wf_cons d n).1 hn
      have haddr : c.1 = d.1 := by
        rcases lt_trichotomy c.1 d.1 with hlt | heq | hgt
        · have := h c.1
          rw [Memory.read_above (d :: n) c.1 fun x hx => by
            rcases List.mem_cons.1 hx with rfl | hx
            · exact hlt
            · exact lt_trans hlt (hd.2.1 x hx)] at this
          exact absurd (by simpa [Memory.read] using this) hc.1
        · exact heq
        · have := h d.1
          rw [Memory.read_above (c :: m) d.1 fun x hx => by
            rcases List.mem_cons.1 hx with rfl | hx
            · exact hgt
            · exact lt_trans hgt (hc.2.1 x hx)] at this
          exact absurd (by simpa [Memory.read] using this.symm) hd.1
      have hval : c.2 = d.2 := by simpa [Memory.read, haddr] using h d.1
      have hcd : c = d := Prod.ext haddr hval
      subst hcd
      congr 1
      refine ih n hc.2.2 hd.2.2 fun a => ?_
      by_cases ha : c.1 = a
      · subst ha
        rw [Memory.read_above m c.1 hc.2.1, Memory.read_above n c.1 hd.2.1]
      · simpa [Memory.read, ha] using h a

end Sys2Proof.Machine
end

