-- ==== Sys2Proof/Laws/State.lean ====
section
/-! SUPPORT. One lemma per field for each named update of the state. -/

namespace Sys2Proof.Machine

variable (s : State)

/-! ### csAssert -/

@[simp] theorem csAssert_session : (csAssert s).session = s.session := rfl
@[simp] theorem csAssert_table : (csAssert s).table = s.table := rfl
@[simp] theorem csAssert_tableValid : (csAssert s).tableValid = s.tableValid := rfl
@[simp] theorem csAssert_work : (csAssert s).work = s.work := rfl
@[simp] theorem csAssert_operands : (csAssert s).operands = s.operands := rfl
@[simp] theorem csAssert_res : (csAssert s).res = s.res := rfl
@[simp] theorem csAssert_seq : (csAssert s).seq = s.seq := rfl
@[simp] theorem csAssert_csLevel : (csAssert s).csLevel = .asserted := rfl
@[simp] theorem csAssert_clockProfile : (csAssert s).clockProfile = s.clockProfile := rfl
@[simp] theorem csAssert_mem : (csAssert s).mem = s.mem := rfl
@[simp] theorem csAssert_wire : (csAssert s).wire = s.wire := rfl
@[simp] theorem csAssert_timer : (csAssert s).timer = s.timer := rfl
@[simp] theorem csAssert_nowCount : (csAssert s).nowCount = s.nowCount := rfl
@[simp] theorem csAssert_trace : (csAssert s).trace = .csAssert :: s.trace := rfl
@[simp] theorem csAssert_pending : (csAssert s).pending = s.pending := rfl
@[simp] theorem csAssert_params : (csAssert s).params = s.params := rfl

/-! ### csDeassert -/

@[simp] theorem csDeassert_session : (csDeassert s).session = s.session := rfl
@[simp] theorem csDeassert_table : (csDeassert s).table = s.table := rfl
@[simp] theorem csDeassert_tableValid : (csDeassert s).tableValid = s.tableValid := rfl
@[simp] theorem csDeassert_work : (csDeassert s).work = s.work := rfl
@[simp] theorem csDeassert_operands : (csDeassert s).operands = s.operands := rfl
@[simp] theorem csDeassert_res : (csDeassert s).res = s.res := rfl
@[simp] theorem csDeassert_seq : (csDeassert s).seq = s.seq := rfl
@[simp] theorem csDeassert_csLevel : (csDeassert s).csLevel = .deasserted := rfl
@[simp] theorem csDeassert_clockProfile : (csDeassert s).clockProfile = s.clockProfile := rfl
@[simp] theorem csDeassert_mem : (csDeassert s).mem = s.mem := rfl
@[simp] theorem csDeassert_wire : (csDeassert s).wire = s.wire := rfl
@[simp] theorem csDeassert_timer : (csDeassert s).timer = s.timer := rfl
@[simp] theorem csDeassert_nowCount : (csDeassert s).nowCount = s.nowCount := rfl
@[simp] theorem csDeassert_trace : (csDeassert s).trace = .csDeassert :: s.trace := rfl
@[simp] theorem csDeassert_pending : (csDeassert s).pending = s.pending := rfl
@[simp] theorem csDeassert_params : (csDeassert s).params = s.params := rfl

/-! ### setClock -/

@[simp] theorem setClock_session (p : ClockProfile) : (setClock p s).session = s.session := rfl
@[simp] theorem setClock_table (p : ClockProfile) : (setClock p s).table = s.table := rfl
@[simp] theorem setClock_tableValid (p : ClockProfile) : (setClock p s).tableValid = s.tableValid := rfl
@[simp] theorem setClock_work (p : ClockProfile) : (setClock p s).work = s.work := rfl
@[simp] theorem setClock_operands (p : ClockProfile) : (setClock p s).operands = s.operands := rfl
@[simp] theorem setClock_res (p : ClockProfile) : (setClock p s).res = s.res := rfl
@[simp] theorem setClock_seq (p : ClockProfile) : (setClock p s).seq = s.seq := rfl
@[simp] theorem setClock_csLevel (p : ClockProfile) : (setClock p s).csLevel = s.csLevel := rfl
@[simp] theorem setClock_clockProfile (p : ClockProfile) : (setClock p s).clockProfile = p := rfl
@[simp] theorem setClock_mem (p : ClockProfile) : (setClock p s).mem = s.mem := rfl
@[simp] theorem setClock_wire (p : ClockProfile) : (setClock p s).wire = s.wire := rfl
@[simp] theorem setClock_timer (p : ClockProfile) : (setClock p s).timer = s.timer := rfl
@[simp] theorem setClock_nowCount (p : ClockProfile) : (setClock p s).nowCount = s.nowCount := rfl
@[simp] theorem setClock_trace (p : ClockProfile) : (setClock p s).trace = .setClock p :: s.trace := rfl
@[simp] theorem setClock_pending (p : ClockProfile) : (setClock p s).pending = s.pending := rfl
@[simp] theorem setClock_params (p : ClockProfile) : (setClock p s).params = s.params := rfl

/-! ### startWait -/

@[simp] theorem startWait_session : (startWait s).session = s.session := rfl
@[simp] theorem startWait_table : (startWait s).table = s.table := rfl
@[simp] theorem startWait_tableValid : (startWait s).tableValid = s.tableValid := rfl
@[simp] theorem startWait_work : (startWait s).work = { s.work with t0 := Config.now s.nowCount } := rfl
@[simp] theorem startWait_operands : (startWait s).operands = s.operands := rfl
@[simp] theorem startWait_res : (startWait s).res = s.res := rfl
@[simp] theorem startWait_seq : (startWait s).seq = s.seq := rfl
@[simp] theorem startWait_csLevel : (startWait s).csLevel = s.csLevel := rfl
@[simp] theorem startWait_clockProfile : (startWait s).clockProfile = s.clockProfile := rfl
@[simp] theorem startWait_mem : (startWait s).mem = s.mem := rfl
@[simp] theorem startWait_wire : (startWait s).wire = s.wire := rfl
@[simp] theorem startWait_timer : (startWait s).timer = s.timer := rfl
@[simp] theorem startWait_nowCount : (startWait s).nowCount = s.nowCount + 1 := rfl
@[simp] theorem startWait_trace : (startWait s).trace = s.trace := rfl
@[simp] theorem startWait_pending : (startWait s).pending = s.pending := rfl
@[simp] theorem startWait_params : (startWait s).params = s.params := rfl

/-! ### setModeState -/

@[simp] theorem setModeState_session (m : Mode) (p : Phase) : (setModeState m p s).session = { s.session with mode := m, state := p } := rfl
@[simp] theorem setModeState_table (m : Mode) (p : Phase) : (setModeState m p s).table = s.table := rfl
@[simp] theorem setModeState_tableValid (m : Mode) (p : Phase) : (setModeState m p s).tableValid = s.tableValid := rfl
@[simp] theorem setModeState_work (m : Mode) (p : Phase) : (setModeState m p s).work = s.work := rfl
@[simp] theorem setModeState_operands (m : Mode) (p : Phase) : (setModeState m p s).operands = s.operands := rfl
@[simp] theorem setModeState_res (m : Mode) (p : Phase) : (setModeState m p s).res = s.res := rfl
@[simp] theorem setModeState_seq (m : Mode) (p : Phase) : (setModeState m p s).seq = s.seq := rfl
@[simp] theorem setModeState_csLevel (m : Mode) (p : Phase) : (setModeState m p s).csLevel = s.csLevel := rfl
@[simp] theorem setModeState_clockProfile (m : Mode) (p : Phase) : (setModeState m p s).clockProfile = s.clockProfile := rfl
@[simp] theorem setModeState_mem (m : Mode) (p : Phase) : (setModeState m p s).mem = s.mem := rfl
@[simp] theorem setModeState_wire (m : Mode) (p : Phase) : (setModeState m p s).wire = s.wire := rfl
@[simp] theorem setModeState_timer (m : Mode) (p : Phase) : (setModeState m p s).timer = s.timer := rfl
@[simp] theorem setModeState_nowCount (m : Mode) (p : Phase) : (setModeState m p s).nowCount = s.nowCount := rfl
@[simp] theorem setModeState_trace (m : Mode) (p : Phase) : (setModeState m p s).trace = s.trace := rfl
@[simp] theorem setModeState_pending (m : Mode) (p : Phase) : (setModeState m p s).pending = s.pending := rfl
@[simp] theorem setModeState_params (m : Mode) (p : Phase) : (setModeState m p s).params = s.params := rfl

/-! ### setState -/

@[simp] theorem setState_session (p : Phase) : (setState p s).session = { s.session with state := p } := rfl
@[simp] theorem setState_table (p : Phase) : (setState p s).table = s.table := rfl
@[simp] theorem setState_tableValid (p : Phase) : (setState p s).tableValid = s.tableValid := rfl
@[simp] theorem setState_work (p : Phase) : (setState p s).work = s.work := rfl
@[simp] theorem setState_operands (p : Phase) : (setState p s).operands = s.operands := rfl
@[simp] theorem setState_res (p : Phase) : (setState p s).res = s.res := rfl
@[simp] theorem setState_seq (p : Phase) : (setState p s).seq = s.seq := rfl
@[simp] theorem setState_csLevel (p : Phase) : (setState p s).csLevel = s.csLevel := rfl
@[simp] theorem setState_clockProfile (p : Phase) : (setState p s).clockProfile = s.clockProfile := rfl
@[simp] theorem setState_mem (p : Phase) : (setState p s).mem = s.mem := rfl
@[simp] theorem setState_wire (p : Phase) : (setState p s).wire = s.wire := rfl
@[simp] theorem setState_timer (p : Phase) : (setState p s).timer = s.timer := rfl
@[simp] theorem setState_nowCount (p : Phase) : (setState p s).nowCount = s.nowCount := rfl
@[simp] theorem setState_trace (p : Phase) : (setState p s).trace = s.trace := rfl
@[simp] theorem setState_pending (p : Phase) : (setState p s).pending = s.pending := rfl
@[simp] theorem setState_params (p : Phase) : (setState p s).params = s.params := rfl

/-! ### setSeq -/

@[simp] theorem setSeq_session (p : SeqPos) : (setSeq p s).session = s.session := rfl
@[simp] theorem setSeq_table (p : SeqPos) : (setSeq p s).table = s.table := rfl
@[simp] theorem setSeq_tableValid (p : SeqPos) : (setSeq p s).tableValid = s.tableValid := rfl
@[simp] theorem setSeq_work (p : SeqPos) : (setSeq p s).work = s.work := rfl
@[simp] theorem setSeq_operands (p : SeqPos) : (setSeq p s).operands = s.operands := rfl
@[simp] theorem setSeq_res (p : SeqPos) : (setSeq p s).res = s.res := rfl
@[simp] theorem setSeq_seq (p : SeqPos) : (setSeq p s).seq = p := rfl
@[simp] theorem setSeq_csLevel (p : SeqPos) : (setSeq p s).csLevel = s.csLevel := rfl
@[simp] theorem setSeq_clockProfile (p : SeqPos) : (setSeq p s).clockProfile = s.clockProfile := rfl
@[simp] theorem setSeq_mem (p : SeqPos) : (setSeq p s).mem = s.mem := rfl
@[simp] theorem setSeq_wire (p : SeqPos) : (setSeq p s).wire = s.wire := rfl
@[simp] theorem setSeq_timer (p : SeqPos) : (setSeq p s).timer = s.timer := rfl
@[simp] theorem setSeq_nowCount (p : SeqPos) : (setSeq p s).nowCount = s.nowCount := rfl
@[simp] theorem setSeq_trace (p : SeqPos) : (setSeq p s).trace = s.trace := rfl
@[simp] theorem setSeq_pending (p : SeqPos) : (setSeq p s).pending = s.pending := rfl
@[simp] theorem setSeq_params (p : SeqPos) : (setSeq p s).params = s.params := rfl

/-! ### setLastR1 -/

@[simp] theorem setLastR1_session (b : Byte) : (setLastR1 b s).session = { s.session with lastR1 := b } := rfl
@[simp] theorem setLastR1_table (b : Byte) : (setLastR1 b s).table = s.table := rfl
@[simp] theorem setLastR1_tableValid (b : Byte) : (setLastR1 b s).tableValid = s.tableValid := rfl
@[simp] theorem setLastR1_work (b : Byte) : (setLastR1 b s).work = s.work := rfl
@[simp] theorem setLastR1_operands (b : Byte) : (setLastR1 b s).operands = s.operands := rfl
@[simp] theorem setLastR1_res (b : Byte) : (setLastR1 b s).res = s.res := rfl
@[simp] theorem setLastR1_seq (b : Byte) : (setLastR1 b s).seq = s.seq := rfl
@[simp] theorem setLastR1_csLevel (b : Byte) : (setLastR1 b s).csLevel = s.csLevel := rfl
@[simp] theorem setLastR1_clockProfile (b : Byte) : (setLastR1 b s).clockProfile = s.clockProfile := rfl
@[simp] theorem setLastR1_mem (b : Byte) : (setLastR1 b s).mem = s.mem := rfl
@[simp] theorem setLastR1_wire (b : Byte) : (setLastR1 b s).wire = s.wire := rfl
@[simp] theorem setLastR1_timer (b : Byte) : (setLastR1 b s).timer = s.timer := rfl
@[simp] theorem setLastR1_nowCount (b : Byte) : (setLastR1 b s).nowCount = s.nowCount := rfl
@[simp] theorem setLastR1_trace (b : Byte) : (setLastR1 b s).trace = s.trace := rfl
@[simp] theorem setLastR1_pending (b : Byte) : (setLastR1 b s).pending = s.pending := rfl
@[simp] theorem setLastR1_params (b : Byte) : (setLastR1 b s).params = s.params := rfl

/-! ### setTries -/

@[simp] theorem setTries_session (n : Nat) : (setTries n s).session = s.session := rfl
@[simp] theorem setTries_table (n : Nat) : (setTries n s).table = s.table := rfl
@[simp] theorem setTries_tableValid (n : Nat) : (setTries n s).tableValid = s.tableValid := rfl
@[simp] theorem setTries_work (n : Nat) : (setTries n s).work = { s.work with tries := n } := rfl
@[simp] theorem setTries_operands (n : Nat) : (setTries n s).operands = s.operands := rfl
@[simp] theorem setTries_res (n : Nat) : (setTries n s).res = s.res := rfl
@[simp] theorem setTries_seq (n : Nat) : (setTries n s).seq = s.seq := rfl
@[simp] theorem setTries_csLevel (n : Nat) : (setTries n s).csLevel = s.csLevel := rfl
@[simp] theorem setTries_clockProfile (n : Nat) : (setTries n s).clockProfile = s.clockProfile := rfl
@[simp] theorem setTries_mem (n : Nat) : (setTries n s).mem = s.mem := rfl
@[simp] theorem setTries_wire (n : Nat) : (setTries n s).wire = s.wire := rfl
@[simp] theorem setTries_timer (n : Nat) : (setTries n s).timer = s.timer := rfl
@[simp] theorem setTries_nowCount (n : Nat) : (setTries n s).nowCount = s.nowCount := rfl
@[simp] theorem setTries_trace (n : Nat) : (setTries n s).trace = s.trace := rfl
@[simp] theorem setTries_pending (n : Nat) : (setTries n s).pending = s.pending := rfl
@[simp] theorem setTries_params (n : Nat) : (setTries n s).params = s.params := rfl

/-! ### setBlockIndex -/

@[simp] theorem setBlockIndex_session (n : Nat) : (setBlockIndex n s).session = s.session := rfl
@[simp] theorem setBlockIndex_table (n : Nat) : (setBlockIndex n s).table = s.table := rfl
@[simp] theorem setBlockIndex_tableValid (n : Nat) : (setBlockIndex n s).tableValid = s.tableValid := rfl
@[simp] theorem setBlockIndex_work (n : Nat) : (setBlockIndex n s).work = { s.work with i := n } := rfl
@[simp] theorem setBlockIndex_operands (n : Nat) : (setBlockIndex n s).operands = s.operands := rfl
@[simp] theorem setBlockIndex_res (n : Nat) : (setBlockIndex n s).res = s.res := rfl
@[simp] theorem setBlockIndex_seq (n : Nat) : (setBlockIndex n s).seq = s.seq := rfl
@[simp] theorem setBlockIndex_csLevel (n : Nat) : (setBlockIndex n s).csLevel = s.csLevel := rfl
@[simp] theorem setBlockIndex_clockProfile (n : Nat) : (setBlockIndex n s).clockProfile = s.clockProfile := rfl
@[simp] theorem setBlockIndex_mem (n : Nat) : (setBlockIndex n s).mem = s.mem := rfl
@[simp] theorem setBlockIndex_wire (n : Nat) : (setBlockIndex n s).wire = s.wire := rfl
@[simp] theorem setBlockIndex_timer (n : Nat) : (setBlockIndex n s).timer = s.timer := rfl
@[simp] theorem setBlockIndex_nowCount (n : Nat) : (setBlockIndex n s).nowCount = s.nowCount := rfl
@[simp] theorem setBlockIndex_trace (n : Nat) : (setBlockIndex n s).trace = s.trace := rfl
@[simp] theorem setBlockIndex_pending (n : Nat) : (setBlockIndex n s).pending = s.pending := rfl
@[simp] theorem setBlockIndex_params (n : Nat) : (setBlockIndex n s).params = s.params := rfl

/-! ### buildTable -/

@[simp] theorem buildTable_session : (buildTable s).session = s.session := rfl
@[simp] theorem buildTable_table : (buildTable s).table = crc7Table := rfl
@[simp] theorem buildTable_tableValid : (buildTable s).tableValid = true := rfl
@[simp] theorem buildTable_work : (buildTable s).work = s.work := rfl
@[simp] theorem buildTable_operands : (buildTable s).operands = s.operands := rfl
@[simp] theorem buildTable_res : (buildTable s).res = s.res := rfl
@[simp] theorem buildTable_seq : (buildTable s).seq = s.seq := rfl
@[simp] theorem buildTable_csLevel : (buildTable s).csLevel = s.csLevel := rfl
@[simp] theorem buildTable_clockProfile : (buildTable s).clockProfile = s.clockProfile := rfl
@[simp] theorem buildTable_mem : (buildTable s).mem = s.mem := rfl
@[simp] theorem buildTable_wire : (buildTable s).wire = s.wire := rfl
@[simp] theorem buildTable_timer : (buildTable s).timer = s.timer := rfl
@[simp] theorem buildTable_nowCount : (buildTable s).nowCount = s.nowCount := rfl
@[simp] theorem buildTable_trace : (buildTable s).trace = .buildTable :: s.trace := rfl
@[simp] theorem buildTable_pending : (buildTable s).pending = s.pending := rfl
@[simp] theorem buildTable_params : (buildTable s).params = s.params := rfl

/-! ### failHandler -/

@[simp] theorem failHandler_session (c : Code) : (failHandler c s).session = { s.session with mode := .inactive, state := .inactive } := rfl
@[simp] theorem failHandler_table (c : Code) : (failHandler c s).table = s.table := rfl
@[simp] theorem failHandler_tableValid (c : Code) : (failHandler c s).tableValid = s.tableValid := rfl
@[simp] theorem failHandler_work (c : Code) : (failHandler c s).work = s.work := rfl
@[simp] theorem failHandler_operands (c : Code) : (failHandler c s).operands = s.operands := rfl
@[simp] theorem failHandler_res (c : Code) : (failHandler c s).res = c := rfl
@[simp] theorem failHandler_seq (c : Code) : (failHandler c s).seq = .idleSeq := rfl
@[simp] theorem failHandler_csLevel (c : Code) : (failHandler c s).csLevel = .deasserted := rfl
@[simp] theorem failHandler_clockProfile (c : Code) : (failHandler c s).clockProfile = s.clockProfile := rfl
@[simp] theorem failHandler_mem (c : Code) : (failHandler c s).mem = s.mem := rfl
@[simp] theorem failHandler_wire (c : Code) : (failHandler c s).wire = s.wire := rfl
@[simp] theorem failHandler_timer (c : Code) : (failHandler c s).timer = s.timer := rfl
@[simp] theorem failHandler_nowCount (c : Code) : (failHandler c s).nowCount = s.nowCount := rfl
@[simp] theorem failHandler_trace (c : Code) : (failHandler c s).trace = .csDeassert :: s.trace := rfl
@[simp] theorem failHandler_pending (c : Code) : (failHandler c s).pending = s.pending := rfl
@[simp] theorem failHandler_params (c : Code) : (failHandler c s).params = s.params := rfl

/-! ### refuse -/

@[simp] theorem refuse_session : (refuse s).session = s.session := rfl
@[simp] theorem refuse_table : (refuse s).table = s.table := rfl
@[simp] theorem refuse_tableValid : (refuse s).tableValid = s.tableValid := rfl
@[simp] theorem refuse_work : (refuse s).work = s.work := rfl
@[simp] theorem refuse_operands : (refuse s).operands = s.operands := rfl
@[simp] theorem refuse_res : (refuse s).res = .refused := rfl
@[simp] theorem refuse_seq : (refuse s).seq = s.seq := rfl
@[simp] theorem refuse_csLevel : (refuse s).csLevel = s.csLevel := rfl
@[simp] theorem refuse_clockProfile : (refuse s).clockProfile = s.clockProfile := rfl
@[simp] theorem refuse_mem : (refuse s).mem = s.mem := rfl
@[simp] theorem refuse_wire : (refuse s).wire = s.wire := rfl
@[simp] theorem refuse_timer : (refuse s).timer = s.timer := rfl
@[simp] theorem refuse_nowCount : (refuse s).nowCount = s.nowCount := rfl
@[simp] theorem refuse_trace : (refuse s).trace = s.trace := rfl
@[simp] theorem refuse_pending : (refuse s).pending = s.pending := rfl
@[simp] theorem refuse_params : (refuse s).params = s.params := rfl

/-! ### startOp -/

@[simp] theorem startOp_session (o : Operands) : (startOp o s).session = s.session := rfl
@[simp] theorem startOp_table (o : Operands) : (startOp o s).table = s.table := rfl
@[simp] theorem startOp_tableValid (o : Operands) : (startOp o s).tableValid = s.tableValid := rfl
@[simp] theorem startOp_work (o : Operands) : (startOp o s).work = s.work := rfl
@[simp] theorem startOp_operands (o : Operands) : (startOp o s).operands = o := rfl
@[simp] theorem startOp_res (o : Operands) : (startOp o s).res = s.res := rfl
@[simp] theorem startOp_seq (o : Operands) : (startOp o s).seq = .step o.op 1 := rfl
@[simp] theorem startOp_csLevel (o : Operands) : (startOp o s).csLevel = s.csLevel := rfl
@[simp] theorem startOp_clockProfile (o : Operands) : (startOp o s).clockProfile = s.clockProfile := rfl
@[simp] theorem startOp_mem (o : Operands) : (startOp o s).mem = s.mem := rfl
@[simp] theorem startOp_wire (o : Operands) : (startOp o s).wire = s.wire := rfl
@[simp] theorem startOp_timer (o : Operands) : (startOp o s).timer = s.timer := rfl
@[simp] theorem startOp_nowCount (o : Operands) : (startOp o s).nowCount = s.nowCount := rfl
@[simp] theorem startOp_trace (o : Operands) : (startOp o s).trace = s.trace := rfl
@[simp] theorem startOp_pending (o : Operands) : (startOp o s).pending = s.pending := rfl
@[simp] theorem startOp_params (o : Operands) : (startOp o s).params = s.params := rfl

/-! ### takeItem -/

@[simp] theorem takeItem_session (rest : List Request) : (takeItem rest s).session = s.session := rfl
@[simp] theorem takeItem_table (rest : List Request) : (takeItem rest s).table = s.table := rfl
@[simp] theorem takeItem_tableValid (rest : List Request) : (takeItem rest s).tableValid = s.tableValid := rfl
@[simp] theorem takeItem_work (rest : List Request) : (takeItem rest s).work = s.work := rfl
@[simp] theorem takeItem_operands (rest : List Request) : (takeItem rest s).operands = s.operands := rfl
@[simp] theorem takeItem_res (rest : List Request) : (takeItem rest s).res = s.res := rfl
@[simp] theorem takeItem_seq (rest : List Request) : (takeItem rest s).seq = s.seq := rfl
@[simp] theorem takeItem_csLevel (rest : List Request) : (takeItem rest s).csLevel = s.csLevel := rfl
@[simp] theorem takeItem_clockProfile (rest : List Request) : (takeItem rest s).clockProfile = s.clockProfile := rfl
@[simp] theorem takeItem_mem (rest : List Request) : (takeItem rest s).mem = s.mem := rfl
@[simp] theorem takeItem_wire (rest : List Request) : (takeItem rest s).wire = s.wire := rfl
@[simp] theorem takeItem_timer (rest : List Request) : (takeItem rest s).timer = s.timer := rfl
@[simp] theorem takeItem_nowCount (rest : List Request) : (takeItem rest s).nowCount = s.nowCount := rfl
@[simp] theorem takeItem_trace (rest : List Request) : (takeItem rest s).trace = s.trace := rfl
@[simp] theorem takeItem_pending (rest : List Request) : (takeItem rest s).pending = rest := rfl
@[simp] theorem takeItem_params (rest : List Request) : (takeItem rest s).params = s.params := rfl

/-! ### placeItem -/

@[simp] theorem placeItem_session (r : Request) : (placeItem r s).session = s.session := rfl
@[simp] theorem placeItem_table (r : Request) : (placeItem r s).table = s.table := rfl
@[simp] theorem placeItem_tableValid (r : Request) : (placeItem r s).tableValid = s.tableValid := rfl
@[simp] theorem placeItem_work (r : Request) : (placeItem r s).work = s.work := rfl
@[simp] theorem placeItem_operands (r : Request) : (placeItem r s).operands = s.operands := rfl
@[simp] theorem placeItem_res (r : Request) : (placeItem r s).res = s.res := rfl
@[simp] theorem placeItem_seq (r : Request) : (placeItem r s).seq = s.seq := rfl
@[simp] theorem placeItem_csLevel (r : Request) : (placeItem r s).csLevel = s.csLevel := rfl
@[simp] theorem placeItem_clockProfile (r : Request) : (placeItem r s).clockProfile = s.clockProfile := rfl
@[simp] theorem placeItem_mem (r : Request) : (placeItem r s).mem = s.mem := rfl
@[simp] theorem placeItem_wire (r : Request) : (placeItem r s).wire = s.wire := rfl
@[simp] theorem placeItem_timer (r : Request) : (placeItem r s).timer = s.timer := rfl
@[simp] theorem placeItem_nowCount (r : Request) : (placeItem r s).nowCount = s.nowCount := rfl
@[simp] theorem placeItem_trace (r : Request) : (placeItem r s).trace = s.trace := rfl
@[simp] theorem placeItem_pending (r : Request) : (placeItem r s).pending = r :: s.pending := rfl
@[simp] theorem placeItem_params (r : Request) : (placeItem r s).params = s.params := rfl

/-! ### presentByte -/

@[simp] theorem presentByte_session (b : Byte) : (presentByte b s).session = s.session := rfl
@[simp] theorem presentByte_table (b : Byte) : (presentByte b s).table = s.table := rfl
@[simp] theorem presentByte_tableValid (b : Byte) : (presentByte b s).tableValid = s.tableValid := rfl
@[simp] theorem presentByte_work (b : Byte) : (presentByte b s).work = s.work := rfl
@[simp] theorem presentByte_operands (b : Byte) : (presentByte b s).operands = s.operands := rfl
@[simp] theorem presentByte_res (b : Byte) : (presentByte b s).res = s.res := rfl
@[simp] theorem presentByte_seq (b : Byte) : (presentByte b s).seq = s.seq := rfl
@[simp] theorem presentByte_csLevel (b : Byte) : (presentByte b s).csLevel = s.csLevel := rfl
@[simp] theorem presentByte_clockProfile (b : Byte) : (presentByte b s).clockProfile = s.clockProfile := rfl
@[simp] theorem presentByte_mem (b : Byte) : (presentByte b s).mem = s.mem := rfl
@[simp] theorem presentByte_wire (b : Byte) : (presentByte b s).wire = .byte b :: s.wire := rfl
@[simp] theorem presentByte_timer (b : Byte) : (presentByte b s).timer = s.timer := rfl
@[simp] theorem presentByte_nowCount (b : Byte) : (presentByte b s).nowCount = s.nowCount := rfl
@[simp] theorem presentByte_trace (b : Byte) : (presentByte b s).trace = s.trace := rfl
@[simp] theorem presentByte_pending (b : Byte) : (presentByte b s).pending = s.pending := rfl
@[simp] theorem presentByte_params (b : Byte) : (presentByte b s).params = s.params := rfl

end Sys2Proof.Machine
end

