-- ==== Sys2Proof/Laws/Sequence.lean ====
section
/-! SUPPORT. Sequencing, one exchange, and what every shared sequence keeps: a property that its few primitive writes keep
(`Exchanges` to `Indexes`, and `StableAt` for a destination of received bytes) is kept by the sequence, whatever the environment
answers. -/

namespace Sys2Proof.Machine

/-! ### `andThen` -/

@[simp] theorem andThen_ok (s : State) (f : State → Code × State) : andThen (.ok, s) f = f s := rfl

theorem andThen_error (c : Code) (s : State) (f : State → Code × State) (h : c ≠ .ok) : andThen (c, s) f = (c, s) := by
  cases c <;> first | rfl | exact absurd rfl h

theorem andThen_eq (r : Code × State) (f : State → Code × State) :
    andThen r f = if r.1 = .ok then f r.2 else r := by
  obtain ⟨c, s⟩ := r
  by_cases h : c = .ok
  · subst h; rfl
  · rw [andThen_error c s f h, if_neg h]

/-- A sequence that ended well ran both of its parts well. -/
theorem andThen_fst_ok (r : Code × State) (f : State → Code × State) (h : (andThen r f).1 = .ok) :
    r.1 = .ok ∧ (f r.2).1 = .ok ∧ (andThen r f).2 = (f r.2).2 := by
  rw [andThen_eq] at h ⊢
  split at h
  · rename_i hr
    simp [hr, h]
  · rename_i hr
    exact absurd h hr

/-- A property of the state that both parts of a sequence keep. -/
theorem andThen_keeps (P : State → Prop) (r : Code × State) (f : State → Code × State) (hr : P r.2)
    (hf : ∀ s, P s → P (f s).2) : P (andThen r f).2 := by
  rw [andThen_eq]
  split
  · exact hf _ hr
  · exact hr

theorem andThen_assoc (r : Code × State) (f g : State → Code × State) :
    andThen r (fun s => andThen (f s) g) = andThen (andThen r f) g := by
  obtain ⟨c, s⟩ := r
  cases c <;> rfl

/-! ### The precondition of a block transfer -/

/-- Everything the precondition can do: the command runs, or is refused with nothing written. -/
theorem ifPayloadsEven_eq (blocks : Nat) (command : State → Code × State) (s : State) :
    ifPayloadsEven blocks command s = if payloadsEven blocks s then command s else (.refused, s) := rfl

theorem ifPayloadsEven_true (blocks : Nat) (command : State → Code × State) (s : State) (h : payloadsEven blocks s = true) :
    ifPayloadsEven blocks command s = command s := by simp [ifPayloadsEven, h]

theorem ifPayloadsEven_false (blocks : Nat) (command : State → Code × State) (s : State) (h : payloadsEven blocks s = false) :
    ifPayloadsEven blocks command s = (.refused, s) := by simp [ifPayloadsEven, h]

theorem ifPayloadsEven_keeps (P : State → Prop) (blocks : Nat) (command : State → Code × State) (s : State) (h : P s)
    (hc : P (command s).2) : P (ifPayloadsEven blocks command s).2 := by
  unfold ifPayloadsEven
  split
  · exact hc
  · exact h

/-- Even payloads when there are any. -/
theorem payloadsEven_blocks (blocks : Nat) (s : State) (h : payloadsEven blocks s = true) (hb : blocks ≠ 0) :
    s.session.blockSize.toNat % 2 = 0 := by simpa [payloadsEven, hb] using h

theorem payloadsEven_of (blocks : Nat) (s : State) (h : s.session.blockSize.toNat % 2 = 0) :
    payloadsEven blocks s = true := by simp [payloadsEven, h]

@[simp] theorem payloadsEven_one (s : State) :
    payloadsEven 1 s = (s.session.blockSize.toNat % 2 == 0) := by simp [payloadsEven]

@[simp] theorem payloadsEven_none (s : State) : payloadsEven 0 s = true := rfl

/-! ### One exchange -/

theorem txRx8_byte (tx rx : Byte) (rest : List WireAnswer) (s : State) (h : s.wire = .byte rx :: rest) :
    txRx8 tx s = (some rx, { s with wire := rest, trace := .exchange tx rx :: s.trace }) := by
  simp [txRx8, h]

theorem txRx8_ioFail (tx : Byte) (rest : List WireAnswer) (s : State) (h : s.wire = .ioFail :: rest) :
    txRx8 tx s = (none, { s with wire := rest, trace := .failedExchange tx :: s.trace }) := by
  simp [txRx8, h]

/-- Everything an exchange can do: it takes at most one answer of the script and records itself. -/
theorem txRx8_writes (tx : Byte) (s : State) :
    ∃ w e, e.isExchange = true ∧ (txRx8 tx s).2 = { s with wire := w, trace := e :: s.trace } := by
  unfold txRx8
  split
  · exact ⟨_, _, rfl, rfl⟩
  · exact ⟨_, _, rfl, rfl⟩
  · exact ⟨s.wire, _, rfl, rfl⟩

theorem send8_byte (b rx : Byte) (rest : List WireAnswer) (s : State) (h : s.wire = .byte rx :: rest) :
    send8 b s = (.ok, { s with wire := rest, trace := .exchange b rx :: s.trace }) := by
  simp [send8, txRx8_byte b rx rest s h]

theorem send8_ioFail (b : Byte) (rest : List WireAnswer) (s : State) (h : s.wire = .ioFail :: rest) :
    send8 b s = (.transportIo, { s with wire := rest, trace := .failedExchange b :: s.trace }) := by
  simp [send8, txRx8_ioFail b rest s h]

theorem recv8_byte (rx : Byte) (rest : List WireAnswer) (s : State) (h : s.wire = .byte rx :: rest) :
    recv8 s = (some rx, { s with wire := rest, trace := .exchange fill rx :: s.trace }) :=
  txRx8_byte fill rx rest s h

theorem recv8_ioFail (rest : List WireAnswer) (s : State) (h : s.wire = .ioFail :: rest) :
    recv8 s = (none, { s with wire := rest, trace := .failedExchange fill :: s.trace }) :=
  txRx8_ioFail fill rest s h

/-! ### What the sequences keep -/

/-- A property that an exchange keeps. -/
structure Exchanges (P : State → Prop) : Prop where
  exchange : ∀ s w e, e.isExchange = true → P s → P { s with wire := w, trace := e :: s.trace }

/-- A property that a counted poll keeps: beside the exchanges, the poll counter. -/
structure Polls (P : State → Prop) : Prop extends Exchanges P where
  tries : ∀ s n, P s → P (setTries n s)

/-- A property that a command keeps: beside the exchanges, the frame register and `S.lastR1`. -/
structure Commands (P : State → Prop) : Prop extends Polls P where
  frame : ∀ s v, P s → P { s with work.fr := v }
  lastR1 : ∀ s r, isR1 r = true → P s → P (setLastR1 r s)

/-- A property that a wait bounded by time keeps, beside its exchanges. -/
structure Waits (P : State → Prop) : Prop where
  timer : ∀ s t, P s → P { s with timer := t }
  start : ∀ s, P s → P (startWait s)

/-- A property that the receiver's registers keep. -/
def Receives (P : State → Prop) : Prop :=
  ∀ s c e k, P s → P { s with work := { s.work with crcRx := c, crcErr := e, k := k } }

/-- A property that the sender's registers keep. -/
def Sends (P : State → Prop) : Prop := ∀ s c k, P s → P { s with work := { s.work with crcTx := c, k := k } }

/-- A property that the block index keeps. -/
def Indexes (P : State → Prop) : Prop := ∀ s n, P s → P (setBlockIndex n s)

/-- A property that storing into the first `n` bytes of a destination keeps. -/
def StableAt (P : State → Prop) (dst : Dest) (n : Nat) : Prop := ∀ s k v, k < n → P s → P (storeByte dst k v s)

namespace Exchanges

variable {P : State → Prop} (hP : Exchanges P)
include hP

theorem txRx8 (tx : Byte) (s : State) (h : P s) : P (Machine.txRx8 tx s).2 := by
  obtain ⟨w, e, hx, he⟩ := txRx8_writes tx s
  rw [he]
  exact hP.exchange s w e hx h

theorem recv8 (s : State) (h : P s) : P (Machine.recv8 s).2 := hP.txRx8 fill s h

theorem send8 (b : Byte) (s : State) (h : P s) : P (Machine.send8 b s).2 := by
  have hx := hP.txRx8 b s h
  unfold Machine.send8
  split <;> simp_all

theorem sendBytes (l : List Byte) (s : State) (h : P s) : P (Machine.sendBytes l s).2 := by
  induction l generalizing s with
  | nil => exact h
  | cons b l ih => exact andThen_keeps P _ _ (hP.send8 b s h) ih

theorem sendDummies (n : Nat) (s : State) (h : P s) : P (Machine.sendDummies n s).2 := hP.sendBytes _ s h

theorem recvPlain (dst : Dest) (m : Nat) (hd : StableAt P dst m) (n k : Nat) (hk : k + n ≤ m) (s : State) (h : P s) :
    P (Machine.recvPlain dst n k s).2 := by
  induction n generalizing k s with
  | zero => exact h
  | succ n ih =>
    have hx := hP.recv8 s h
    unfold Machine.recvPlain
    split
    · simp_all
    · exact ih _ (by omega) _ (hd _ _ _ (by omega) (by simp_all))

theorem sendToken (tok : Byte) (s : State) (h : P s) : P (Machine.sendToken tok s).2 := hP.send8 tok s h

theorem timedLoop (hT : Waits P) (accept : Byte → Option Code) (n : Nat) (s : State) (h : P s) :
    P (Machine.timedLoop accept n s).2 := by
  induction n generalizing s with
  | zero => exact h
  | succ n ih =>
    have hx := hP.recv8 s h
    unfold Machine.timedLoop
    split
    · simp_all
    · rename_i rx s' heq
      rw [heq] at hx
      have he : P (elapsed s').2 := by
        unfold elapsed
        split
        · exact hT.timer s' _ hx
        · exact hx
      split
      · exact hx
      · split <;> rename_i heq' <;> rw [heq'] at he
        · exact he
        · exact ih _ he

theorem timedPollOn (hT : Waits P) (accept : Byte → Option Code) (s : State) (h : P s) :
    P (Machine.timedPollOn accept s).2 := hP.timedLoop hT accept _ s h

theorem timedPoll (hT : Waits P) (accept : Byte → Option Code) (s : State) (h : P s) :
    P (Machine.timedPoll accept s).2 := hP.timedPollOn hT accept _ (hT.start s h)

theorem busyWait (hT : Waits P) (s : State) (h : P s) : P (Machine.busyWait s).2 := hP.timedPoll hT acceptReady s h

theorem drain (hT : Waits P) (s : State) (h : P s) : P (Machine.drain s).2 := by
  have hx := hP.timedPoll hT acceptReady s h
  unfold Machine.drain
  split <;> simp_all

theorem recvWords (hR : Receives P) (dst : Dest) (m : Nat) (hd : StableAt P dst m) (n j : Nat) (hk : 2 * (j + n) ≤ m)
    (s : State) (h : P s) : P (Machine.recvWords dst n j s).2 := by
  induction n generalizing j s with
  | zero => exact h
  | succ n ih =>
    have hx := hP.recv8 s h
    unfold Machine.recvWords
    split
    · simp_all
    · rename_i hi s1 heq
      rw [heq] at hx
      have hy := hP.recv8 (storeByte dst (2 * j) hi s1) (hd _ _ _ (by omega) hx)
      split
      · rename_i s2 heq2
        rw [heq2] at hy
        exact hy
      · rename_i lo s2 heq2
        rw [heq2] at hy
        exact ih _ (by omega) _ (hR _ _ _ _ (hd _ _ _ (by omega) hy))

theorem checkCrc16 (hR : Receives P) (s : State) (h : P s) : P (Machine.checkCrc16 s).2 := by
  have hx := hP.recv8 s h
  unfold Machine.checkCrc16
  split
  · simp_all
  · rename_i hi s1 heq
    rw [heq] at hx
    have hy := hP.recv8 s1 hx
    split
    · simp_all
    · rename_i lo s2 heq2
      rw [heq2] at hy
      exact hR s2 s2.work.crcRx _ s2.work.k hy

theorem dataRx (hR : Receives P) (n : Nat) (dst : Dest) (hd : StableAt P dst n) (s : State) (h : P s) :
    P (Machine.dataRx n dst s).2 := by
  unfold Machine.dataRx recv16Crc
  split
  · exact andThen_keeps P _ _ (hP.recvWords hR dst n hd _ _ (by omega) _ (hR s _ s.work.crcErr _ h)) fun s hs =>
      hP.checkCrc16 hR s hs
  · exact h

theorem sendWords (hS : Sends P) (n a : Nat) (s : State) (h : P s) : P (Machine.sendWords n a s).2 := by
  induction n generalizing a s with
  | zero => exact h
  | succ n ih => exact andThen_keeps P _ _ (hP.sendBytes _ s h) fun s hs => ih _ _ (hS s _ _ hs)

theorem send16Crc (hS : Sends P) (n base : Nat) (s : State) (h : P s) : P (Machine.send16Crc n base s).2 := by
  unfold Machine.send16Crc
  split
  · exact andThen_keeps P _ _ (hP.sendWords hS _ _ _ (hS s _ _ h)) fun s hs => hP.sendBytes _ s hs
  · exact h

theorem dataResponse (hT : Waits P) (s : State) (h : P s) : P (Machine.dataResponse s).2 := by
  refine andThen_keeps P _ _ (hP.timedPoll hT acceptDataResponse s h) fun s hs => ?_
  split
  · exact hP.timedPollOn hT acceptReady s hs
  · exact hP.busyWait hT s hs

theorem dataTx (hT : Waits P) (hS : Sends P) (n base : Nat) (s : State) (h : P s) : P (Machine.dataTx n base s).2 :=
  andThen_keeps P _ _ (hP.send16Crc hS n base s h) fun s hs => hP.dataResponse hT s hs

theorem writeBlocks (hT : Waits P) (hS : Sends P) (hI : Indexes P) (n i : Nat) (s : State) (h : P s) :
    P (Machine.writeBlocks n i s).2 := by
  induction n generalizing i s with
  | zero => exact h
  | succ n ih =>
    refine andThen_keeps P _ _ (hP.sendToken _ _ (hI s i h)) fun s hs => ?_
    exact andThen_keeps P _ _ (hP.dataTx hT hS _ _ s hs) fun s hs => ih _ s hs

theorem readR2 (h2 : ∀ s v, P s → P { s with session.lastR2 := v }) (s : State) (h : P s) :
    P (Machine.readR2 s).2 := by
  have hx := hP.recv8 s h
  unfold Machine.readR2
  split
  · simp_all
  · rename_i rx s1 heq
    rw [heq] at hx
    exact h2 _ _ hx

end Exchanges

namespace Polls

variable {P : State → Prop} (hP : Polls P)
include hP

theorem pollToken (tok : Byte) (n : Nat) (s : State) (h : P s) : P (Machine.pollToken tok n s).2 := by
  induction n generalizing s with
  | zero => exact h
  | succ n ih =>
    have hx := hP.recv8 _ (hP.tries s (tokenTries - n) h)
    unfold Machine.pollToken
    split
    · simp_all
    · split
      · simp_all
      · exact ih _ (by simp_all)

theorem waitToken (tok : Byte) (s : State) (h : P s) : P (Machine.waitToken tok s).2 := hP.pollToken tok tokenTries s h

theorem readBlocks (hR : Receives P) (hI : Indexes P) (m : Nat)
    (hd : ∀ s i, i < m → P s → StableAt P (.hostBuffer (blockBase s i)) (blockLength s)) (n i : Nat) (hi : i + n ≤ m)
    (s : State) (h : P s) : P (Machine.readBlocks n i s).2 := by
  induction n generalizing i s with
  | zero => exact h
  | succ n ih =>
    refine andThen_keeps P _ _ (hP.waitToken _ _ (hI s i h)) fun s hs => ?_
    exact andThen_keeps P _ _ (hP.dataRx hR _ _ (hd s i (by omega) hs) s hs) fun s hs => ih _ (by omega) s hs

end Polls

namespace Commands

variable {P : State → Prop} (hP : Commands P)
include hP

theorem pollR1 (n : Nat) (s : State) (h : P s) : P (Machine.pollR1 n s).2 := by
  induction n generalizing s with
  | zero => exact h
  | succ n ih =>
    have hx := hP.recv8 _ (hP.tries s (r1Tries - n) h)
    unfold Machine.pollR1
    split
    · simp_all
    · split
      · exact hP.lastR1 _ _ (by assumption) (by simp_all)
      · exact ih _ (by simp_all)

theorem receiveR1 (s : State) (h : P s) : P (Machine.receiveR1 s).2 := hP.pollR1 r1Tries s h

omit hP in
theorem classifyR1 (exp : Byte) (s : State) (h : P s) : P (Machine.classifyR1 exp s).2 := by
  unfold Machine.classifyR1
  split <;> exact h

theorem sendCommand (cmd : BitVec 6) (arg : Word) (exp : Byte) (s : State) (h : P s) :
    P (Machine.sendCommand cmd arg exp s).2 := by
  unfold Machine.sendCommand
  split
  · exact h
  · refine andThen_keeps P _ _ (hP.sendBytes _ _ (hP.frame s _ h)) fun s hs => ?_
    exact andThen_keeps P _ _ (hP.receiveR1 s hs) fun s hs => Commands.classifyR1 exp s hs

theorem sendPrefix (arg : Word) (s : State) (h : P s) : P (Machine.sendPrefix arg s).2 := by
  unfold Machine.sendPrefix
  split
  · exact h
  · exact hP.sendCommand _ _ _ s h

theorem sendACommand (acmd : BitVec 6) (arg : Word) (exp : Byte) (s : State) (h : P s) :
    P (Machine.sendACommand acmd arg exp s).2 :=
  andThen_keeps P _ _ (hP.sendPrefix _ s h) fun s hs => hP.sendCommand _ _ _ s hs

theorem cmd8Exchange (hd : StableAt P .r7 4) (arg : Word) (s : State) (h : P s) : P (Machine.cmd8Exchange arg s).2 :=
  andThen_keeps P _ _ (hP.sendCommand _ _ _ s h) fun s hs => hP.recvPlain .r7 4 hd 4 0 (by omega) s hs

theorem cmd9Exchange (hR : Receives P) (hd : StableAt P .csd 16) (arg : Word) (s : State) (h : P s) :
    P (Machine.cmd9Exchange arg s).2 :=
  andThen_keeps P _ _ (hP.sendCommand _ _ _ s h) fun s hs =>
    andThen_keeps P _ _ (hP.waitToken _ s hs) fun s hs => hP.dataRx hR 16 .csd hd s hs

theorem cmd10Exchange (hR : Receives P) (hd : StableAt P .cid 16) (arg : Word) (s : State) (h : P s) :
    P (Machine.cmd10Exchange arg s).2 :=
  andThen_keeps P _ _ (hP.sendCommand _ _ _ s h) fun s hs =>
    andThen_keeps P _ _ (hP.waitToken _ s hs) fun s hs => hP.dataRx hR 16 .cid hd s hs

theorem cmd12Exchange (hT : Waits P) (arg : Word) (s : State) (h : P s) : P (Machine.cmd12Exchange arg s).2 := by
  refine andThen_keeps P _ _ (hP.sendCommand _ _ _ s h) fun s hs => ?_
  split
  · exact hP.drain hT s hs
  · exact hs

theorem cmd13Exchange (h2 : ∀ s v, P s → P { s with session.lastR2 := v }) (arg : Word) (s : State) (h : P s) :
    P (Machine.cmd13Exchange arg s).2 :=
  andThen_keeps P _ _ (hP.sendCommand _ _ _ s h) fun s hs => hP.readR2 h2 s hs

theorem cmd17Exchange (hR : Receives P) (hd : ∀ s, P s → StableAt P (.hostBuffer (blockBase s 0)) (blockLength s))
    (arg : Word) (s : State) (h : P s) : P (Machine.cmd17Exchange arg s).2 :=
  ifPayloadsEven_keeps P _ _ s h <| andThen_keeps P _ _ (hP.sendCommand _ _ _ s h) fun s hs =>
    andThen_keeps P _ _ (hP.waitToken _ s hs) fun s hs => hP.dataRx hR _ _ (hd s hs) s hs

theorem cmd18Exchange (hR : Receives P) (hI : Indexes P)
    (hd : ∀ s i, i < s.operands.count.toNat → P s → StableAt P (.hostBuffer (blockBase s i)) (blockLength s))
    (count : Word) (hc : ∀ s, P s → s.operands.count = count) (arg : Word) (s : State) (h : P s) :
    P (Machine.cmd18Exchange arg s).2 :=
  ifPayloadsEven_keeps P _ _ s h <| andThen_keeps P _ _ (hP.sendCommand _ _ _ s h) fun s hs =>
    hP.readBlocks hR hI s.operands.count.toNat (fun t i hi ht => hd t i (by rw [hc t ht, ← hc s hs]; exact hi) ht) _ 0
      (by omega) s hs

theorem cmd24Exchange (hT : Waits P) (hS : Sends P) (arg : Word) (s : State) (h : P s) :
    P (Machine.cmd24Exchange arg s).2 :=
  ifPayloadsEven_keeps P _ _ s h <| andThen_keeps P _ _ (hP.sendCommand _ _ _ s h) fun s hs =>
    andThen_keeps P _ _ (hP.sendToken _ s hs) fun s hs => hP.dataTx hT hS _ _ s hs

theorem cmd25Exchange (hT : Waits P) (hS : Sends P) (hI : Indexes P) (arg : Word) (s : State) (h : P s) :
    P (Machine.cmd25Exchange arg s).2 :=
  ifPayloadsEven_keeps P _ _ s h <| andThen_keeps P _ _ (hP.sendCommand _ _ _ s h) fun s hs =>
    andThen_keeps P _ _ (hP.sendDummies _ s hs) fun s hs => hP.writeBlocks hT hS hI _ _ s hs

theorem cmd58Exchange (hd : StableAt P .ocr 4) (arg : Word) (s : State) (h : P s) : P (Machine.cmd58Exchange arg s).2 :=
  andThen_keeps P _ _ (hP.sendCommand _ _ _ s h) fun s hs => hP.recvPlain .ocr 4 hd 4 0 (by omega) s hs

theorem acmd22Exchange (hR : Receives P) (hd : StableAt P .w 4)
    (hc : ∀ s v, P s → P { s with session.lastWrittenBlockCount := v }) (arg : Word) (s : State) (h : P s) :
    P (Machine.acmd22Exchange arg s).2 :=
  andThen_keeps P _ _ (hP.sendACommand _ _ _ s h) fun s hs =>
    andThen_keeps P _ _ (hP.waitToken _ s hs) fun s hs =>
      andThen_keeps P _ _ (hP.dataRx hR 4 .w hd s hs) fun s hs => hc s _ hs

theorem acmd41Exchange (arg : Word) (exp : Byte) (s : State) (h : P s) : P (Machine.acmd41Exchange arg exp s).2 :=
  hP.sendACommand _ _ _ s h

end Commands

/-! ### Stores -/

/-- Storing into the host's memory keeps what holds of every state with another memory of canonical form. -/
theorem stableAt_hostBuffer (P : State → Prop) (base n : Nat)
    (h : ∀ s m, (Memory.wf s.mem = true → Memory.wf m = true) → P s → P { s with mem := m }) :
    StableAt P (.hostBuffer base) n :=
  fun s k v _ hs => h s _ (Memory.write_wf s.mem (base + k) v) hs

end Sys2Proof.Machine
end

