-- ==== Sys2Proof/Laws/Stores.lean ====
section
/-! SUPPORT. Bytes stored one after another: into the host's memory, a snapshot, a scratch. -/

namespace Sys2Proof.Machine

/-- `dst[k], dst[k + 1], ... <- l`. -/
def storeBytes (dst : Dest) : Nat → List Byte → State → State
  | _, [], s => s
  | k, b :: l, s => storeBytes dst (k + 1) l (storeByte dst k b s)

/-- Bytes written from an address on. -/
def Memory.writeBytes : Memory → Nat → List Byte → Memory
  | m, _, [] => m
  | m, a, b :: l => Memory.writeBytes (Memory.write m a b) (a + 1) l

/-- Elements of a vector set from an index on. -/
def setBytes {n : Nat} : Vector Byte n → Nat → List Byte → Vector Byte n
  | v, _, [] => v
  | v, k, b :: l => setBytes (v.setIfInBounds k b) (k + 1) l

/-! ### Memory -/

theorem Memory.writeBytes_wf (l : List Byte) (m : Memory) (a : Nat) (h : Memory.wf m = true) :
    Memory.wf (Memory.writeBytes m a l) = true := by
  induction l generalizing m a with
  | nil => exact h
  | cons b l ih => exact ih _ _ (Memory.write_wf m a b h)

theorem readAfter_cons (m : Memory) (a : Nat) (b : Byte) (l : List Byte) (x : Nat) :
    readAfter m a (b :: l) x = if a = x then b else readAfter m (a + 1) l x := by
  unfold readAfter
  by_cases hax : a = x
  · simp [hax]
  · by_cases hle : a ≤ x
    · have h1 : a + 1 ≤ x := by omega
      obtain ⟨d, rfl⟩ : ∃ d, x = a + 1 + d := ⟨x - (a + 1), by omega⟩
      have h2 : a + 1 + d - a = d + 1 := by omega
      have h3 : a + 1 + d - (a + 1) = d := by omega
      simp [hax, hle, h1, h2, h3]
    · have h1 : ¬ a + 1 ≤ x := by omega
      simp [hax, hle, h1]

/-- Reading after bytes were written: each byte at its address, every other address as before. -/
theorem Memory.read_writeBytes (l : List Byte) (m : Memory) (a x : Nat) (h : Memory.wf m = true) :
    Memory.read (Memory.writeBytes m a l) x = readAfter m a l x := by
  induction l generalizing m a with
  | nil => simp [Memory.writeBytes, readAfter]
  | cons b l ih =>
    rw [Memory.writeBytes, ih _ _ (Memory.write_wf m a b h), readAfter_cons]
    unfold readAfter
    rw [Memory.read_write m a x b h]
    by_cases hax : a = x
    · subst hax
      have : ¬ a + 1 ≤ a := by omega
      simp [this]
    · simp [hax]

theorem Memory.writeBytes_append (l1 l2 : List Byte) (m : Memory) (a : Nat) :
    Memory.writeBytes m a (l1 ++ l2) = Memory.writeBytes (Memory.writeBytes m a l1) (a + l1.length) l2 := by
  induction l1 generalizing m a with
  | nil => rfl
  | cons b l1 ih =>
    simp only [List.cons_append, Memory.writeBytes, ih, List.length_cons]
    congr 1
    omega

theorem Memory.readBytes_length (m : Memory) (a n : Nat) : (Memory.readBytes m a n).length = n := by
  induction n generalizing a with
  | zero => rfl
  | succ n ih => simp [Memory.readBytes, ih]

theorem Memory.readBytes_add (m : Memory) (a n k : Nat) :
    Memory.readBytes m a (n + k) = Memory.readBytes m a n ++ Memory.readBytes m (a + n) k := by
  induction n generalizing a with
  | zero => simp [Memory.readBytes]
  | succ n ih =>
    rw [show n + 1 + k = (n + k) + 1 by omega]
    simp [Memory.readBytes, ih, show a + 1 + n = a + (n + 1) by omega]

/-! ### Vectors -/

theorem getElem_setBytes {n : Nat} (l : List Byte) (v : Vector Byte n) (k i : Nat) (hi : i < n) :
    (setBytes v k l)[i] = if k ≤ i then l.getD (i - k) v[i] else v[i] := by
  induction l generalizing v k with
  | nil => simp [setBytes]
  | cons b l ih =>
    rw [setBytes, ih]
    simp only [Vector.getElem_setIfInBounds]
    by_cases hki : k = i
    · subst hki
      have : ¬ k + 1 ≤ k := by omega
      simp [this]
    · by_cases hle : k ≤ i
      · have h1 : k + 1 ≤ i := by omega
        obtain ⟨d, rfl⟩ : ∃ d, i = k + 1 + d := ⟨i - (k + 1), by omega⟩
        simp [hki, h1, show k + 1 + d - k = d + 1 by omega, show k ≤ k + 1 + d by omega]
      · have h1 : ¬ k + 1 ≤ i := by omega
        simp [hki, hle, h1]

/-- A whole snapshot overwritten. -/
theorem setBytes_snapshot (v : Vector Byte 16) (l : List Byte) (h : l.length = 16) : setBytes v 0 l = snapshotOf l := by
  refine Vector.ext fun i hi => ?_
  rw [getElem_setBytes]
  simp [snapshotOf, List.getD_eq_getElem?_getD, List.getElem?_eq_getElem (show i < l.length by omega)]

/-- Four bytes overwritten. -/
theorem setBytes_four (v : Vector Byte 4) (b0 b1 b2 b3 : Byte) :
    setBytes v 0 [b0, b1, b2, b3] = #v[b0, b1, b2, b3] := by
  refine Vector.ext fun i hi => ?_
  rw [getElem_setBytes]
  rcases i with _ | _ | _ | _ | i <;> first | rfl | omega

/-! ### Destinations -/

theorem storeBytes_hostBuffer (l : List Byte) (base k : Nat) (s : State) :
    storeBytes (.hostBuffer base) k l s = { s with mem := Memory.writeBytes s.mem (base + k) l } := by
  induction l generalizing k s with
  | nil => rfl
  | cons b l ih => rw [storeBytes, ih]; rfl

theorem storeBytes_ocr (l : List Byte) (k : Nat) (s : State) :
    storeBytes .ocr k l s = { s with session.ocr := setBytes s.session.ocr k l } := by
  induction l generalizing k s with
  | nil => rfl
  | cons b l ih => rw [storeBytes, ih]; rfl

theorem storeBytes_cid (l : List Byte) (k : Nat) (s : State) :
    storeBytes .cid k l s = { s with session.cid := setBytes s.session.cid k l } := by
  induction l generalizing k s with
  | nil => rfl
  | cons b l ih => rw [storeBytes, ih]; rfl

theorem storeBytes_csd (l : List Byte) (k : Nat) (s : State) :
    storeBytes .csd k l s = { s with session.csd := setBytes s.session.csd k l } := by
  induction l generalizing k s with
  | nil => rfl
  | cons b l ih => rw [storeBytes, ih]; rfl

theorem storeBytes_r7 (l : List Byte) (k : Nat) (s : State) :
    storeBytes .r7 k l s = { s with work.r7 := setBytes s.work.r7 k l } := by
  induction l generalizing k s with
  | nil => rfl
  | cons b l ih => rw [storeBytes, ih]; rfl

theorem storeBytes_w (l : List Byte) (k : Nat) (s : State) :
    storeBytes .w k l s = { s with work.w := setBytes s.work.w k l } := by
  induction l generalizing k s with
  | nil => rfl
  | cons b l ih => rw [storeBytes, ih]; rfl

end Sys2Proof.Machine
end

