-- ==== Sys2Proof/Laws/Answered.lean ====
section
/-! SUPPORT. What each shared sequence does when the environment's script answers it: the exact result and the exact state.
That the two forms of CRC7, and of CRC16, agree is no lemma here: the lemmas take it as a hypothesis. -/

namespace Sys2Proof.Machine

/-! ### Lists of answers and exchanges -/

@[simp] theorem answers_nil : answers [] = [] := rfl
@[simp] theorem answers_cons (b : Byte) (l : List Byte) : answers (b :: l) = .byte b :: answers l := rfl
@[simp] theorem answers_append (l1 l2 : List Byte) : answers (l1 ++ l2) = answers l1 ++ answers l2 := by simp [answers]
@[simp] theorem transcript_nil (l : List Byte) : transcript [] l = [] := by simp [transcript]
@[simp] theorem transcript_cons (a b : Byte) (l1 l2 : List Byte) :
    transcript (a :: l1) (b :: l2) = .exchange a b :: transcript l1 l2 := rfl

theorem transcript_append (l1 l2 r1 r2 : List Byte) (h : l1.length = r1.length) :
    transcript (l1 ++ l2) (r1 ++ r2) = transcript l1 r1 ++ transcript l2 r2 := List.zipWith_append h

@[simp] theorem received_nil : received [] = [] := rfl
@[simp] theorem received_cons (b : Byte) (l : List Byte) : received (b :: l) = .exchange fill b :: received l := rfl
@[simp] theorem received_append (l1 l2 : List Byte) : received (l1 ++ l2) = received l1 ++ received l2 := by
  unfold received
  rw [List.length_append, List.replicate_add]
  exact transcript_append _ _ _ _ (by simp)

/-! ### The 8-bit path -/

theorem sendBytes_answered (tx rx : List Byte) (rest : List WireAnswer) (s : State) (hl : rx.length = tx.length)
    (h : s.wire = answers rx ++ rest) :
    sendBytes tx s = (.ok, { s with wire := rest, trace := (transcript tx rx).reverse ++ s.trace }) := by
  induction tx generalizing rx s with
  | nil =>
    obtain rfl : rx = [] := List.length_eq_zero_iff.1 (by simpa using hl)
    simp only [answers_nil, List.nil_append] at h
    simp [sendBytes, ← h]
  | cons b tx ih =>
    cases rx with
    | nil => simp at hl
    | cons r rx =>
      simp only [answers_cons, List.cons_append] at h
      simp only [sendBytes, send8_byte b r _ s h, andThen_ok]
      rw [ih rx _ (by simpa using hl) (by rfl)]
      simp

theorem sendDummies_answered (rx : List Byte) (rest : List WireAnswer) (s : State) (h : s.wire = answers rx ++ rest) :
    sendDummies rx.length s = (.ok, { s with wire := rest, trace := (received rx).reverse ++ s.trace }) :=
  sendBytes_answered _ rx rest s (by simp) h

theorem storeByte_exchanged (dst : Dest) (k : Nat) (b : Byte) (s : State) (w : List WireAnswer) (tr : List Event) :
    storeByte dst k b { s with wire := w, trace := tr } = { storeByte dst k b s with wire := w, trace := tr } := by
  cases dst <;> rfl

@[simp] theorem storeByte_wire (dst : Dest) (k : Nat) (b : Byte) (s : State) : (storeByte dst k b s).wire = s.wire := by
  cases dst <;> rfl

@[simp] theorem storeByte_trace (dst : Dest) (k : Nat) (b : Byte) (s : State) : (storeByte dst k b s).trace = s.trace := by
  cases dst <;> rfl

theorem recvPlain_answered (dst : Dest) (l : List Byte) (k : Nat) (rest : List WireAnswer) (s : State)
    (h : s.wire = answers l ++ rest) :
    recvPlain dst l.length k s =
      (.ok, storeBytes dst k l { s with wire := rest, trace := (received l).reverse ++ s.trace }) := by
  induction l generalizing k s with
  | nil =>
    simp only [answers_nil, List.nil_append] at h
    simp [recvPlain, storeBytes, ← h]
  | cons b l ih =>
    simp only [answers_cons, List.cons_append] at h
    simp only [List.length_cons, recvPlain, recv8_byte b _ s h]
    rw [ih _ _ (by rw [storeByte_wire])]
    simp only [storeBytes, storeByte_exchanged, received_cons, List.reverse_cons, List.append_assoc,
      List.singleton_append]

theorem recvFour_answered (dst : Dest) (b0 b1 b2 b3 : Byte) (rest : List WireAnswer) (s : State)
    (h : s.wire = answers [b0, b1, b2, b3] ++ rest) :
    recvPlain dst 4 0 s =
      (.ok, storeBytes dst 0 [b0, b1, b2, b3]
        { s with wire := rest, trace := (received [b0, b1, b2, b3]).reverse ++ s.trace }) :=
  recvPlain_answered dst [b0, b1, b2, b3] 0 rest s h

/-! ### R1 -/

theorem pollR1_answered (n : Nat) (pads : List Byte) (r1 : Byte) (rest : List WireAnswer) (s : State)
    (hp : pads.all (fun b => !isR1 b) = true) (hr : isR1 r1 = true) (hn : pads.length < n) (hm : n ≤ r1Tries)
    (h : s.wire = answers (pads ++ [r1]) ++ rest) :
    pollR1 n s =
      (.ok, { s with session.lastR1 := r1, work.tries := r1Tries - n + pads.length + 1, wire := rest,
                     trace := (received (pads ++ [r1])).reverse ++ s.trace }) := by
  induction pads generalizing n s with
  | nil =>
    obtain ⟨n, rfl⟩ : ∃ m, n = m + 1 := ⟨n - 1, by simp at hn; omega⟩
    simp only [List.nil_append, answers_cons, answers_nil, List.cons_append] at h
    simp only [pollR1, recv8_byte r1 rest (setTries (r1Tries - n) s) h, hr, if_true]
    simp [setLastR1, setTries, show r1Tries - (n + 1) + 1 = r1Tries - n by omega]
  | cons b pads ih =>
    obtain ⟨n, rfl⟩ : ∃ m, n = m + 1 := ⟨n - 1, by simp at hn; omega⟩
    simp only [List.cons_append, answers_cons] at h
    simp only [List.all_cons, Bool.and_eq_true, Bool.not_eq_true'] at hp
    simp only [List.length_cons] at hn
    simp only [pollR1, recv8_byte b _ (setTries (r1Tries - n) s) h, hp.1, Bool.false_eq_true, if_false]
    rw [ih n _ (by exact hp.2) (by omega) (by omega) (by rfl)]
    simp [setTries, show r1Tries - n + pads.length + 1 = r1Tries - (n + 1) + (pads.length + 1) + 1 by omega]

/-- Ten reads that give no R1. -/
theorem pollR1_timeout (n : Nat) (pads : List Byte) (rest : List WireAnswer) (s : State)
    (hp : pads.all (fun b => !isR1 b) = true) (hn : pads.length = n) (hm : n ≤ r1Tries)
    (h : s.wire = answers pads ++ rest) :
    pollR1 n s =
      (.r1Timeout, { s with work.tries := if n = 0 then s.work.tries else r1Tries, wire := rest,
                            trace := (received pads).reverse ++ s.trace }) := by
  induction pads generalizing n s with
  | nil =>
    subst hn
    simp only [answers_nil, List.nil_append] at h
    simp [pollR1, ← h]
  | cons b pads ih =>
    subst hn
    simp only [List.cons_append, answers_cons] at h
    simp only [List.all_cons, Bool.and_eq_true, Bool.not_eq_true'] at hp
    simp only [List.length_cons] at hm
    simp only [List.length_cons, pollR1, recv8_byte b _ (setTries (r1Tries - pads.length) s) h, hp.1, Bool.false_eq_true,
      if_false]
    rw [ih _ _ (by exact hp.2) (by rfl) (by omega) (by rfl)]
    by_cases h0 : pads.length = 0
    · simp [setTries, h0]
    · simp [setTries, h0]

/-- A transport failure at a read of the poll. -/
theorem pollR1_ioFail (n : Nat) (pads : List Byte) (rest : List WireAnswer) (s : State)
    (hp : pads.all (fun b => !isR1 b) = true) (hn : pads.length < n) (hm : n ≤ r1Tries)
    (h : s.wire = answers pads ++ .ioFail :: rest) :
    pollR1 n s =
      (.transportIo, { s with work.tries := r1Tries - n + pads.length + 1, wire := rest,
                              trace := .failedExchange fill :: (received pads).reverse ++ s.trace }) := by
  induction pads generalizing n s with
  | nil =>
    obtain ⟨n, rfl⟩ : ∃ m, n = m + 1 := ⟨n - 1, by simp at hn; omega⟩
    simp only [List.nil_append, answers_nil] at h
    simp only [pollR1, recv8_ioFail rest (setTries (r1Tries - n) s) h]
    simp [setTries, show r1Tries - (n + 1) + 1 = r1Tries - n by omega]
  | cons b pads ih =>
    obtain ⟨n, rfl⟩ : ∃ m, n = m + 1 := ⟨n - 1, by simp at hn; omega⟩
    simp only [List.cons_append, answers_cons] at h
    simp only [List.all_cons, Bool.and_eq_true, Bool.not_eq_true'] at hp
    simp only [List.length_cons] at hn
    simp only [pollR1, recv8_byte b _ (setTries (r1Tries - n) s) h, hp.1, Bool.false_eq_true, if_false]
    rw [ih n _ (by exact hp.2) (by omega) (by omega) (by rfl)]
    simp [setTries, show r1Tries - n + pads.length + 1 = r1Tries - (n + 1) + (pads.length + 1) + 1 by omega]

/-! ### Commands -/

theorem CommandAnswer.ok_iff (a : CommandAnswer) :
    a.ok = true ↔ a.dropped.length = 6 ∧ a.pads.length < r1Tries ∧ a.pads.all (fun b => !isR1 b) = true ∧
      isR1 a.r1 = true := by
  simp [CommandAnswer.ok, and_assoc]

/-- The state when a command was answered. -/
def sentCommand (s : State) (a : CommandAnswer) (cmd : BitVec 6) (arg : Word) (rest : List WireAnswer) : State :=
  { s with
    session.lastR1 := a.r1
    work.fr := frameOf cmd arg
    work.tries := a.pads.length + 1
    wire := rest
    trace := (a.events cmd arg).reverse ++ s.trace }

theorem crc7Compute_ready (s : State) (ht : s.tableReady) (m : List Byte) :
    crc7Compute s m = some (crc7Fold crc7Table m) := by
  simp [crc7Compute, ht.1, ht.2]

theorem sendCommand_answered (hcrc : ∀ m, crc7Fold crc7Table m = crc7Bitwise m) (cmd : BitVec 6) (arg : Word) (exp : Byte)
    (a : CommandAnswer) (rest : List WireAnswer) (s : State) (ht : s.tableReady) (ha : a.ok = true)
    (h : s.wire = answers a.bytes ++ rest) :
    sendCommand cmd arg exp s = (a.code exp, sentCommand s a cmd arg rest) := by
  obtain ⟨h6, hn, hp, hr⟩ := a.ok_iff.1 ha
  have hw : s.wire = answers a.dropped ++ (answers (a.pads ++ [a.r1]) ++ rest) := by
    rw [h]; simp [CommandAnswer.bytes]
  simp only [sendCommand, crc7Compute_ready s ht, hcrc]
  rw [sendBytes_answered _ a.dropped (answers (a.pads ++ [a.r1]) ++ rest) _ (by simpa using h6) (by exact hw)]
  simp only [andThen_ok, receiveR1]
  rw [pollR1_answered r1Tries a.pads a.r1 rest _ hp hr hn (Nat.le_refl _) (by rfl)]
  simp only [andThen_ok, classifyR1, sentCommand, CommandAnswer.events, CommandAnswer.code]
  have hf : (frameBytes cmd arg (frameCheckByte (crc7Bitwise (frameHead cmd arg)))).toList = commandFrame cmd arg := rfl
  split <;> simp [frameOf, hf]

/-- A command that gets its expected R1, more of the script following. -/
theorem sendCommand_expected (hcrc : ∀ m, crc7Fold crc7Table m = crc7Bitwise m) (cmd : BitVec 6) (arg : Word) (exp : Byte)
    (a : CommandAnswer) (more : List Byte) (rest : List WireAnswer) (s : State) (ht : s.tableReady) (ha : a.ok = true)
    (hr : a.r1 = exp) (h : s.wire = answers (a.bytes ++ more) ++ rest) :
    sendCommand cmd arg exp s = (.ok, sentCommand s a cmd arg (answers more ++ rest)) := by
  rw [sendCommand_answered hcrc cmd arg exp a (answers more ++ rest) s ht ha (by rw [h]; simp), CommandAnswer.code, if_pos hr]

/-- A command that gets no R1 in ten reads. -/
theorem sendCommand_timeout (hcrc : ∀ m, crc7Fold crc7Table m = crc7Bitwise m) (cmd : BitVec 6) (arg : Word) (exp : Byte)
    (dropped reads : List Byte) (rest : List WireAnswer) (s : State) (ht : s.tableReady) (hd : dropped.length = 6)
    (hl : reads.length = r1Tries) (hr : reads.all (fun b => !isR1 b) = true)
    (h : s.wire = answers (dropped ++ reads) ++ rest) :
    sendCommand cmd arg exp s = (.r1Timeout, { s with
      work.fr := frameOf cmd arg
      work.tries := r1Tries
      wire := rest
      trace := (transcript (commandFrame cmd arg) dropped ++ received reads).reverse ++ s.trace }) := by
  have hw : s.wire = answers dropped ++ (answers reads ++ rest) := by rw [h]; simp
  simp only [sendCommand, crc7Compute_ready s ht, hcrc]
  rw [sendBytes_answered _ dropped (answers reads ++ rest) _ (by simpa using hd) (by exact hw)]
  simp only [andThen_ok, receiveR1]
  rw [pollR1_timeout r1Tries reads rest _ hr hl (Nat.le_refl _) (by rfl), andThen_error _ _ _ (by decide)]
  have hf : (frameBytes cmd arg (frameCheckByte (crc7Bitwise (frameHead cmd arg)))).toList = commandFrame cmd arg := rfl
  simp [frameOf, hf, r1Tries]

/-- A command sent without a table is refused before anything is written. -/
theorem sendCommand_noTable (cmd : BitVec 6) (arg : Word) (exp : Byte) (s : State) (ht : s.tableValid = false) :
    sendCommand cmd arg exp s = (.refused, s) := by
  simp [sendCommand, crc7Compute, ht]

/-! ### Tokens -/

theorem pollToken_answered (tok : Byte) (n : Nat) (pads : List Byte) (b : Byte) (rest : List WireAnswer) (s : State)
    (hp : pads.all (fun b => !tokenMatch s.params.tokenMatch b tok) = true) (hb : tokenMatch s.params.tokenMatch b tok = true)
    (hn : pads.length < n) (hm : n ≤ tokenTries) (h : s.wire = answers (pads ++ [b]) ++ rest) :
    pollToken tok n s =
      (.ok, { s with work.tries := tokenTries - n + pads.length + 1, wire := rest,
                     trace := (received (pads ++ [b])).reverse ++ s.trace }) := by
  induction pads generalizing n s with
  | nil =>
    obtain ⟨n, rfl⟩ : ∃ m, n = m + 1 := ⟨n - 1, by simp at hn; omega⟩
    simp only [List.nil_append, answers_cons, answers_nil, List.cons_append] at h
    simp only [pollToken, recv8_byte b rest (setTries (tokenTries - n) s) h]
    simp [hb, setTries, show tokenTries - (n + 1) + 1 = tokenTries - n by omega]
  | cons c pads ih =>
    obtain ⟨n, rfl⟩ : ∃ m, n = m + 1 := ⟨n - 1, by simp at hn; omega⟩
    simp only [List.cons_append, answers_cons] at h
    simp only [List.all_cons, Bool.and_eq_true, Bool.not_eq_true'] at hp
    simp only [List.length_cons] at hn
    simp only [pollToken, recv8_byte c _ (setTries (tokenTries - n) s) h, setTries_params, hp.1, Bool.false_eq_true, if_false]
    rw [ih n _ (by exact hp.2) (by exact hb) (by omega) (by omega) (by rfl)]
    simp [setTries, show tokenTries - n + pads.length + 1 = tokenTries - (n + 1) + (pads.length + 1) + 1 by omega]

/-- A hundred reads that match no token. -/
theorem pollToken_timeout (tok : Byte) (n : Nat) (pads : List Byte) (rest : List WireAnswer) (s : State)
    (hp : pads.all (fun b => !tokenMatch s.params.tokenMatch b tok) = true) (hn : pads.length = n) (hm : n ≤ tokenTries)
    (h : s.wire = answers pads ++ rest) :
    pollToken tok n s =
      (.tokenTimeout, { s with work.tries := if n = 0 then s.work.tries else tokenTries, wire := rest,
                               trace := (received pads).reverse ++ s.trace }) := by
  induction pads generalizing n s with
  | nil =>
    subst hn
    simp only [answers_nil, List.nil_append] at h
    simp [pollToken, ← h]
  | cons c pads ih =>
    subst hn
    simp only [List.cons_append, answers_cons] at h
    simp only [List.all_cons, Bool.and_eq_true, Bool.not_eq_true'] at hp
    simp only [List.length_cons] at hm
    simp only [List.length_cons, pollToken, recv8_byte c _ (setTries (tokenTries - pads.length) s) h, setTries_params, hp.1,
      Bool.false_eq_true, if_false]
    rw [ih _ _ (by exact hp.2) (by rfl) (by omega) (by rfl)]
    by_cases h0 : pads.length = 0
    · simp [setTries, h0]
    · simp [setTries, h0]

/-- A transport failure at a read of the wait. -/
theorem pollToken_ioFail (tok : Byte) (n : Nat) (pads : List Byte) (rest : List WireAnswer) (s : State)
    (hp : pads.all (fun b => !tokenMatch s.params.tokenMatch b tok) = true) (hn : pads.length < n) (hm : n ≤ tokenTries)
    (h : s.wire = answers pads ++ .ioFail :: rest) :
    pollToken tok n s =
      (.transportIo, { s with work.tries := tokenTries - n + pads.length + 1, wire := rest,
                              trace := .failedExchange fill :: (received pads).reverse ++ s.trace }) := by
  induction pads generalizing n s with
  | nil =>
    obtain ⟨n, rfl⟩ : ∃ m, n = m + 1 := ⟨n - 1, by simp at hn; omega⟩
    simp only [List.nil_append, answers_nil] at h
    simp only [pollToken, recv8_ioFail rest (setTries (tokenTries - n) s) h]
    simp [setTries, show tokenTries - (n + 1) + 1 = tokenTries - n by omega]
  | cons c pads ih =>
    obtain ⟨n, rfl⟩ : ∃ m, n = m + 1 := ⟨n - 1, by simp at hn; omega⟩
    simp only [List.cons_append, answers_cons] at h
    simp only [List.all_cons, Bool.and_eq_true, Bool.not_eq_true'] at hp
    simp only [List.length_cons] at hn
    simp only [pollToken, recv8_byte c _ (setTries (tokenTries - n) s) h, setTries_params, hp.1, Bool.false_eq_true, if_false]
    rw [ih n _ (by exact hp.2) (by omega) (by omega) (by rfl)]
    simp [setTries, show tokenTries - n + pads.length + 1 = tokenTries - (n + 1) + (pads.length + 1) + 1 by omega]

/-- The start token is itself a match under every reading (43_token_data.md R212). -/
theorem tokenMatch_self (r : TokenRule) (tok : Byte) : tokenMatch r tok tok = true := by
  cases r <;> simp [tokenMatch]

/-! ### Waits bounded by time -/

theorem timedLoop_answered (accept : Byte → Option Code) (n : Nat) (pads : List Byte) (b : Byte) (c : Code)
    (rest : List WireAnswer) (later : List Bool) (s : State) (hp : ∀ x ∈ pads, accept x = none) (hb : accept b = some c)
    (hn : pads.length < n) (h : s.wire = answers (pads ++ [b]) ++ rest) (ht : s.timer = notElapsed pads.length ++ later) :
    timedLoop accept n s =
      (c, { s with wire := rest, timer := later, trace := (received (pads ++ [b])).reverse ++ s.trace }) := by
  induction pads generalizing n s with
  | nil =>
    obtain ⟨n, rfl⟩ : ∃ m, n = m + 1 := ⟨n - 1, by simp at hn; omega⟩
    simp only [List.nil_append, answers_cons, answers_nil, List.cons_append] at h
    simp only [List.length_nil, notElapsed, List.replicate_zero, List.nil_append] at ht
    simp [timedLoop, recv8_byte b rest s h, hb, ← ht]
  | cons x pads ih =>
    obtain ⟨n, rfl⟩ : ∃ m, n = m + 1 := ⟨n - 1, by simp at hn; omega⟩
    simp only [List.cons_append, answers_cons] at h
    simp only [List.length_cons, notElapsed, List.replicate_succ, List.cons_append] at ht
    simp only [List.length_cons] at hn
    simp only [timedLoop, recv8_byte x _ s h, hp x (by simp), elapsed, ht]
    rw [ih n _ (fun y hy => hp y (by simp [hy])) (by omega) (by rfl) (by rfl)]
    simp

/-- The budget expires after a byte that is no answer. -/
theorem timedLoop_expired (accept : Byte → Option Code) (n : Nat) (pads : List Byte) (b : Byte)
    (rest : List WireAnswer) (later : List Bool) (s : State) (hp : ∀ x ∈ pads, accept x = none) (hb : accept b = none)
    (hn : pads.length < n) (h : s.wire = answers (pads ++ [b]) ++ rest)
    (ht : s.timer = notElapsed pads.length ++ true :: later) :
    timedLoop accept n s =
      (.waitTimeout,
        { s with wire := rest, timer := later, trace := (received (pads ++ [b])).reverse ++ s.trace }) := by
  induction pads generalizing n s with
  | nil =>
    obtain ⟨n, rfl⟩ : ∃ m, n = m + 1 := ⟨n - 1, by simp at hn; omega⟩
    simp only [List.nil_append, answers_cons, answers_nil, List.cons_append] at h
    simp only [List.length_nil, notElapsed, List.replicate_zero, List.nil_append] at ht
    simp [timedLoop, recv8_byte b rest s h, hb, elapsed, ht]
  | cons x pads ih =>
    obtain ⟨n, rfl⟩ : ∃ m, n = m + 1 := ⟨n - 1, by simp at hn; omega⟩
    simp only [List.cons_append, answers_cons] at h
    simp only [List.length_cons, notElapsed, List.replicate_succ, List.cons_append] at ht
    simp only [List.length_cons] at hn
    simp only [timedLoop, recv8_byte x _ s h, hp x (by simp), elapsed, ht]
    rw [ih n _ (fun y hy => hp y (by simp [hy])) (by omega) (by rfl) (by rfl)]
    simp

/-- A transport failure at a read of the wait. -/
theorem timedLoop_ioFail (accept : Byte → Option Code) (n : Nat) (pads : List Byte) (rest : List WireAnswer)
    (later : List Bool) (s : State) (hp : ∀ x ∈ pads, accept x = none) (hn : pads.length < n)
    (h : s.wire = answers pads ++ .ioFail :: rest) (ht : s.timer = notElapsed pads.length ++ later) :
    timedLoop accept n s =
      (.transportIo,
        { s with wire := rest, timer := later,
                 trace := .failedExchange fill :: (received pads).reverse ++ s.trace }) := by
  induction pads generalizing n s with
  | nil =>
    obtain ⟨n, rfl⟩ : ∃ m, n = m + 1 := ⟨n - 1, by simp at hn; omega⟩
    simp only [answers_nil, List.nil_append] at h
    simp only [List.length_nil, notElapsed, List.replicate_zero, List.nil_append] at ht
    simp [timedLoop, recv8_ioFail rest s h, ← ht]
  | cons x pads ih =>
    obtain ⟨n, rfl⟩ : ∃ m, n = m + 1 := ⟨n - 1, by simp at hn; omega⟩
    simp only [List.cons_append, answers_cons] at h
    simp only [List.length_cons, notElapsed, List.replicate_succ, List.cons_append] at ht
    simp only [List.length_cons] at hn
    simp only [timedLoop, recv8_byte x _ s h, hp x (by simp), elapsed, ht]
    rw [ih n _ (fun y hy => hp y (by simp [hy])) (by omega) (by rfl) (by rfl)]
    simp

theorem timedRounds_enough (n : Nat) (later : List Bool) (s : State) (ht : s.timer = notElapsed n ++ later) :
    n < timedRounds s := by
  simp [timedRounds, ht, notElapsed]

theorem timedPollOn_answered (accept : Byte → Option Code) (pads : List Byte) (b : Byte) (c : Code)
    (rest : List WireAnswer) (later : List Bool) (s : State) (hp : ∀ x ∈ pads, accept x = none) (hb : accept b = some c)
    (h : s.wire = answers (pads ++ [b]) ++ rest) (ht : s.timer = notElapsed pads.length ++ later) :
    timedPollOn accept s =
      (c, { s with wire := rest, timer := later, trace := (received (pads ++ [b])).reverse ++ s.trace }) :=
  timedLoop_answered accept _ pads b c rest later s hp hb (timedRounds_enough _ later s ht) h ht

theorem timedPoll_answered (accept : Byte → Option Code) (pads : List Byte) (b : Byte) (c : Code)
    (rest : List WireAnswer) (later : List Bool) (s : State) (hp : ∀ x ∈ pads, accept x = none) (hb : accept b = some c)
    (h : s.wire = answers (pads ++ [b]) ++ rest) (ht : s.timer = notElapsed pads.length ++ later) :
    timedPoll accept s =
      (c, { s with work.t0 := Config.now s.nowCount, nowCount := s.nowCount + 1, wire := rest, timer := later,
                   trace := (received (pads ++ [b])).reverse ++ s.trace }) := by
  simp only [timedPoll]
  rw [timedPollOn_answered accept pads b c rest later (startWait s) hp hb h ht]
  rfl

theorem acceptReady_ff : acceptReady 0xFF#8 = some .ok := rfl

theorem acceptReady_busy (l : List Byte) (h : l.all (fun b => b != 0xFF#8) = true) : ∀ x ∈ l, acceptReady x = none := by
  intro x hx
  have := List.all_eq_true.1 h x hx
  simp only [bne_iff_ne, ne_eq] at this
  simp [acceptReady, this]

theorem busyWait_answered (busy : List Byte) (rest : List WireAnswer) (later : List Bool) (s : State)
    (hb : busy.all (fun b => b != 0xFF#8) = true) (h : s.wire = answers (busy ++ [0xFF#8]) ++ rest)
    (ht : s.timer = notElapsed busy.length ++ later) :
    busyWait s =
      (.ok, { s with work.t0 := Config.now s.nowCount, nowCount := s.nowCount + 1, wire := rest, timer := later,
                     trace := (received (busy ++ [0xFF#8])).reverse ++ s.trace }) :=
  timedPoll_answered acceptReady busy _ _ rest later s (acceptReady_busy busy hb) acceptReady_ff h ht

theorem drain_answered (busy : List Byte) (rest : List WireAnswer) (later : List Bool) (s : State)
    (hb : busy.all (fun b => b != 0xFF#8) = true) (h : s.wire = answers (busy ++ [0xFF#8]) ++ rest)
    (ht : s.timer = notElapsed busy.length ++ later) :
    drain s =
      (.ok, { s with work.t0 := Config.now s.nowCount, nowCount := s.nowCount + 1, wire := rest, timer := later,
                     trace := (received (busy ++ [0xFF#8])).reverse ++ s.trace }) := by
  unfold drain
  rw [timedPoll_answered acceptReady busy _ _ rest later s (acceptReady_busy busy hb) acceptReady_ff h ht]

/-! ### Data packets -/

theorem payloadWords_append_two (l : List Byte) (hi lo : Byte) (h : l.length % 2 = 0) :
    payloadWords (l ++ [hi, lo]) = payloadWords l ++ [hi ++ lo] := by
  induction l using payloadWords.induct with
  | case1 a b l ih =>
    simp only [List.length_cons] at h
    simp [payloadWords, ih (by omega)]
  | case2 l hl =>
    rcases l with _ | ⟨a, _ | ⟨b, l⟩⟩
    · rfl
    · simp at h
    · exact absurd rfl (hl a b l)

theorem recvWords_answered (dst : Dest) (l : List Byte) (j : Nat) (rest : List WireAnswer) (s : State)
    (he : l.length % 2 = 0) (hk : s.work.k = 2 * j) (h : s.wire = answers l ++ rest) :
    recvWords dst (l.length / 2) j s =
      (.ok, storeBytes dst (2 * j) l
        { s with work.crcRx := (payloadWords l).foldl crc16Step16 s.work.crcRx, work.k := 2 * j + l.length, wire := rest,
                 trace := (received l).reverse ++ s.trace }) := by
  induction l using payloadWords.induct generalizing j s with
  | case1 hi lo l ih =>
    simp only [List.length_cons] at he
    simp only [answers_cons, List.cons_append] at h
    rw [show (hi :: lo :: l).length / 2 = l.length / 2 + 1 by simp only [List.length_cons]; omega]
    simp only [recvWords, recv8_byte hi _ s h]
    rw [recv8_byte lo (answers l ++ rest) _ (by rw [storeByte_wire])]
    simp only [storeByte_exchanged]
    rw [ih (j + 1) _ (by omega) rfl (by simp)]
    simp only [storeBytes, payloadWords, List.foldl_cons, received_cons, List.reverse_cons, List.append_assoc,
      List.singleton_append, List.length_cons, show 2 * (j + 1) = 2 * j + 1 + 1 by omega,
      show 2 * j + 1 + 1 + l.length = 2 * j + (l.length + 1 + 1) by omega]
    cases dst <;> rfl
  | case2 l hl =>
    rcases l with _ | ⟨a, _ | ⟨b, l⟩⟩
    · simp only [answers_nil, List.nil_append] at h
      simp [recvWords, storeBytes, payloadWords, ← h, ← hk]
    · simp at he
    · exact absurd rfl (hl a b l)

/-- A transport failure inside the payload: every byte received before it is stored, also half a word (45_transfer.md R294). -/
theorem recvWords_ioFail (dst : Dest) (n : Nat) (got : List Byte) (j : Nat) (rest : List WireAnswer) (s : State)
    (hn : got.length < 2 * n) (h : s.wire = answers got ++ .ioFail :: rest) :
    ∃ c k, recvWords dst n j s =
      (.transportIo, storeBytes dst (2 * j) got
        { s with work.crcRx := c, work.k := k, wire := rest,
                 trace := .failedExchange fill :: (received got).reverse ++ s.trace }) := by
  induction n generalizing got j s with
  | zero => omega
  | succ n ih =>
    rcases got with _ | ⟨hi, _ | ⟨lo, got⟩⟩
    · simp only [answers_nil, List.nil_append] at h
      exact ⟨s.work.crcRx, s.work.k, by simp only [recvWords, recv8_ioFail rest s h]; rfl⟩
    · simp only [answers_cons, answers_nil, List.cons_append, List.nil_append] at h
      refine ⟨s.work.crcRx, s.work.k, ?_⟩
      simp only [recvWords, recv8_byte hi _ s h]
      rw [recv8_ioFail rest _ (by rw [storeByte_wire])]
      simp only [storeByte_exchanged]
      cases dst <;> rfl
    · simp only [answers_cons, List.cons_append] at h
      simp only [List.length_cons] at hn
      simp only [recvWords, recv8_byte hi _ s h]
      rw [recv8_byte lo (answers got ++ .ioFail :: rest) _ (by rw [storeByte_wire])]
      simp only [storeByte_exchanged]
      obtain ⟨c, k, he⟩ := ih got (j + 1)
        { storeByte dst (2 * j + 1) lo (storeByte dst (2 * j) hi s) with
          work := { (storeByte dst (2 * j + 1) lo (storeByte dst (2 * j) hi s)).work with
            crcRx := crc16Step16 (storeByte dst (2 * j + 1) lo (storeByte dst (2 * j) hi s)).work.crcRx (hi ++ lo)
            k := 2 * j + 2 }
          wire := answers got ++ .ioFail :: rest
          trace := .exchange fill lo :: .exchange fill hi :: s.trace }
        (by omega) rfl
      refine ⟨c, k, Eq.trans he ?_⟩
      simp only [storeBytes, received_cons, List.reverse_cons, List.append_assoc, List.singleton_append,
        show 2 * (j + 1) = 2 * j + 1 + 1 by omega]
      cases dst <;> simp [storeByte]

/-- The token wait and a payload cut short by a transport failure. -/
theorem packet_ioFail (dst : Dest) (n : Nat) (pads got : List Byte) (rest : List WireAnswer) (s : State) (hn : n % 2 = 0)
    (hp : pads.all (fun b => !tokenMatch s.params.tokenMatch b tokenStartByte) = true) (hl : pads.length < tokenTries)
    (hg : got.length < n) (h : s.wire = answers (pads ++ [tokenStartByte] ++ got) ++ .ioFail :: rest) :
    ∃ w, andThen (waitToken tokenStartByte s) (dataRx n dst) =
      (.transportIo, storeBytes dst 0 got
        { s with work := w, wire := rest,
                 trace := .failedExchange fill :: (received (pads ++ [tokenStartByte] ++ got)).reverse ++ s.trace }) := by
  have hx : s.wire = answers (pads ++ [tokenStartByte]) ++ (answers got ++ .ioFail :: rest) := by rw [h]; simp
  rw [waitToken, pollToken_answered tokenStartByte tokenTries pads tokenStartByte _ s hp (tokenMatch_self _ _) hl
    (Nat.le_refl _) hx]
  simp only [andThen_ok, dataRx, recv16Crc, hn, if_true]
  obtain ⟨c, k, he⟩ := recvWords_ioFail dst (n / 2) got 0 rest
    { s with
      work := { s.work with tries := tokenTries - tokenTries + pads.length + 1, crcRx := crc16Seed, k := 0 }
      wire := answers got ++ .ioFail :: rest
      trace := (received (pads ++ [tokenStartByte])).reverse ++ s.trace } (by omega) rfl
  rw [he, andThen_error _ _ _ (by decide)]
  exact ⟨_, by simp; rfl⟩

theorem checkCrc16_answered (hi lo : Byte) (rest : List WireAnswer) (s : State)
    (h : s.wire = answers [hi, lo] ++ rest) :
    checkCrc16 s =
      (if s.work.crcRx = hi ++ lo then .ok else .dataCrc,
        { s with work.crcErr := (s.work.crcRx != hi ++ lo), wire := rest,
                 trace := (received [hi, lo]).reverse ++ s.trace }) := by
  simp only [answers_cons, answers_nil, List.cons_append, List.nil_append] at h
  simp only [checkCrc16, recv8_byte hi _ s h]
  rw [recv8_byte lo rest _ (by rfl)]
  by_cases hc : s.work.crcRx = hi ++ lo <;> simp [hc]

@[simp] theorem storeBytes_crcRx (dst : Dest) (k : Nat) (l : List Byte) (s : State) :
    (storeBytes dst k l s).work.crcRx = s.work.crcRx := by
  induction l generalizing k s with
  | nil => rfl
  | cons b l ih => rw [storeBytes, ih]; cases dst <;> rfl

@[simp] theorem storeBytes_wire (dst : Dest) (k : Nat) (l : List Byte) (s : State) :
    (storeBytes dst k l s).wire = s.wire := by
  induction l generalizing k s with
  | nil => rfl
  | cons b l ih => rw [storeBytes, ih]; cases dst <;> rfl

theorem storeBytes_checked (dst : Dest) (k : Nat) (l : List Byte) (s : State) (e : Bool) (w : List WireAnswer)
    (ev : List Event) :
    { storeBytes dst k l s with
      work.crcErr := e, wire := w, trace := ev ++ (storeBytes dst k l s).trace } =
      storeBytes dst k l { s with work.crcErr := e, wire := w, trace := ev ++ s.trace } := by
  induction l generalizing k s with
  | nil => rfl
  | cons b l ih =>
    simp only [storeBytes]
    rw [ih]
    cases dst <;> rfl

/-- `RECV16_CRC` on a payload and a CRC16 word, right or wrong: the payload is stored, then the word is compared. -/
theorem dataRx_answered (hw : ∀ m : List Byte, m.length % 2 = 0 → crc16Words m = crc16 m) (dst : Dest) (l : List Byte)
    (hi lo : Byte) (rest : List WireAnswer) (s : State) (he : l.length % 2 = 0)
    (h : s.wire = answers (l ++ [hi, lo]) ++ rest) :
    dataRx l.length dst s =
      (if crc16 l = hi ++ lo then .ok else .dataCrc,
        storeBytes dst 0 l
          { s with work.crcRx := crc16 l, work.crcErr := (crc16 l != hi ++ lo), work.k := l.length, wire := rest,
                   trace := (received (l ++ [hi, lo])).reverse ++ s.trace }) := by
  have hx : s.wire = answers l ++ (answers [hi, lo] ++ rest) := by rw [h]; simp
  simp only [dataRx, recv16Crc, he, if_true]
  rw [recvWords_answered dst l 0 (answers [hi, lo] ++ rest) _ he rfl (by exact hx)]
  have hf : (payloadWords l).foldl crc16Step16 crc16Seed = crc16 l := hw l he
  simp only [andThen_ok, Nat.mul_zero, Nat.zero_add, hf]
  rw [checkCrc16_answered hi lo rest _ (by simp), storeBytes_checked]
  simp

theorem crcBytes_joins (c : Half) : (c.extractLsb' 8 8 ++ c.extractLsb' 0 8 : Half) = c := by
  ext i hi
  simp only [BitVec.getElem_append, BitVec.getElem_extractLsb']
  by_cases h8 : i < 8
  · simp [h8, BitVec.getLsbD_eq_getElem hi]
  · simp [h8, show 8 + (i - 8) = i by omega, BitVec.getLsbD_eq_getElem hi]

/-- The token wait and the packet, its CRC16 right or wrong. -/
theorem packet_answered (hw : ∀ m : List Byte, m.length % 2 = 0 → crc16Words m = crc16 m) (dst : Dest) (n : Nat)
    (p : PacketAnswer) (rest : List WireAnswer) (s : State) (hn : n % 2 = 0) (hp : p.ok s.params.tokenMatch n = true)
    (h : s.wire = answers p.bytes ++ rest) :
    andThen (waitToken tokenStartByte s) (dataRx n dst) =
      (p.code, storeBytes dst 0 p.payload
        { s with work := s.work.afterPacket p, wire := rest, trace := (received p.bytes).reverse ++ s.trace }) := by
  simp only [PacketAnswer.ok, Bool.and_eq_true, decide_eq_true_eq, beq_iff_eq] at hp
  obtain ⟨⟨hl, hpads⟩, rfl⟩ := hp
  have hx : s.wire = answers (p.pads ++ [tokenStartByte]) ++ (answers (p.payload ++ crcBytes p.crc) ++ rest) := by
    rw [h]; simp [PacketAnswer.bytes]
  rw [waitToken, pollToken_answered tokenStartByte tokenTries p.pads tokenStartByte _ s hpads (tokenMatch_self _ _) hl
    (Nat.le_refl _) hx]
  simp only [andThen_ok]
  rw [dataRx_answered hw dst p.payload _ _ rest _ hn (by rfl)]
  rw [crcBytes_joins]
  have he : (crc16 p.payload != p.crc) = !p.good := by
    rw [PacketAnswer.good, bne, BEq.comm]
  have hc : (if crc16 p.payload = p.crc then Code.ok else Code.dataCrc) = p.code := by
    by_cases hq : crc16 p.payload = p.crc
    · simp [PacketAnswer.code, PacketAnswer.good, hq]
    · simp [PacketAnswer.code, PacketAnswer.good, hq, Ne.symm hq]
  rw [he, hc]
  simp [PacketAnswer.bytes, crcBytes, Work.afterPacket]

theorem sendWords_answered (n a : Nat) (rx : List Byte) (rest : List WireAnswer) (s : State)
    (hl : rx.length = 2 * n) (h : s.wire = answers rx ++ rest) :
    sendWords n a s =
      (.ok, { s with
        work.crcTx := (payloadWords (Memory.readBytes s.mem a (2 * n))).foldl crc16Step16 s.work.crcTx
        work.k := s.work.k + 2 * n
        wire := rest
        trace := (transcript (Memory.readBytes s.mem a (2 * n)) rx).reverse ++ s.trace }) := by
  induction n generalizing a rx s with
  | zero =>
    obtain rfl : rx = [] := List.length_eq_zero_iff.1 (by simpa using hl)
    simp only [answers_nil, List.nil_append] at h
    simp [sendWords, Memory.readBytes, payloadWords, ← h]
  | succ n ih =>
    rcases rx with _ | ⟨r0, _ | ⟨r1, rx⟩⟩
    · simp at hl
    · simp at hl; omega
    · have h2 : s.wire = answers [r0, r1] ++ (answers rx ++ rest) := by rw [h]; simp
      simp only [sendWords]
      rw [sendBytes_answered _ [r0, r1] (answers rx ++ rest) s (by rfl) (by exact h2)]
      simp only [andThen_ok]
      rw [ih (a + 2) rx _ (by simp at hl; omega) (by rfl)]
      rw [show 2 * (n + 1) = 2 * n + 1 + 1 by omega]
      simp only [Memory.readBytes, payloadWords, List.foldl_cons, transcript_cons, List.reverse_cons, List.append_assoc,
        List.singleton_append, show s.work.k + 2 + 2 * n = s.work.k + (2 * n + 1 + 1) by omega]
      simp [Nat.add_assoc]

theorem send16Crc_answered (hw : ∀ m : List Byte, m.length % 2 = 0 → crc16Words m = crc16 m) (n base : Nat)
    (rx : List Byte) (rest : List WireAnswer) (s : State) (hn : n % 2 = 0) (hl : rx.length = n + 2)
    (h : s.wire = answers rx ++ rest) :
    send16Crc n base s =
      (.ok, { s with
        work.crcTx := crc16 (Memory.readBytes s.mem base n)
        work.k := n
        wire := rest
        trace := (transcript (Memory.readBytes s.mem base n ++ crcBytes (crc16 (Memory.readBytes s.mem base n))) rx).reverse
          ++ s.trace }) := by
  obtain ⟨m, rfl⟩ : ∃ m, n = 2 * m := ⟨n / 2, by omega⟩
  obtain ⟨r1, r2, rfl, h1⟩ : ∃ r1 r2, rx = r1 ++ r2 ∧ r1.length = 2 * m :=
    ⟨rx.take (2 * m), rx.drop (2 * m), by simp, by simp; omega⟩
  have h2 : r2.length = 2 := by simp at hl; omega
  have hx : s.wire = answers r1 ++ (answers r2 ++ rest) := by rw [h]; simp
  simp only [send16Crc, hn, if_true, show 2 * m / 2 = m by omega]
  rw [sendWords_answered m base r1 (answers r2 ++ rest) _ h1 (by exact hx)]
  have hf : (payloadWords (Memory.readBytes s.mem base (2 * m))).foldl crc16Step16 crc16Seed
      = crc16 (Memory.readBytes s.mem base (2 * m)) := hw _ (by rw [Memory.readBytes_length]; omega)
  simp only [andThen_ok, hf, sendCrc16]
  rw [sendBytes_answered _ r2 rest _ (by simpa using h2) (by rfl)]
  rw [transcript_append _ _ _ _ (by rw [Memory.readBytes_length, h1])]
  simp [crcBytes]

theorem acceptDataResponse_accepted (ignored : BitVec 3) :
    acceptDataResponse (responseByte ignored drAcceptedCode) = some .ok := by
  revert ignored; decide

theorem acceptDataResponse_crcError (ignored : BitVec 3) :
    acceptDataResponse (responseByte ignored drCrcErrorCode) = some .dataCrc := by
  revert ignored; decide

theorem acceptDataResponse_writeError (ignored : BitVec 3) :
    acceptDataResponse (responseByte ignored drWriteErrorCode) = some .writeProgram := by
  revert ignored; decide

/-- The data-response poll that ends in acceptance, and the busy wait. -/
theorem dataResponse_answered (pads : List Byte) (ignored : BitVec 3) (busy : List Byte) (rest : List WireAnswer)
    (later : List Bool) (s : State) (hp : pads.all (fun b => acceptDataResponse b == none) = true)
    (hb : busy.all (fun b => b != 0xFF#8) = true)
    (h : s.wire = answers (pads ++ [responseByte ignored drAcceptedCode] ++ busy ++ [0xFF#8]) ++ rest)
    (ht : s.timer = notElapsed (pads.length + busy.length) ++ later) :
    dataResponse s =
      (.ok, { s with
        work.t0 := Config.now (s.nowCount + s.stamps - 1)
        nowCount := s.nowCount + s.stamps
        wire := rest
        timer := later
        trace := (received (pads ++ [responseByte ignored drAcceptedCode] ++ busy ++ [0xFF#8])).reverse ++ s.trace }) := by
  have hx : s.wire = answers (pads ++ [responseByte ignored drAcceptedCode]) ++ (answers (busy ++ [0xFF#8]) ++ rest) := by
    rw [h]; simp
  have htx : s.timer = notElapsed pads.length ++ (notElapsed busy.length ++ later) := by
    rw [ht, notElapsed, List.replicate_add, List.append_assoc]; rfl
  unfold dataResponse
  rw [timedPoll_answered acceptDataResponse pads _ _ _ _ s
    (fun x hx => by simpa using List.all_eq_true.1 hp x hx) (acceptDataResponse_accepted ignored) (by exact hx) (by exact htx)]
  simp only [andThen_ok]
  by_cases hs : s.params.sharedWriteBudget = true
  · simp only [hs, if_true]
    rw [timedPollOn_answered acceptReady busy _ _ rest later _ (acceptReady_busy busy hb) acceptReady_ff (by rfl) (by rfl)]
    simp [State.stamps, hs]
  · simp only [hs, if_false, Bool.false_eq_true]
    rw [busyWait_answered busy rest later _ hb (by rfl) (by rfl)]
    simp [State.stamps, hs]

/-- A packet written and accepted, its token already sent: `a.dropped` without the token's byte is `rx`. -/
theorem dataTx_answered (hw : ∀ m : List Byte, m.length % 2 = 0 → crc16Words m = crc16 m) (n base : Nat)
    (rx : List Byte) (a : WriteAnswer) (rest : List WireAnswer) (later : List Bool) (s : State) (hn : n % 2 = 0)
    (hl : rx.length = n + 2) (hp : a.pads.all (fun b => acceptDataResponse b == none) = true)
    (hb : a.busy.all (fun b => b != 0xFF#8) = true) (h : s.wire = answers (rx ++ a.polled) ++ rest)
    (ht : s.timer = notElapsed a.queries ++ later) :
    dataTx n base s =
      (.ok, { s with
        work.crcTx := crc16 (Memory.readBytes s.mem base n)
        work.k := n
        work.t0 := Config.now (s.nowCount + s.stamps - 1)
        nowCount := s.nowCount + s.stamps
        wire := rest
        timer := later
        trace := (transcript (Memory.readBytes s.mem base n ++ crcBytes (crc16 (Memory.readBytes s.mem base n))) rx
          ++ received a.polled).reverse ++ s.trace }) := by
  have hx : s.wire = answers rx ++ (answers a.polled ++ rest) := by rw [h]; simp
  unfold dataTx
  rw [send16Crc_answered hw n base rx _ s hn hl (by exact hx)]
  simp only [andThen_ok]
  rw [dataResponse_answered a.pads a.ignored a.busy rest later _ hp hb (by rfl) (by exact ht)]
  simp [WriteAnswer.polled, State.stamps]

/-- Token, packet and acceptance of block `i` (43_token_data.md R210, R214). -/
theorem writtenBlock_answered (hw : ∀ m : List Byte, m.length % 2 = 0 → crc16Words m = crc16 m) (tok : Byte) (i : Nat)
    (a : WriteAnswer) (rest : List WireAnswer) (later : List Bool) (s : State) (he : blockLength s % 2 = 0)
    (ha : a.ok (blockLength s) = true) (h : s.wire = answers a.bytes ++ rest) (ht : s.timer = notElapsed a.queries ++ later) :
    andThen (sendToken tok s) (fun s => dataTx (blockLength s) (blockBase s i) s) =
      (.ok, { s with
        work.crcTx := crc16 (Memory.readBytes s.mem (blockBase s i) (blockLength s))
        work.k := blockLength s
        work.t0 := Config.now (s.nowCount + s.stamps - 1)
        nowCount := s.nowCount + s.stamps
        wire := rest
        timer := later
        trace := (a.events tok (Memory.readBytes s.mem (blockBase s i) (blockLength s))).reverse ++ s.trace }) := by
  simp only [WriteAnswer.ok, Bool.and_eq_true, beq_iff_eq] at ha
  obtain ⟨⟨hd, hpads⟩, hbusy⟩ := ha
  obtain ⟨r, rx, hdr⟩ : ∃ r rx, a.dropped = r :: rx := by
    cases hc : a.dropped with
    | nil => rw [hc] at hd; simp at hd
    | cons r rx => exact ⟨r, rx, rfl⟩
  have hrx : rx.length = blockLength s + 2 := by rw [hdr] at hd; simp at hd; omega
  have hx : s.wire = .byte r :: (answers (rx ++ a.polled) ++ rest) := by
    rw [h]; simp [WriteAnswer.bytes, hdr]
  rw [sendToken, send8_byte tok r _ s hx]
  simp only [andThen_ok]
  rw [dataTx_answered hw _ _ rx a rest later _ (by exact he) (by exact hrx) hpads hbusy (by rfl) (by exact ht)]
  simp only [WriteAnswer.events, dataPacket, hdr, List.cons_append, transcript_cons, List.reverse_append, List.reverse_cons,
    List.append_assoc]
  rfl

end Sys2Proof.Machine
end

