-- ==== Sys2Proof/Laws/Loops.lean ====
section
/-! SUPPORT. The loops over blocks and over the issues of `ACMD41` when the environment's script answers them, what ends them
early and the recovery that follows, and that the round counts of the timed loops never show (log 3). -/

namespace Sys2Proof.Machine

/-! ### Rounds -/

theorem recv8_timer (s : State) : (recv8 s).2.timer = s.timer := by
  obtain ⟨w, tr, h⟩ := txRx8_writes fill s
  simp [recv8, h]

/-- With more rounds than the timer's script has answers, the loop does the same. -/
theorem timedLoop_rounds (accept : Byte → Option Code) (n k : Nat) (s : State) (hn : s.timer.length < n)
    (hk : s.timer.length < k) : timedLoop accept n s = timedLoop accept k s := by
  induction n generalizing k s with
  | zero => omega
  | succ n ih =>
    obtain ⟨k, rfl⟩ : ∃ m, k = m + 1 := ⟨k - 1, by omega⟩
    have hr := recv8_timer s
    unfold timedLoop
    split
    · rfl
    · rename_i rx s1 heq
      rw [heq] at hr
      split
      · rfl
      · simp only [elapsed]
        split
        · rename_i heq2
          split at heq2
          · simp only [Prod.mk.injEq] at heq2
            obtain ⟨rfl, rfl⟩ := heq2
            rfl
          · simp only [Prod.mk.injEq, true_and] at heq2
            subst heq2
            rfl
        · rename_i s2 heq2
          split at heq2
          · rename_i a l hl
            simp only [Prod.mk.injEq] at heq2
            obtain ⟨rfl, rfl⟩ := heq2
            simp only at hr
            rw [hl] at hr
            refine ih k _ ?_ ?_ <;> simp only <;> rw [← hr] at hn hk <;> simp at hn hk <;> omega
          · simp at heq2

/-! ### Blocks -/

theorem storeBytes_payload (base : Nat) (p : PacketAnswer) (s : State) :
    storeBytes (.hostBuffer base) 0 p.payload s = { s with mem := Memory.writeBytes s.mem base p.payload } := by
  rw [storeBytes_hostBuffer, Nat.add_zero]

/-- The token wait and the packet of block `i`, its CRC16 right or wrong: the payload is in the buffer (45_transfer.md R282). -/
theorem packetInto_answered (hw : ∀ m : List Byte, m.length % 2 = 0 → crc16Words m = crc16 m) (i : Nat) (p : PacketAnswer)
    (rest : List WireAnswer) (s : State) (he : blockLength s % 2 = 0)
    (hp : p.ok s.params.tokenMatch (blockLength s) = true) (h : s.wire = answers p.bytes ++ rest) :
    andThen (waitToken tokenStartByte s) (fun s => dataRx (blockLength s) (.hostBuffer (blockBase s i)) s) =
      (p.code, { s with
        work := s.work.afterPacket p
        mem := Memory.writeBytes s.mem (blockBase s i) p.payload
        wire := rest
        trace := (received p.bytes).reverse ++ s.trace }) := by
  have hP : Polls fun t => t.session.blockSize = s.session.blockSize ∧ t.operands = s.operands :=
    ⟨⟨fun _ _ _ _ h => h⟩, fun _ _ h => h⟩
  have hk := hP.waitToken tokenStartByte s ⟨rfl, rfl⟩
  have hx := packet_answered hw (.hostBuffer (blockBase s i)) (blockLength s) p rest s he hp h
  rw [storeBytes_payload] at hx
  rw [andThen_eq] at hx ⊢
  rw [← hx]
  simp only [blockLength, blockBase, hk.1, hk.2]

/-- So many blocks, then the others. -/
theorem readBlocks_add (n k i : Nat) (s : State) :
    readBlocks (n + k) i s = andThen (readBlocks n i s) (readBlocks k (i + n)) := by
  induction n generalizing i s with
  | zero => simp [readBlocks]
  | succ n ih =>
    have hf : readBlocks (n + k) (i + 1) = fun s => andThen (readBlocks n (i + 1) s) (readBlocks k (i + (n + 1))) :=
      funext fun s => by rw [ih, show i + 1 + n = i + (n + 1) by omega]
    rw [Nat.succ_add, readBlocks, readBlocks, hf]
    simp only [andThen_assoc]

/-- So many blocks, then the others. -/
theorem writeBlocks_add (n k i : Nat) (s : State) :
    writeBlocks (n + k) i s = andThen (writeBlocks n i s) (writeBlocks k (i + n)) := by
  induction n generalizing i s with
  | zero => simp [writeBlocks]
  | succ n ih =>
    have hf : writeBlocks (n + k) (i + 1) = fun s => andThen (writeBlocks n (i + 1) s) (writeBlocks k (i + (n + 1))) :=
      funext fun s => by rw [ih, show i + 1 + n = i + (n + 1) by omega]
    rw [Nat.succ_add, writeBlocks, writeBlocks, hf]
    simp only [andThen_assoc]

theorem Work.afterBlocks_append (packets more : List PacketAnswer) (i : Nat) (w : Work) :
    Work.afterBlocks (packets ++ more) i w = Work.afterBlocks more (i + packets.length) (Work.afterBlocks packets i w) := by
  induction packets generalizing i w with
  | nil => rfl
  | cons p packets ih =>
    simp only [List.cons_append, Work.afterBlocks, ih, List.length_cons,
      show i + 1 + packets.length = i + (packets.length + 1) by omega]

/-- `readBlocks` on packets that are whole and right: each payload at its offset, one after another. -/
theorem readBlocks_answered (hw : ∀ m : List Byte, m.length % 2 = 0 → crc16Words m = crc16 m) (packets : List PacketAnswer)
    (i : Nat) (rest : List WireAnswer) (s : State) (he : payloadsEven packets.length s = true)
    (hp : ∀ p ∈ packets, p.ok s.params.tokenMatch (blockLength s) = true ∧ p.good = true)
    (h : s.wire = answers (packets.flatMap PacketAnswer.bytes) ++ rest) :
    readBlocks packets.length i s =
      (.ok, { s with
        work := Work.afterBlocks packets i s.work
        mem := Memory.writeBytes s.mem (blockBase s i) (packets.flatMap PacketAnswer.payload)
        wire := rest
        trace := (received (packets.flatMap PacketAnswer.bytes)).reverse ++ s.trace }) := by
  induction packets generalizing i s with
  | nil =>
    simp only [List.flatMap_nil, answers_nil, List.nil_append] at h
    simp [readBlocks, Work.afterBlocks, Memory.writeBytes, ← h]
  | cons p packets ih =>
    have hpp := hp p (by simp)
    have he := payloadsEven_blocks _ s he (by simp)
    have hx : s.wire = answers p.bytes ++ (answers (packets.flatMap PacketAnswer.bytes) ++ rest) := by rw [h]; simp
    have hl : p.payload.length = s.session.blockSize.toNat := by
      have := hpp.1
      simp only [PacketAnswer.ok, Bool.and_eq_true, beq_iff_eq] at this
      exact this.2
    rw [List.length_cons, readBlocks, andThen_assoc, packetInto_answered hw i p _ (setBlockIndex i s) he hpp.1 hx]
    simp only [PacketAnswer.code, hpp.2, if_true, andThen_ok]
    rw [ih (i + 1) _ (payloadsEven_of _ _ (by exact he)) (by exact fun q hq => hp q (by simp [hq])) (by rfl)]
    have hb : blockBase s i + p.payload.length = blockBase s (i + 1) := by
      simp only [blockBase, hl, Nat.succ_mul, Nat.add_assoc]
    simp only [List.flatMap_cons, Memory.writeBytes_append, hb, received_append, List.reverse_append, List.append_assoc]
    rfl

/-- `readBlocks` on packets that are whole and right and one whose CRC16 word is wrong: it ends there, with the payloads up to
that one in the buffer and the rest of the script unread (45_transfer.md R283, R294). -/
theorem readBlocks_wrongCrc (hw : ∀ m : List Byte, m.length % 2 = 0 → crc16Words m = crc16 m) (packets : List PacketAnswer)
    (bad : PacketAnswer) (n i : Nat) (rest : List WireAnswer) (s : State) (he : blockLength s % 2 = 0)
    (hp : ∀ p ∈ packets, p.ok s.params.tokenMatch (blockLength s) = true ∧ p.good = true)
    (hb : bad.ok s.params.tokenMatch (blockLength s) = true) (hg : bad.good = false) (hn : packets.length < n)
    (h : s.wire = answers ((packets ++ [bad]).flatMap PacketAnswer.bytes) ++ rest) :
    readBlocks n i s =
      (.dataCrc, { s with
        work := Work.afterBlocks (packets ++ [bad]) i s.work
        mem := Memory.writeBytes s.mem (blockBase s i) ((packets ++ [bad]).flatMap PacketAnswer.payload)
        wire := rest
        trace := (received ((packets ++ [bad]).flatMap PacketAnswer.bytes)).reverse ++ s.trace }) := by
  obtain ⟨k, rfl⟩ : ∃ k, n = packets.length + (k + 1) := ⟨n - packets.length - 1, by omega⟩
  have hx : s.wire = answers (packets.flatMap PacketAnswer.bytes) ++ (answers bad.bytes ++ rest) := by rw [h]; simp
  have hl : ∀ ps : List PacketAnswer, (∀ p ∈ ps, p.ok s.params.tokenMatch (blockLength s) = true ∧ p.good = true) →
      (ps.flatMap PacketAnswer.payload).length = ps.length * blockLength s := by
    intro ps hps
    induction ps with
    | nil => simp
    | cons p ps ih =>
      have := (hps p (by simp)).1
      simp only [PacketAnswer.ok, Bool.and_eq_true, beq_iff_eq] at this
      rw [List.flatMap_cons, List.length_append, ih fun q hq => hps q (by simp [hq]), this.2, List.length_cons, Nat.succ_mul,
        Nat.add_comm]
  rw [readBlocks_add, readBlocks_answered hw packets i _ s (payloadsEven_of _ _ he) hp hx]
  simp only [andThen_ok, readBlocks]
  rw [andThen_assoc, packetInto_answered hw (i + packets.length) bad rest _ (by exact he) (by exact hb) (by rfl)]
  simp only [PacketAnswer.code, hg, Bool.false_eq_true, if_false, andThen_error .dataCrc _ _ (by decide)]
  have hbase : blockBase s i + (packets.flatMap PacketAnswer.payload).length = blockBase s (i + packets.length) := by
    rw [hl packets hp]
    simp only [blockBase, blockLength, Nat.add_mul, Nat.add_assoc]
  simp only [Work.afterBlocks_append, Work.afterBlocks, List.flatMap_append, List.flatMap_cons, List.flatMap_nil,
    List.append_nil, Memory.writeBytes_append, hbase, received_append, List.reverse_append, List.append_assoc]
  rfl

/-- `writeBlocks` on blocks that are all accepted. -/
theorem writeBlocks_answered (hw : ∀ m : List Byte, m.length % 2 = 0 → crc16Words m = crc16 m) (blocks : List WriteAnswer)
    (i : Nat) (rest : List WireAnswer) (later : List Bool) (s : State) (he : payloadsEven blocks.length s = true)
    (hb : ∀ b ∈ blocks, b.ok (blockLength s) = true)
    (h : s.wire = answers (blocks.flatMap WriteAnswer.bytes) ++ rest)
    (ht : s.timer = notElapsed (blocks.map WriteAnswer.queries).sum ++ later) :
    writeBlocks blocks.length i s =
      (.ok, { s with
        work := Work.afterWrites s.stamps
          ((List.range' i blocks.length).map fun j => Memory.readBytes s.mem (blockBase s j) (blockLength s)) i s.nowCount s.work
        nowCount := s.nowCount + s.stamps * blocks.length
        wire := rest
        timer := later
        trace := (writeEvents tokenMultiWriteByte blocks
          ((List.range' i blocks.length).map fun j =>
            Memory.readBytes s.mem (blockBase s j) (blockLength s))).reverse ++ s.trace }) := by
  induction blocks generalizing i s with
  | nil =>
    simp only [List.flatMap_nil, answers_nil, List.nil_append] at h
    simp only [List.map_nil, List.sum_nil, notElapsed, List.replicate_zero, List.nil_append] at ht
    simp [writeBlocks, Work.afterWrites, writeEvents, ← h, ← ht]
  | cons b blocks ih =>
    have hbb := hb b (by simp)
    have he := payloadsEven_blocks _ s he (by simp)
    have hx : s.wire = answers b.bytes ++ (answers (blocks.flatMap WriteAnswer.bytes) ++ rest) := by rw [h]; simp
    have htx : s.timer = notElapsed b.queries ++ (notElapsed (blocks.map WriteAnswer.queries).sum ++ later) := by
      rw [ht, List.map_cons, List.sum_cons, notElapsed, List.replicate_add, List.append_assoc]
      rfl
    rw [List.length_cons, writeBlocks, andThen_assoc,
      writtenBlock_answered hw tokenMultiWriteByte i b _ _ (setBlockIndex i s) he hbb hx htx]
    simp only [andThen_ok]
    rw [ih (i + 1) _ (payloadsEven_of _ _ (by exact he)) (by exact fun q hq => hb q (by simp [hq])) (by rfl) (by rfl)]
    have hst : s.nowCount + s.stamps * (blocks.length + 1) = s.nowCount + s.stamps + s.stamps * blocks.length := by
      rw [Nat.mul_add, Nat.mul_one]; omega
    simp only [List.range'_succ, List.map_cons, Work.afterWrites, Memory.readBytes_length, writeEvents, List.zipWith_cons_cons,
      List.flatten_cons, List.reverse_append, List.append_assoc, hst]
    rfl

/-! ### Rejected blocks -/

theorem acceptDataResponse_rejected (r : Rejection) (n : Nat) (h : r.ok n = true) :
    acceptDataResponse r.response = some r.code := by
  have hall : ∀ b : Byte, (b &&& 0x1F#8 == 0x0B#8 || b &&& 0x1F#8 == 0x0D#8) = true →
      acceptDataResponse b = some (if b &&& 0x1F#8 = 0x0B#8 then .dataCrc else .writeProgram) := by decide
  simp only [Rejection.ok, Bool.and_eq_true] at h
  exact hall r.response h.2

theorem Rejection.code_ne_ok (r : Rejection) : r.code ≠ .ok := by
  unfold Rejection.code
  split <;> decide

/-- Token and packet of block `i`, rejected by the card (43_token_data.md R214, R215): no busy wait. -/
theorem rejectedBlock_answered (hw : ∀ m : List Byte, m.length % 2 = 0 → crc16Words m = crc16 m) (tok : Byte) (i : Nat)
    (r : Rejection) (rest : List WireAnswer) (later : List Bool) (s : State) (he : blockLength s % 2 = 0)
    (hr : r.ok (blockLength s) = true) (h : s.wire = answers r.bytes ++ rest)
    (ht : s.timer = notElapsed r.pads.length ++ later) :
    andThen (sendToken tok s) (fun s => dataTx (blockLength s) (blockBase s i) s) =
      (r.code, { s with
        work.crcTx := crc16 (Memory.readBytes s.mem (blockBase s i) (blockLength s))
        work.k := blockLength s
        work.t0 := Config.now s.nowCount
        nowCount := s.nowCount + 1
        wire := rest
        timer := later
        trace := (r.events tok (Memory.readBytes s.mem (blockBase s i) (blockLength s))).reverse ++ s.trace }) := by
  have hc := acceptDataResponse_rejected r _ hr
  simp only [Rejection.ok, Bool.and_eq_true, beq_iff_eq] at hr
  obtain ⟨⟨hd, hpads⟩, -⟩ := hr
  obtain ⟨b, rx, hdr⟩ : ∃ b rx, r.dropped = b :: rx := by
    cases hx : r.dropped with
    | nil => rw [hx] at hd; simp at hd
    | cons b rx => exact ⟨b, rx, rfl⟩
  have hrx : rx.length = blockLength s + 2 := by rw [hdr] at hd; simp at hd; omega
  have hx : s.wire = .byte b :: (answers rx ++ (answers (r.pads ++ [r.response]) ++ rest)) := by
    rw [h]; simp [Rejection.bytes, hdr]
  rw [sendToken, send8_byte tok b _ s hx]
  simp only [andThen_ok, dataTx]
  rw [send16Crc_answered hw _ _ rx _ _ (by exact he) (by exact hrx) (by rfl)]
  simp only [andThen_ok, dataResponse]
  rw [timedPoll_answered acceptDataResponse r.pads r.response r.code rest later _
    (fun x hx => by simpa using List.all_eq_true.1 hpads x hx) hc (by rfl) (by exact ht)]
  rw [andThen_error _ _ _ r.code_ne_ok]
  simp only [Rejection.events, dataPacket, hdr, List.cons_append, transcript_cons, List.reverse_append, List.reverse_cons,
    List.append_assoc]
  rfl

/-- `writeBlocks` on blocks that are accepted and one that is rejected: it ends there (45_transfer.md R286). -/
theorem writeBlocks_rejected (hw : ∀ m : List Byte, m.length % 2 = 0 → crc16Words m = crc16 m) (blocks : List WriteAnswer)
    (r : Rejection) (n : Nat) (rest : List WireAnswer) (later : List Bool) (s : State) (he : blockLength s % 2 = 0)
    (hb : ∀ b ∈ blocks, b.ok (blockLength s) = true) (hr : r.ok (blockLength s) = true) (hn : blocks.length < n)
    (h : s.wire = answers (blocks.flatMap WriteAnswer.bytes ++ r.bytes) ++ rest)
    (ht : s.timer = notElapsed ((blocks.map WriteAnswer.queries).sum + r.pads.length) ++ later) :
    ∃ w, writeBlocks n 0 s =
      (r.code, { s with
        work := w
        nowCount := s.nowCount + s.stamps * blocks.length + 1
        wire := rest
        timer := later
        trace := (writeEvents tokenMultiWriteByte blocks
            ((List.range blocks.length).map fun j => Memory.readBytes s.mem (blockBase s j) (blockLength s)) ++
          r.events tokenMultiWriteByte (Memory.readBytes s.mem (blockBase s blocks.length) (blockLength s))).reverse
            ++ s.trace }) := by
  obtain ⟨k, rfl⟩ : ∃ k, n = blocks.length + (k + 1) := ⟨n - blocks.length - 1, by omega⟩
  have hx : s.wire = answers (blocks.flatMap WriteAnswer.bytes) ++ (answers r.bytes ++ rest) := by rw [h]; simp
  have htx : s.timer = notElapsed (blocks.map WriteAnswer.queries).sum ++ (notElapsed r.pads.length ++ later) := by
    rw [ht, notElapsed, List.replicate_add, List.append_assoc]
    rfl
  rw [writeBlocks_add, writeBlocks_answered hw blocks 0 _ _ s (payloadsEven_of _ _ he) hb hx htx]
  simp only [andThen_ok, writeBlocks, Nat.zero_add]
  rw [andThen_assoc, rejectedBlock_answered hw tokenMultiWriteByte blocks.length r rest later _ (by exact he) (by exact hr)
    (by rfl) (by rfl), andThen_error _ _ _ r.code_ne_ok]
  simp only [List.range_eq_range', List.reverse_append, List.append_assoc]
  exact ⟨_, rfl⟩

/-- `MULTI_WRITE_RECOVERY` (45_transfer.md R287), however far it gets: no further command after one that did not get its R1. -/
theorem multiWriteRecovery_answered (hcrc : ∀ m, crc7Fold crc7Table m = crc7Bitwise m)
    (hw : ∀ m : List Byte, m.length % 2 = 0 → crc16Words m = crc16 m) (v : Recovery) (rest : List WireAnswer) (s : State)
    (ht : s.tableReady) (hm : s.session.mode = .transfer) (ho : s.operands.op ≠ .readMultipleBlock)
    (hv : v.ok s.params.tokenMatch = true) (h : s.wire = answers v.bytes ++ rest) :
    ∃ w, multiWriteRecovery s = { s with
      session := { s.session with
        lastR1 := v.lastR1 s.session.lastR1
        lastWrittenBlockCount := v.count s.session.lastWrittenBlockCount }
      work := w
      wire := rest
      trace := v.events.reverse ++ s.trace } := by
  have hu : ∀ (a : CommandAnswer), a.r1 ≠ r1Normal → a.code r1Normal = .unexpectedR1 := fun a ha => by
    simp [CommandAnswer.code, ha]
  refine ⟨(multiWriteRecovery s).work, ?_⟩
  cases v with
  | noR1 dropped reads =>
    simp only [Recovery.ok, Bool.and_eq_true, beq_iff_eq] at hv
    simp only [multiWriteRecovery, cmd12Exchange,
      sendCommand_timeout hcrc 12 argZero r1Normal dropped reads rest s ht hv.1.1 hv.1.2 hv.2 h,
      andThen_error .r1Timeout _ _ (by decide)]
    rfl
  | stopUnexpected stop =>
    simp only [Recovery.ok, Bool.and_eq_true, bne_iff_ne, ne_eq] at hv
    simp only [multiWriteRecovery, cmd12Exchange, sendCommand_answered hcrc 12 argZero r1Normal stop rest s ht hv.1 h,
      hu stop hv.2, andThen_error .unexpectedR1 _ _ (by decide)]
    rfl
  | appUnexpected stop app =>
    simp only [Recovery.ok, Bool.and_eq_true, bne_iff_ne, ne_eq, beq_iff_eq] at hv
    simp only [multiWriteRecovery, cmd12Exchange,
      sendCommand_expected hcrc 12 argZero r1Normal stop app.bytes rest s ht hv.1.1.1 hv.1.1.2 h, andThen_ok,
      sentCommand, ho, if_false, wbcSeq, acmd22Exchange, sendACommand, sendPrefix, hm, expectedOfCmd55]
    rw [sendCommand_answered hcrc 55 argZero r1Normal app rest _ (by exact ht) hv.1.2 (by rfl)]
    simp only [hu app hv.2, andThen_error .unexpectedR1 _ _ (by decide), sentCommand]
    simp [Recovery.events, Recovery.lastR1, Recovery.count]
  | queryUnexpected stop app query =>
    simp only [Recovery.ok, Bool.and_eq_true, bne_iff_ne, ne_eq, beq_iff_eq] at hv
    have hx : s.wire = answers (stop.bytes ++ (app.bytes ++ query.bytes)) ++ rest := by rw [h]; simp [Recovery.bytes]
    simp only [multiWriteRecovery, cmd12Exchange,
      sendCommand_expected hcrc 12 argZero r1Normal stop _ rest s ht hv.1.1.1.1.1 hv.1.1.1.1.2 hx, andThen_ok,
      sentCommand, ho, if_false, wbcSeq, acmd22Exchange, sendACommand, sendPrefix, hm, expectedOfCmd55]
    rw [sendCommand_expected hcrc 55 argZero r1Normal app query.bytes rest _ (by exact ht) hv.1.1.1.2 hv.1.1.2 (by rfl)]
    simp only [andThen_ok, sentCommand]
    rw [sendCommand_answered hcrc 22 argZero r1Normal query rest _ (by exact ht) hv.1.2 (by rfl)]
    simp only [hu query hv.2, andThen_error .unexpectedR1 _ _ (by decide), sentCommand]
    simp [Recovery.events, Recovery.lastR1, Recovery.count]
  | counted stop app query p =>
    simp only [Recovery.ok, Bool.and_eq_true, beq_iff_eq] at hv
    have hx : s.wire = answers (stop.bytes ++ (app.bytes ++ (query.bytes ++ p.bytes))) ++ rest := by
      rw [h]; simp [Recovery.bytes]
    have hp := hv.2
    simp only [PacketAnswer.ok, Bool.and_eq_true, beq_iff_eq] at hp
    obtain ⟨b0, b1, b2, b3, hb⟩ : ∃ b0 b1 b2 b3, p.payload = [b0, b1, b2, b3] := by
      have := hp.2
      match p.payload, this with
      | [b0, b1, b2, b3], _ => exact ⟨b0, b1, b2, b3, rfl⟩
    simp only [multiWriteRecovery, cmd12Exchange,
      sendCommand_expected hcrc 12 argZero r1Normal stop _ rest s ht hv.1.1.1.1.1.1 hv.1.1.1.1.1.2 hx, andThen_ok,
      sentCommand, ho, if_false, wbcSeq, acmd22Exchange, sendACommand, sendPrefix, hm, expectedOfCmd55]
    rw [sendCommand_expected hcrc 55 argZero r1Normal app (query.bytes ++ p.bytes) rest _ (by exact ht) hv.1.1.1.1.2
      hv.1.1.1.2 (by rfl)]
    simp only [andThen_ok, sentCommand]
    rw [sendCommand_expected hcrc 22 argZero r1Normal query p.bytes rest _ (by exact ht) hv.1.1.2 hv.1.2 (by rfl)]
    simp only [andThen_ok, sentCommand]
    rw [andThen_assoc, packet_answered hw .w 4 p rest _ (by rfl) (by exact hv.2) (by rfl)]
    rw [hb, storeBytes_w, setBytes_four]
    by_cases hg : p.good = true
    · simp only [PacketAnswer.code, hg, if_true, andThen_ok, storeCount]
      simp [Recovery.events, Recovery.lastR1, Recovery.count, hg, hb, countOfBytes, hv.1.2]
    · simp only [PacketAnswer.code, hg, Bool.false_eq_true, if_false]
      rw [andThen_error .dataCrc _ _ (by decide)]
      simp [Recovery.events, Recovery.lastR1, Recovery.count, hg, hb, hv.1.2]

/-! ### The readiness poll -/

/-- One issue of `ACMD41` in mode `Identification`: never fatal, and `S.lastR1` is the R1 answered last. -/
theorem pollIssue_answered (hcrc : ∀ m, crc7Fold crc7Table m = crc7Bitwise m) (arg : Word) (exp : Byte) (p : PollAnswer)
    (rest : List WireAnswer) (s : State) (ht : s.tableReady) (hm : s.session.mode = .identification) (hp : p.ok = true)
    (h : s.wire = answers p.bytes ++ rest) :
    ∃ fr tries, pollIssue arg exp s =
      (.ok, { s with session.lastR1 := p.r1, work.fr := fr, work.tries := tries, wire := rest,
                     trace := (p.events arg).reverse ++ s.trace }) := by
  obtain ⟨app, acmd⟩ := p
  cases acmd with
  | none =>
    simp only [PollAnswer.ok, Bool.and_eq_true, bne_iff_ne, ne_eq] at hp
    have hx : s.wire = answers app.bytes ++ rest := by rw [h]; simp [PollAnswer.bytes]
    refine ⟨frameOf 55 argZero, app.pads.length + 1, ?_⟩
    simp only [pollIssue, acmd41Exchange, sendACommand, sendPrefix, hm, expectedOfCmd55,
      sendCommand_answered hcrc 55 argZero r1Idle app rest s ht hp.1 hx, CommandAnswer.code, hp.2, if_false,
      andThen_error .unexpectedR1 _ _ (by decide)]
    simp [pollFatal, sentCommand, PollAnswer.r1, PollAnswer.events, hm]
  | some b =>
    simp only [PollAnswer.ok, Bool.and_eq_true, beq_iff_eq] at hp
    have hx : s.wire = answers app.bytes ++ (answers b.bytes ++ rest) := by rw [h]; simp [PollAnswer.bytes]
    refine ⟨frameOf 41 arg, b.pads.length + 1, ?_⟩
    simp only [pollIssue, acmd41Exchange, sendACommand, sendPrefix, hm, expectedOfCmd55,
      sendCommand_answered hcrc 55 argZero r1Idle app _ s ht hp.1 hx, CommandAnswer.code, hp.2.1, if_true, andThen_ok]
    rw [sendCommand_answered hcrc 41 arg exp b rest _ (by exact ht) (by exact hp.2.2) (by rfl)]
    have hf : pollFatal (b.code exp) = false := by
      unfold CommandAnswer.code
      split <;> rfl
    simp [hf, sentCommand, PollAnswer.r1, PollAnswer.events, hm]

/-- The poll loop: rounds that are not ready, then one that is, the budget not expired. -/
theorem pollLoop_answered (hcrc : ∀ m, crc7Fold crc7Table m = crc7Bitwise m) (n : Nat) (rounds : List PollAnswer)
    (last : PollAnswer) (rest : List WireAnswer) (later : List Bool) (s : State) (ht : s.tableReady)
    (hm : s.session.mode = .identification) (hl : s.params.acmd41PairInLoop = false)
    (hr : ∀ p ∈ rounds, p.ok = true ∧ p.r1 ≠ r1Normal) (hk : last.ok = true) (hk1 : last.r1 = r1Normal)
    (hn : rounds.length < n) (h : s.wire = answers (rounds.flatMap PollAnswer.bytes ++ last.bytes) ++ rest)
    (htm : s.timer = notElapsed rounds.length ++ later) :
    ∃ fr tries, pollLoop n s =
      (.ok, { s with session.lastR1 := r1Normal, work.fr := fr, work.tries := tries, seq := .acmd41Repeat, wire := rest,
                     timer := later,
                     trace := (rounds.flatMap (PollAnswer.events · argZero) ++ last.events argZero).reverse ++ s.trace }) := by
  induction rounds generalizing n s with
  | nil =>
    obtain ⟨n, rfl⟩ : ∃ m, n = m + 1 := ⟨n - 1, by simp at hn; omega⟩
    simp only [List.flatMap_nil, List.nil_append] at h
    simp only [List.length_nil, notElapsed, List.replicate_zero, List.nil_append] at htm
    obtain ⟨fr, tries, he⟩ := pollIssue_answered hcrc argZero r1Normal last rest (setSeq .acmd41Repeat s) ht hm hk h
    refine ⟨fr, tries, ?_⟩
    simp only [pollLoop, pollRound, hl, Bool.false_eq_true, if_false, repeatIssue, he, andThen_ok, hk1, if_true]
    simp [setSeq, ← htm]
  | cons p rounds ih =>
    obtain ⟨n, rfl⟩ : ∃ m, n = m + 1 := ⟨n - 1, by simp at hn; omega⟩
    simp only [List.length_cons] at hn
    have hx : s.wire = answers p.bytes ++ (answers (rounds.flatMap PollAnswer.bytes ++ last.bytes) ++ rest) := by
      rw [h]; simp
    simp only [List.length_cons, notElapsed, List.replicate_succ, List.cons_append] at htm
    obtain ⟨fr, tries, he⟩ := pollIssue_answered hcrc argZero r1Normal p _ (setSeq .acmd41Repeat s) ht hm (hr p (by simp)).1 hx
    obtain ⟨fr2, tries2, he2⟩ := ih n
      { (setSeq .acmd41Repeat s) with
        session.lastR1 := p.r1, work.fr := fr, work.tries := tries,
        wire := answers (rounds.flatMap PollAnswer.bytes ++ last.bytes) ++ rest,
        trace := (p.events argZero).reverse ++ s.trace, timer := notElapsed rounds.length ++ later }
      ht hm hl (fun q hq => hr q (by simp [hq])) (by omega) rfl rfl
    refine ⟨fr2, tries2, ?_⟩
    simp only [pollLoop, pollRound, hl, Bool.false_eq_true, if_false, repeatIssue, he, andThen_ok, (hr p (by simp)).2,
      elapsed, setSeq_timer, htm]
    refine Eq.trans he2 ?_
    simp [setSeq]

end Sys2Proof.Machine
end

