-- ==== Sys2Proof/Laws/Operations.lean ====
section
/-! SUPPORT. What a public operation can do: how it starts and ends, and that a property which its primitive writes keep holds
when it reaches its end, whatever the environment answers. -/

namespace Sys2Proof.Machine

/-! ### Starting and ending -/

theorem complete_ok (s : State) : complete (.ok, s) = { s with work.seqResult := .ok, res := .ok, seq := .idleSeq } := rfl

theorem complete_error (c : Code) (s : State) (h : c ≠ .ok) :
    complete (c, s) = failHandler c { s with work.seqResult := c } := by
  cases c <;> first | rfl | exact absurd rfl h

/-- `RES` after a completed operation is the code its body ended with. -/
@[simp] theorem complete_res (r : Code × State) : (complete r).res = r.1 := by
  obtain ⟨c, s⟩ := r
  cases c <;> rfl

@[simp] theorem complete_seq (r : Code × State) : (complete r).seq = .idleSeq := by
  obtain ⟨c, s⟩ := r
  cases c <;> rfl

@[simp] theorem complete_mem (r : Code × State) : (complete r).mem = r.2.mem := by
  obtain ⟨c, s⟩ := r
  cases c <;> rfl

@[simp] theorem complete_table (r : Code × State) : (complete r).table = r.2.table := by
  obtain ⟨c, s⟩ := r
  cases c <;> rfl

@[simp] theorem complete_tableValid (r : Code × State) : (complete r).tableValid = r.2.tableValid := by
  obtain ⟨c, s⟩ := r
  cases c <;> rfl

/-- Everything a public operation can do that answers a next state: it was idle, and it was refused or ran its body. -/
theorem runOperation_next (ops : Operands) (ready : Bool) (body : State → Code × State) (s t : State)
    (h : runOperation ops ready body s = .next t) :
    s.seq = .idleSeq ∧ (ready = false ∧ t = refuse s ∨ ready = true ∧ t = complete (body (startOp ops s))) := by
  unfold runOperation at h
  split at h
  · rename_i hs
    cases ready <;> simp_all
  · simp at h

theorem runOperation_ready (ops : Operands) (body : State → Code × State) (s : State) (h : s.seq = .idleSeq) :
    runOperation ops true body s = .next (complete (body (startOp ops s))) := by simp [runOperation, h]

theorem commandReady_of (s : State) (hm : s.session.mode = .transfer) (hp : s.session.state = .standby)
    (ht : s.tableReady) : commandReady s = true := by simp [commandReady, admitted, hm, hp, ht.1]

theorem blockReady_of (blocks : Nat) (s : State) (hm : s.session.mode = .transfer) (hp : s.session.state = .standby)
    (ht : s.tableReady) (he : payloadsEven blocks s = true) : blockReady blocks s = true := by
  simp [blockReady, commandReady_of s hm hp ht, he]

theorem commandReady_admitted (s : State) (h : commandReady s = true) :
    s.session.mode = .transfer ∧ s.session.state = .standby ∧ s.tableValid = true := by
  simpa [commandReady, admitted, and_assoc] using h

theorem blockReady_admitted (blocks : Nat) (s : State) (h : blockReady blocks s = true) :
    s.session.mode = .transfer ∧ s.session.state = .standby ∧ s.tableValid = true ∧ payloadsEven blocks s = true := by
  simp only [blockReady, Bool.and_eq_true] at h
  obtain ⟨h1, h2⟩ := h
  obtain ⟨a, b, c⟩ := commandReady_admitted s h1
  exact ⟨a, b, c, h2⟩

/-! ### The transfers -/

/-- A property that the register writes of a transfer keep: `S.state` and the sequencer. -/
structure Moves (P : State → Prop) : Prop where
  state : ∀ s p, P s → P (setState p s)
  seq : ∀ s p, P s → P (setSeq p s)

/-- How a transfer ends: chip-select released after a state with the property, or a failing code in such a state. -/
def EndsIn (P : State → Prop) (r : Code × State) : Prop :=
  (∃ u, P u ∧ r = (.ok, csDeassert u)) ∨ (r.1 ≠ .ok ∧ P r.2)

theorem andThen_endsIn (P : State → Prop) (r : Code × State) (f : State → Code × State) (hr : P r.2)
    (hf : ∀ s, P s → EndsIn P (f s)) : EndsIn P (andThen r f) := by
  rw [andThen_eq]
  split
  · exact hf _ hr
  · rename_i h
    exact .inr ⟨h, hr⟩

theorem closeTransfer_endsIn (P : State → Prop) (hM : Moves P) (s : State) (h : P s) : EndsIn P (closeTransfer s) :=
  .inl ⟨_, hM.state s .standby h, rfl⟩

theorem closeQuery_endsIn (P : State → Prop) (s : State) (h : P s) : EndsIn P (closeQuery s) := .inl ⟨s, h, rfl⟩

theorem onRejected_keeps (P : State → Prop) (diagnose : State → State) (r : Code × State) (h : P r.2)
    (hd : ∀ s, P s → P (diagnose s)) : P (onRejected diagnose r).2 := by
  obtain ⟨c, s⟩ := r
  cases c <;> first | exact h | exact hd _ h

/-- The code of a rejected block is the code of its data response. -/
@[simp] theorem onRejected_fst (diagnose : State → State) (r : Code × State) : (onRejected diagnose r).1 = r.1 := by
  obtain ⟨c, s⟩ := r
  cases c <;> rfl

theorem onRejected_ok (diagnose : State → State) (s : State) : onRejected diagnose (.ok, s) = (.ok, s) := rfl

namespace Commands

variable {P : State → Prop} (hP : Commands P)
include hP

theorem multiWriteRecovery (hT : Waits P) (hR : Receives P) (hd : StableAt P .w 4)
    (hc : ∀ s v, P s → P { s with session.lastWrittenBlockCount := v }) (s : State) (h : P s) :
    P (Machine.multiWriteRecovery s) := by
  have hx := hP.cmd12Exchange hT argZero s h
  unfold Machine.multiWriteRecovery
  split
  · rename_i s1 heq
    rw [heq] at hx
    exact hP.acmd22Exchange hR hd hc argZero s1 hx
  · rename_i s1 _ heq
    rw [heq] at hx
    exact hx

theorem readBlockBody (hM : Moves P) (hR : Receives P)
    (hd : ∀ s, P s → StableAt P (.hostBuffer (blockBase s 0)) (blockLength s)) (s : State)
    (h : P (csAssert s)) : EndsIn P (Machine.readBlockBody s) :=
  andThen_endsIn P _ _ (hP.cmd17Exchange hR hd _ _ (hM.seq _ _ (hM.state _ _ h))) fun _ hs =>
    closeTransfer_endsIn P hM _ (hM.seq _ _ hs)

theorem readMultipleBlockBody (hM : Moves P) (hT : Waits P) (hR : Receives P) (hI : Indexes P)
    (hd : ∀ s i, i < s.operands.count.toNat → P s → StableAt P (.hostBuffer (blockBase s i)) (blockLength s))
    (count : Word) (hc : ∀ s, P s → s.operands.count = count) (s : State) (h : P (csAssert s)) :
    EndsIn P (Machine.readMultipleBlockBody s) :=
  andThen_endsIn P _ _ (hP.cmd18Exchange hR hI hd count hc _ _ (hM.seq _ _ (hM.state _ _ h))) fun _ hs =>
    andThen_endsIn P _ _ (hP.cmd12Exchange hT _ _ (hM.seq _ _ hs)) fun _ hs =>
      closeTransfer_endsIn P hM _ (hM.seq _ _ hs)

theorem writeBlockBody (hM : Moves P) (hT : Waits P) (hS : Sends P)
    (h2 : ∀ s v, P s → P { s with session.lastR2 := v }) (s : State) (h : P (csAssert s)) :
    EndsIn P (Machine.writeBlockBody s) :=
  andThen_endsIn P _ _
    (onRejected_keeps P _ _ (hP.cmd24Exchange hT hS _ _ (hM.seq _ _ (hM.state _ _ h))) fun s hs =>
      hP.cmd13Exchange h2 argZero s hs)
    fun _ hs => closeTransfer_endsIn P hM _ (hM.seq _ _ hs)

theorem stopWrite (hM : Moves P) (hT : Waits P) (h2 : ∀ s v, P s → P { s with session.lastR2 := v }) (s : State)
    (h : P s) : EndsIn P (Machine.stopWrite s) :=
  andThen_endsIn P _ _ (hP.sendToken _ s h) fun s hs =>
    andThen_endsIn P _ _ (hP.sendDummies _ s hs) fun s hs =>
      andThen_endsIn P _ _ (hP.busyWait hT s hs) fun _ hs =>
        andThen_endsIn P _ _ (hP.cmd13Exchange h2 argZero _ (hM.state _ _ hs)) fun s hs => closeQuery_endsIn P s hs

theorem writeMultipleBlockBody (hM : Moves P) (hT : Waits P) (hS : Sends P) (hI : Indexes P) (hR : Receives P)
    (hd : StableAt P .w 4) (h2 : ∀ s v, P s → P { s with session.lastR2 := v })
    (hc : ∀ s v, P s → P { s with session.lastWrittenBlockCount := v }) (s : State) (h : P (csAssert s)) :
    EndsIn P (Machine.writeMultipleBlockBody s) := by
  have h0 : P (nextStep 2 (openTransfer .sending s)) := hM.seq _ _ (hM.state _ _ h)
  have h1 := hP.cmd25Exchange hT hS hI
    (xlate (openTransfer .sending s).session (openTransfer .sending s).operands.addr) _ h0
  have h2' := onRejected_keeps P Machine.multiWriteRecovery _ h1 fun s hs => hP.multiWriteRecovery hT hR hd hc s hs
  unfold Machine.writeMultipleBlockBody
  exact andThen_endsIn P _ _ h2' fun s hs => hP.stopWrite hM hT h2 _ (hM.seq s _ hs)

theorem readStatusBody (h2 : ∀ s v, P s → P { s with session.lastR2 := v }) (s : State) (h : P (csAssert s)) :
    EndsIn P (Machine.readStatusBody s) := by
  unfold Machine.readStatusBody statusSeq
  exact andThen_endsIn P _ _ (hP.cmd13Exchange h2 argZero _ h) fun s hs => closeQuery_endsIn P s hs

theorem getWrittenBlockCountBody (hR : Receives P) (hd : StableAt P .w 4)
    (hc : ∀ s v, P s → P { s with session.lastWrittenBlockCount := v }) (s : State) (h : P (csAssert s)) :
    EndsIn P (Machine.getWrittenBlockCountBody s) := by
  unfold Machine.getWrittenBlockCountBody wbcSeq
  exact andThen_endsIn P _ _ (hP.acmd22Exchange hR hd hc argZero _ h) fun s hs => closeQuery_endsIn P s hs

end Commands

/-- A block transfer that ends well ends in `Standby`. -/
theorem readBlockBody_standby (s : State) (h : (readBlockBody s).1 = .ok) :
    (readBlockBody s).2.session.state = .standby := by
  unfold readBlockBody at h ⊢
  rw [(andThen_fst_ok _ _ h).2.2]
  rfl

theorem readMultipleBlockBody_standby (s : State) (h : (readMultipleBlockBody s).1 = .ok) :
    (readMultipleBlockBody s).2.session.state = .standby := by
  unfold readMultipleBlockBody at h ⊢
  obtain ⟨-, h2, h3⟩ := andThen_fst_ok _ _ h
  rw [h3, (andThen_fst_ok _ _ h2).2.2]
  rfl

theorem writeBlockBody_standby (s : State) (h : (writeBlockBody s).1 = .ok) :
    (writeBlockBody s).2.session.state = .standby := by
  unfold writeBlockBody at h ⊢
  rw [(andThen_fst_ok _ _ h).2.2]
  rfl

/-- A command keeps `S.state`. -/
theorem commands_state (p : Phase) : Commands fun s : State => s.session.state = p :=
  ⟨⟨⟨fun _ _ _ _ h => h⟩, fun _ _ h => h⟩, fun _ _ h => h, fun _ _ _ h => h⟩

theorem stopWrite_standby (s : State) (h : (stopWrite s).1 = .ok) : (stopWrite s).2.session.state = .standby := by
  unfold stopWrite at h ⊢
  obtain ⟨-, h2, h3⟩ := andThen_fst_ok _ _ h
  obtain ⟨-, h4, h5⟩ := andThen_fst_ok _ _ h2
  obtain ⟨-, h6, h7⟩ := andThen_fst_ok _ _ h4
  rw [h3, h5, h7, (andThen_fst_ok _ _ h6).2.2]
  exact (commands_state .standby).cmd13Exchange (fun _ _ h => h) argZero _ rfl

theorem writeMultipleBlockBody_standby (s : State) (h : (writeMultipleBlockBody s).1 = .ok) :
    (writeMultipleBlockBody s).2.session.state = .standby := by
  unfold writeMultipleBlockBody at h ⊢
  obtain ⟨-, h2, h3⟩ := andThen_fst_ok _ _ h
  rw [h3]
  exact stopWrite_standby _ h2

/-- A query keeps `S.state`. -/
theorem readStatusBody_state (s : State) : (readStatusBody s).2.session.state = s.session.state := by
  have h := (commands_state s.session.state).readStatusBody (fun _ _ h => h) s rfl
  rcases h with ⟨u, hu, he⟩ | ⟨-, h⟩
  · rw [he]; exact hu
  · exact h

theorem getWrittenBlockCountBody_state (s : State) :
    (getWrittenBlockCountBody s).2.session.state = s.session.state := by
  have h := (commands_state s.session.state).getWrittenBlockCountBody (fun _ _ _ _ h => h) (fun _ _ _ _ h => h)
    (fun _ _ h => h) s rfl
  rcases h with ⟨u, hu, he⟩ | ⟨-, h⟩
  · rw [he]; exact hu
  · exact h

/-! ### `INITIALIZE` -/

/-- A property that the register writes of `INITIALIZE` keep, beside those of its commands. -/
structure Initializes (P : State → Prop) : Prop extends Commands P, Waits P where
  seq : ∀ s p, P s → P (setSeq p s)
  receives : Receives P
  r7 : StableAt P .r7 4
  ocr : StableAt P .ocr 4
  cid : StableAt P .cid 16
  csd : StableAt P .csd 16

namespace Initializes

variable {P : State → Prop} (hP : Initializes P)
include hP

omit hP in
theorem judgeCmd8 (hV : ∀ s v, P s → P { s with session.specVersion := v }) (r : Code × State) (h : P r.2) : P (Machine.judgeCmd8 r).2 := by
  unfold Machine.judgeCmd8
  split
  · split
    · exact hV _ _ h
    · exact h
  · split
    · exact hV _ _ h
    · exact h
  · exact h

theorem initStep3 (hV : ∀ s v, P s → P { s with session.specVersion := v }) (s : State) (h : P s) :
    P (Machine.initStep3 s).2 :=
  Initializes.judgeCmd8 hV _ (hP.cmd8Exchange hP.r7 _ _ (hP.seq s _ h))

theorem pollIssue (arg : Word) (exp : Byte) (s : State) (h : P s) : P (Machine.pollIssue arg exp s).2 := by
  have hx := hP.acmd41Exchange arg exp s h
  show P (if pollFatal (Machine.acmd41Exchange arg exp s).1 then Machine.acmd41Exchange arg exp s
    else (Code.ok, (Machine.acmd41Exchange arg exp s).2)).2
  split <;> exact hx

theorem pollRound (s : State) (h : P s) : P (Machine.pollRound s).2 := by
  unfold Machine.pollRound
  split
  · exact andThen_keeps P _ _ (hP.pollIssue _ _ _ (hP.seq s _ h)) fun s hs => hP.pollIssue _ _ _ (hP.seq s _ hs)
  · exact hP.pollIssue _ _ _ (hP.seq s _ h)

theorem pollLoop (n : Nat) (s : State) (h : P s) : P (Machine.pollLoop n s).2 := by
  induction n generalizing s with
  | zero => exact h
  | succ n ih =>
    refine andThen_keeps P _ _ (hP.pollRound s h) fun s hs => ?_
    split
    · exact hs
    · have he : P (elapsed s).2 := by
        unfold elapsed
        split
        · exact hP.timer s _ hs
        · exact hs
      split <;> rename_i heq <;> rw [heq] at he
      · exact he
      · exact ih _ he

/-- The readiness poll without the write of mode and state that ends it. -/
theorem initStep4 (s : State) (h : P s) :
    ((Machine.initStep4 s).1 ≠ .ok ∧ P (Machine.initStep4 s).2) ∨
      ∃ u, P u ∧ Machine.initStep4 s = (.ok, setModeState .transfer .standby u) := by
  have h0 : P (startWait (atStep 4 s)) := hP.start _ (hP.seq s _ h)
  have h1 : P (if (startWait (atStep 4 s)).params.acmd41PairInLoop then (Code.ok, startWait (atStep 4 s))
      else firstIssue (startWait (atStep 4 s))).2 := by
    split
    · exact h0
    · exact hP.pollIssue _ _ _ (hP.seq _ _ h0)
  have h2 := andThen_keeps P _ (fun s => Machine.pollLoop (timedRounds s) s) h1 fun s hs => hP.pollLoop _ s hs
  have he : Machine.initStep4 s = andThen (andThen (if (startWait (atStep 4 s)).params.acmd41PairInLoop
      then (Code.ok, startWait (atStep 4 s)) else firstIssue (startWait (atStep 4 s)))
      fun s => Machine.pollLoop (timedRounds s) s) fun s => (.ok, setModeState .transfer .standby s) :=
    andThen_assoc _ _ _
  rw [he]
  generalize andThen _ (fun s => Machine.pollLoop (timedRounds s) s) = r at h2
  obtain ⟨c, u⟩ := r
  by_cases hc : c = .ok
  · subst hc
    exact .inr ⟨u, h2, rfl⟩
  · rw [andThen_error c u _ hc]
    exact .inl ⟨hc, h2⟩

/-- The OCR read writes the class only of a version-2 card. -/
theorem initStep5 (hC : ∀ s v, s.session.specVersion = .v2 → P s → P { s with session.capacityClass := v }) (s : State)
    (h : P s) : P (Machine.initStep5 s).2 := by
  have h0 : P (atStep 5 s) := hP.seq s _ h
  have hQ : Commands fun s : State => P s ∧ s.session.specVersion = .v2 :=
    ⟨⟨⟨fun s w e he h => ⟨hP.exchange s w e he h.1, h.2⟩⟩, fun s n h => ⟨hP.tries s n h.1, h.2⟩⟩,
      fun s v h => ⟨hP.frame s v h.1, h.2⟩, fun s r hr h => ⟨hP.lastR1 s r hr h.1, h.2⟩⟩
  unfold Machine.initStep5
  show P (if (atStep 5 s).session.specVersion = .v2 then _ else _ : Code × State).2
  split
  · rename_i hv
    refine (andThen_keeps (fun s : State => P s ∧ s.session.specVersion = .v2) _ _
      (hQ.cmd58Exchange (fun s k v hk h => ⟨hP.ocr s k v hk h.1, h.2⟩) _ _ ⟨h0, hv⟩) fun s hs => ?_).1
    show P (classOfOcr s) ∧ (classOfOcr s).session.specVersion = .v2
    unfold classOfOcr
    split
    · exact ⟨hC s _ hs.2 hs.1, hs.2⟩
    · exact hs
  · exact h0

theorem initStep7 (s : State) (h : P s) : P (Machine.initStep7 s).2 :=
  andThen_keeps P _ _ (hP.cmd10Exchange hP.receives hP.cid _ _ (hP.seq s _ h)) fun s hs =>
    hP.cmd9Exchange hP.receives hP.csd _ s hs

end Initializes

end Sys2Proof.Machine
end

