-- ==== Sys2Proof/Laws/PerInstr.lean ====
section
/-! SUPPORT. Statements made per instruction: the way an instruction travels and how many bytes it has (30_encoding.md R90, R91,
R99, R101, R118; the operand bytes of a host operation are the model's, log 8). -/

namespace Sys2Proof.Laws.EncodedFormat

/-- The lane and the number of bytes of an instruction's format (R90). -/
def format : Instr → Lane × Nat
  | .cmd0 _ _ => (.engineToCard, 6)
  | .cmd8 _ _ => (.engineToCard, 6)
  | .cmd9 _ _ => (.engineToCard, 6)
  | .cmd10 _ _ => (.engineToCard, 6)
  | .cmd12 _ _ => (.engineToCard, 6)
  | .cmd13 _ _ => (.engineToCard, 6)
  | .cmd16 _ _ => (.engineToCard, 6)
  | .cmd17 _ _ => (.engineToCard, 6)
  | .cmd18 _ _ => (.engineToCard, 6)
  | .cmd24 _ _ => (.engineToCard, 6)
  | .cmd25 _ _ => (.engineToCard, 6)
  | .cmd55 _ _ => (.engineToCard, 6)
  | .cmd58 _ _ => (.engineToCard, 6)
  | .acmd22 _ _ => (.engineToCard, 6)
  | .acmd41 _ _ => (.engineToCard, 6)
  | .tokenStart .sent => (.engineToCard, 1)
  | .tokenStart .received => (.cardToEngine, 1)
  | .tokenMultiWrite => (.engineToCard, 1)
  | .tokenStopTran => (.engineToCard, 1)
  | .drAccepted _ => (.cardToEngine, 1)
  | .drCrcError _ => (.cardToEngine, 1)
  | .drWriteError _ => (.cardToEngine, 1)
  | .crc7Build => (.hostToEngine, 1)
  | .initializeOp _ _ _ => (.hostToEngine, 13)
  | .readBlock _ _ => (.hostToEngine, 9)
  | .writeBlock _ _ => (.hostToEngine, 9)
  | .readMultipleBlock _ _ _ => (.hostToEngine, 13)
  | .writeMultipleBlock _ _ _ => (.hostToEngine, 13)
  | .readStatus => (.hostToEngine, 1)
  | .getWrittenBlockCount => (.hostToEngine, 1)

/-- The encoding of an instruction has its format. -/
def Statement (i : Instr) : Prop := ((encode i).lane, (encode i).bytes.length) = format i

theorem cmd0 (arg : Word) (crc : BitVec 7) : Statement (.cmd0 arg crc) := rfl
theorem cmd8 (arg : Word) (crc : BitVec 7) : Statement (.cmd8 arg crc) := rfl
theorem cmd9 (arg : Word) (crc : BitVec 7) : Statement (.cmd9 arg crc) := rfl
theorem cmd10 (arg : Word) (crc : BitVec 7) : Statement (.cmd10 arg crc) := rfl
theorem cmd12 (arg : Word) (crc : BitVec 7) : Statement (.cmd12 arg crc) := rfl
theorem cmd13 (arg : Word) (crc : BitVec 7) : Statement (.cmd13 arg crc) := rfl
theorem cmd16 (arg : Word) (crc : BitVec 7) : Statement (.cmd16 arg crc) := rfl
theorem cmd17 (arg : Word) (crc : BitVec 7) : Statement (.cmd17 arg crc) := rfl
theorem cmd18 (arg : Word) (crc : BitVec 7) : Statement (.cmd18 arg crc) := rfl
theorem cmd24 (arg : Word) (crc : BitVec 7) : Statement (.cmd24 arg crc) := rfl
theorem cmd25 (arg : Word) (crc : BitVec 7) : Statement (.cmd25 arg crc) := rfl
theorem cmd55 (arg : Word) (crc : BitVec 7) : Statement (.cmd55 arg crc) := rfl
theorem cmd58 (arg : Word) (crc : BitVec 7) : Statement (.cmd58 arg crc) := rfl
theorem acmd22 (arg : Word) (crc : BitVec 7) : Statement (.acmd22 arg crc) := rfl
theorem acmd41 (arg : Word) (crc : BitVec 7) : Statement (.acmd41 arg crc) := rfl
theorem tokenStart (dir : TokenDirection) : Statement (.tokenStart dir) := by cases dir <;> rfl
theorem tokenMultiWrite : Statement .tokenMultiWrite := rfl
theorem tokenStopTran : Statement .tokenStopTran := rfl
theorem drAccepted (ignored : BitVec 3) : Statement (.drAccepted ignored) := rfl
theorem drCrcError (ignored : BitVec 3) : Statement (.drCrcError ignored) := rfl
theorem drWriteError (ignored : BitVec 3) : Statement (.drWriteError ignored) := rfl
theorem crc7Build : Statement .crc7Build := rfl
theorem initializeOp (transport cs busClockHz : Word) : Statement (.initializeOp transport cs busClockHz) := rfl
theorem readBlock (addr buf : Word) : Statement (.readBlock addr buf) := rfl
theorem writeBlock (addr buf : Word) : Statement (.writeBlock addr buf) := rfl
theorem readMultipleBlock (addr buf count : Word) : Statement (.readMultipleBlock addr buf count) := rfl
theorem writeMultipleBlock (addr buf count : Word) : Statement (.writeMultipleBlock addr buf count) := rfl
theorem readStatus : Statement .readStatus := rfl
theorem getWrittenBlockCount : Statement .getWrittenBlockCount := rfl

end Sys2Proof.Laws.EncodedFormat
end

