-- ==== Sys2Proof/Tests/Slice0.lean ====
section
/-! SUPPORT. Tests: the checks of well-formedness, the decoding of words written out from 30_encoding.md, single steps with the
expected values of 95_test_vectors.md (cited by their names there), and a witness for the hypotheses of every statement. -/

namespace Sys2Proof.Tests

open Sys2Proof.Machine

set_option maxRecDepth 100000

/-! ### Helpers -/

/-- Bytes of numbers. -/
def bytes (l : List Nat) : List Byte := l.map (BitVec.ofNat 8)

/-- What the card presents, as numbers. -/
def card (l : List Nat) : List WireAnswer := answers (bytes l)

/-- Six bytes nobody looks at. -/
def six : List Nat := List.replicate 6 0xFF

/-- A session in `(Transfer, Standby)`, with the table, and with blocks of four bytes, which keeps the tests short. -/
def ready : State := { State.reset with
  table := crc7Table
  tableValid := true
  clockProfile := .clkTransfer
  session := { State.reset.session with
    mode := .transfer, state := .standby, specVersion := .v2, capacityClass := .sdhc, blockSize := 4 } }

/-- The same session with a script. -/
def facing (l : List Nat) (timer : List Bool) : State := { ready with wire := card l, timer := timer }

/-- The state after an outcome; a stop gives the reset state, whose trace is empty. -/
def after (r : Result) : State :=
  match r with
  | .next s => s
  | _ => State.reset

/-- What the engine sent, the oldest first. -/
def sent (s : State) : List Byte :=
  s.trace.reverse.filterMap fun e => match e with
    | .exchange tx _ => some tx
    | .failedExchange tx => some tx
    | _ => none

/-- A command answered on the second read. -/
def answer (r1 : Byte) : CommandAnswer := ⟨bytes six, [0xFF#8], r1⟩

/-- A command answered on the tenth read, the last. -/
def lateAnswer (r1 : Byte) : CommandAnswer := ⟨bytes six, List.replicate 9 0xFF#8, r1⟩

/-- A packet with the CRC16 word of its payload. -/
def packet (payload : List Byte) : PacketAnswer := ⟨[0xFF#8], payload, crc16 payload⟩

/-- A packet whose token is the hundredth byte read and whose CRC16 word is wrong. -/
def wrongPacket (payload : List Byte) : PacketAnswer := ⟨List.replicate 99 0xFF#8, payload, ~~~ crc16 payload⟩

/-- A card that accepts a written block of four bytes after one poll and is busy for one. -/
def acceptance : WriteAnswer := ⟨List.replicate 7 0xFF#8, [0xFF#8], 0b111#3, [0x00#8]⟩

/-! ### Well-formedness -/

/-- Frames of 95_test_vectors.md F1, F11, F29 are well-formed. -/
theorem test_well_formed_frames :
    ((Instr.cmd0 0#32 0x4A#7).wellFormed, (Instr.cmd17 0x200#32 0x3C#7).wellFormed,
      (Instr.acmd41 0x40000000#32 0x3B#7).wellFormed) = (true, true, true) := by decide

/-- The argument check refuses an argument that R103 does not give the command. -/
theorem test_ill_formed_argument :
    ((Instr.cmd0 1#32 (crc7Bitwise (frameHead 0 1#32))).wellFormed,
      (Instr.cmd16 0x400#32 (crc7Bitwise (frameHead 16 0x400#32))).wellFormed) = (false, false) := by decide

/-- The CRC check refuses a wrong CRC7. -/
theorem test_ill_formed_crc : ((Instr.cmd0 0#32 0x4B#7).wellFormed, (Instr.cmd17 0x200#32 0x3D#7).wellFormed) =
    (false, false) := by decide

/-! ### Decoding: the words of 30_encoding.md, frames F1 to F30 of 95_test_vectors.md -/

/-- A frame to the card. -/
def frame (l : List Nat) : Decoded := decode ⟨.engineToCard, bytes l⟩

theorem test_decode_frames_0_to_12 :
    [frame [0x40, 0, 0, 0, 0, 0x95], frame [0x48, 0, 0, 1, 0xAA, 0x87], frame [0x49, 0, 0, 0, 0, 0xAF],
      frame [0x4A, 0, 0, 0, 0, 0x1B], frame [0x4C, 0, 0, 0, 0, 0x61]] =
    [.instr (.cmd0 0 0x4A) [], .instr (.cmd8 0x1AA 0x43) [], .instr (.cmd9 0 0x57) [], .instr (.cmd10 0 0x0D) [],
      .instr (.cmd12 0 0x30) []] := by decide

theorem test_decode_frames_13_to_24 :
    [frame [0x4D, 0, 0, 0, 0, 0x0D], frame [0x50, 0, 0, 2, 0, 0x15], frame [0x51, 0, 0, 2, 0, 0x79],
      frame [0x52, 0, 0, 0, 7, 0x9F], frame [0x58, 0, 0, 0x14, 0, 0x45]] =
    [.instr (.cmd13 0 0x06) [], .instr (.cmd16 0x200 0x0A) [], .instr (.cmd17 0x200 0x3C) [],
      .instr (.cmd18 7 0x4F) [], .instr (.cmd24 0x1400 0x22) []] := by decide

theorem test_decode_frames_25_to_acmd41 :
    [frame [0x59, 0, 0, 0, 0x64, 0xE7], frame [0x77, 0, 0, 0, 0, 0x65], frame [0x7A, 0, 0, 0, 0, 0xFD],
      frame [0x56, 0, 0, 0, 0, 0x43], frame [0x69, 0x40, 0, 0, 0, 0x77]] =
    [.instr (.cmd25 0x64 0x73) [], .instr (.cmd55 0 0x32) [], .instr (.cmd58 0 0x7E) [], .instr (.acmd22 0 0x21) [],
      .instr (.acmd41 0x40000000 0x3B) []] := by decide

/-- Tokens (R99) and data responses (R101, bits 7:5 ignored). -/
theorem test_decode_tokens :
    [frame [0xFE], frame [0xFC], frame [0xFD], decode ⟨.cardToEngine, [0xFE]⟩, decode ⟨.cardToEngine, [0xE5]⟩,
      decode ⟨.cardToEngine, [0x0B]⟩, decode ⟨.cardToEngine, [0xED]⟩] =
    [.instr (.tokenStart .sent) [], .instr .tokenMultiWrite [], .instr .tokenStopTran [],
      .instr (.tokenStart .received) [], .instr (.drAccepted 7) [], .instr (.drCrcError 0) [],
      .instr (.drWriteError 7) []] := by decide

/-- A host operation. -/
def host (l : List Nat) : Decoded := decode ⟨.hostToEngine, bytes l⟩

/-- The host operations (R118); the operand bytes are the model's (log 8). -/
theorem test_decode_operations :
    [host [0], host [1, 0, 0, 0, 1, 0, 0, 0, 2, 0, 0, 0, 3], host [2, 0, 0, 0, 10, 0, 0, 1, 0],
      host [3, 0, 0, 0, 10, 0, 0, 1, 0], host [4, 0, 0, 0, 10, 0, 0, 1, 0, 0, 0, 0, 2],
      host [5, 0, 0, 0, 10, 0, 0, 1, 0, 0, 0, 0, 2], host [6], host [7]] =
    [.instr .crc7Build [], .instr (.initializeOp 1 2 3) [], .instr (.readBlock 10 256) [],
      .instr (.writeBlock 10 256) [], .instr (.readMultipleBlock 10 256 2) [],
      .instr (.writeMultipleBlock 10 256 2) [], .instr .readStatus [], .instr .getWrittenBlockCount []] := by decide

/-- What is no instruction is rejected by name: code 8 (R119), command 1, a clear stop bit (R91), `0xFF` to the card, `0x09`
from the card, a frame cut short. -/
theorem test_decode_rejects :
    [host [8], frame [0x41, 0, 0, 0, 0, 1], frame [0x40, 0, 0, 0, 0, 0x94], frame [0xFF], decode ⟨.cardToEngine, [0x09]⟩,
      frame [0x40, 0, 0]] =
    [.reject .unknownOperation, .reject .unknownCommand, .reject .stopBitClear, .reject .noFrameNoToken,
      .reject .noTokenNoResponse, .reject .truncated] := by decide

/-- Words as the opcode table numbers them, bit 47 of a frame the first on the wire. -/
theorem test_table_words :
    [decodeTableWord 48 0x400000000095, decodeTableWord 48 0x510000020079, decodeTableWord 8 0xFC,
      decodeTableWord 8 0xED, decodeTableWord 8 0x02] =
    [some (.cmd0 0 0x4A), some (.cmd17 0x200 0x3C), some .tokenMultiWrite, some (.drWriteError 7),
      some (.readBlock 0 0)] := by decide

/-- The item that `withFetchWord` places is the one the next step runs. -/
theorem test_with_fetch_word : (after (step (State.reset.withFetchWord 8 0x00))).tableValid = true := by decide

/-! ### The checksums: vectors V2, V6, V11 to V14, K2 to K12 -/

theorem test_crc7_table :
    [crc7Entry 0x01, crc7Entry 0x10, crc7Entry 0x80, crc7Entry 0x89, crc7Entry 0x51, crc7Entry 0xD0] =
      [0x09, 0x19, 0x41, 0x00, 0x74, 0x3C] := by decide

theorem test_crc7 :
    [crc7Bitwise (bytes [0x40, 0, 0, 0, 0]), crc7Bitwise (bytes [0x48, 0, 0, 1, 0xAA]),
      crc7Fold crc7Table (bytes [0x51, 0, 0, 2, 0]), crc7Fold crc7Table (bytes [0xFF, 0xFF, 0xFF, 0xFF, 0xFF])] =
      [0x4A, 0x43, 0x3C, 0x11] := by decide

theorem test_crc16 :
    [crc16 [0x01], crc16 (bytes [0x80, 0x00]), crc16Words (bytes [0x12, 0x34, 0x56, 0x78]),
      crc16 (bytes [0x31, 0x32, 0x33, 0x34, 0x35, 0x36, 0x37, 0x38, 0x39]), crc16Words (bytes (List.range 16)),
      crc16Entry 0xFF] =
      [0x1021, 0x1B98, 0xB42C, 0x31C3, 0x513D, 0x1EF0] := by decide

/-! ### Single steps: the commands -/

/-- F1, A2. -/
theorem test_cmd0 :
    let t := after (exec (.cmd0 0 0) (facing (six ++ [0xFF, 0x01]) []))
    (t.work.seqResult, t.session.lastR1, sent t) =
      (.ok, 0x01#8, bytes [0x40, 0, 0, 0, 0, 0x95, 0xFF, 0xFF]) := by decide

/-- A6: bytes with bit 7 set are no R1; `05` is an unexpected one. -/
theorem test_cmd0_unexpected :
    let t := after (exec (.cmd0 0 0) (facing (six ++ [0x80, 0xC1, 0x05]) []))
    (t.work.seqResult, t.session.lastR1, t.work.tries) = (.unexpectedR1, 0x05#8, 3) := by decide

/-- F2 with the trailer of P1. -/
theorem test_cmd8 :
    let t := after (exec (.cmd8 0x1AA 0) (facing (six ++ [0x01, 0, 0, 0x01, 0xAA]) []))
    (t.work.seqResult, t.work.r7, (sent t).take 6) =
      (.ok, #v[0x00#8, 0x00#8, 0x01#8, 0xAA#8], bytes [0x48, 0, 0, 1, 0xAA, 0x87]) := by decide

/-- F3 with the CSD of P1 and its CRC16 (K24). -/
theorem test_cmd9 :
    let csd := [0x40, 0x0E, 0x00, 0x32, 0x5B, 0x59, 0x00, 0x00, 0x3B, 0x37, 0x7F, 0x80, 0x0A, 0x40, 0x00, 0x67]
    let t := after (exec (.cmd9 0 0) (facing (six ++ [0x00, 0xFF, 0xFE] ++ csd ++ [0x48, 0xA6]) []))
    (t.work.seqResult, t.session.csd.toList, (sent t).take 6) =
      (.ok, bytes csd, bytes [0x49, 0, 0, 0, 0, 0xAF]) := by decide

/-- F4 with the CID of P1 and a wrong CRC16 (K23, I13). -/
theorem test_cmd10_crc :
    let cid := [0x03, 0x53, 0x44, 0x53, 0x44, 0x30, 0x38, 0x47, 0x80, 0x12, 0x34, 0x56, 0x78, 0x01, 0x2B, 0xD1]
    let t := after (exec (.cmd10 0 0) (facing (six ++ [0x00, 0xFE] ++ cid ++ [0xB6, 0x05]) []))
    (t.work.seqResult, t.session.cid.toList, (sent t).take 6) =
      (.dataCrc, bytes cid, bytes [0x4A, 0, 0, 0, 0, 0x1B]) := by decide

/-- F5, without a drain. -/
theorem test_cmd12 :
    let t := after (exec (.cmd12 0 0) (facing (six ++ [0x00]) []))
    (t.work.seqResult, sent t) = (.ok, bytes [0x4C, 0, 0, 0, 0, 0x61, 0xFF]) := by decide

/-- F6 and E6: the second byte is kept, and is no error. -/
theorem test_cmd13 :
    let t := after (exec (.cmd13 0 0) (facing (six ++ [0x00, 0x08]) []))
    (t.work.seqResult, t.session.lastR2, (sent t).take 6) =
      (.ok, 0x08#8, bytes [0x4D, 0, 0, 0, 0, 0x0D]) := by decide

/-- F7. -/
theorem test_cmd16 :
    let t := after (exec (.cmd16 0x200 0) (facing (six ++ [0x00]) []))
    (t.work.seqResult, (sent t).take 6) = (.ok, bytes [0x50, 0, 0, 2, 0, 0x15]) := by decide

/-- F11 with the payload of K6. -/
theorem test_cmd17 :
    let t := after (exec (.cmd17 0x200 0) (facing (six ++ [0x00, 0xFE, 0x12, 0x34, 0x56, 0x78, 0xB4, 0x2C]) []))
    (t.work.seqResult, Memory.readBytes t.mem 0 4, (sent t).take 6) =
      (.ok, bytes [0x12, 0x34, 0x56, 0x78], bytes [0x51, 0, 0, 2, 0, 0x79]) := by decide

/-- R75, R294: the exchange of a word's second byte fails, and the first byte is in the buffer. -/
theorem test_cmd17_half_word :
    let s := facing (six ++ [0x00, 0xFE, 0x12]) []
    let t := after (exec (.cmd17 0 0) { s with wire := s.wire ++ [.ioFail], mem := [(0, 0xAA), (1, 0xBB)] })
    (t.work.seqResult, Memory.readBytes t.mem 0 4) = (.transportIo, bytes [0x12, 0xBB, 0x00, 0x00]) := by decide

/-- F16 with the payloads of K6 and K10. -/
theorem test_cmd18 :
    let s := facing (six ++ [0x00, 0xFE, 0x12, 0x34, 0x56, 0x78, 0xB4, 0x2C, 0xFE, 0xFF, 0xFF, 0xFF, 0xFF, 0x99, 0xCF]) []
    let t := after (exec (.cmd18 7 0) { s with operands := { s.operands with count := 2, buf := 16 } })
    (t.work.seqResult, Memory.readBytes t.mem 16 8, (sent t).take 6) =
      (.ok, bytes [0x12, 0x34, 0x56, 0x78, 0xFF, 0xFF, 0xFF, 0xFF], bytes [0x52, 0, 0, 0, 7, 0x9F]) := by decide

/-- F22 with the payload of K6, T11. -/
theorem test_cmd24 :
    let s := facing (six ++ [0x00] ++ List.replicate 7 0xFF ++ [0xE5, 0x00, 0xFF]) [false]
    let t := after (exec (.cmd24 0x1400 0) { s with mem := [(0, 0x12), (1, 0x34), (2, 0x56), (3, 0x78)] })
    (t.work.seqResult, sent t) =
      (.ok, bytes [0x58, 0, 0, 0x14, 0, 0x45, 0xFF, 0xFE, 0x12, 0x34, 0x56, 0x78, 0xB4, 0x2C, 0xFF, 0xFF, 0xFF]) := by decide

/-- R73, R372: an odd block length is refused with no wire activity and the session as it was. -/
theorem test_cmd24_odd :
    let s : State := { facing (six ++ [0x05]) [] with session.blockSize := 3 }
    after (exec (.cmd24 0x1400 0) s) = { s with work.seqResult := .refused } := by decide

/-- F24 with the payload of K8, the response `0D` of T15. -/
theorem test_cmd25_rejected :
    let s := facing (six ++ [0x00, 0xFF] ++ List.replicate 7 0xFF ++ [0x0D]) []
    let t := after (exec (.cmd25 0x64 0) { s with mem := [(3, 0x02)], operands := { s.operands with count := 1 } })
    (t.work.seqResult, sent t) =
      (.writeProgram, bytes [0x59, 0, 0, 0, 0x64, 0xE7, 0xFF, 0xFF, 0xFC, 0, 0, 0, 2, 0x20, 0x42, 0xFF]) := by decide

/-- F26 and A11. -/
theorem test_cmd55 :
    let t := after (exec (.cmd55 0 0) (facing (six ++ [0x00]) []))
    (t.work.seqResult, (sent t).take 6) = (.ok, bytes [0x77, 0, 0, 0, 0, 0x65]) := by decide

/-- F27 and D1. -/
theorem test_cmd58 :
    let t := after (exec (.cmd58 0 0) (facing (six ++ [0x00, 0xC0, 0xFF, 0x80, 0x00]) []))
    (t.work.seqResult, t.session.ocr, ccs t.session.ocr, (sent t).take 6) =
      (.ok, #v[0xC0#8, 0xFF#8, 0x80#8, 0x00#8], true, bytes [0x7A, 0, 0, 0, 0, 0xFD]) := by decide

/-- F28 and K9. -/
theorem test_acmd22 :
    let t := after (exec (.acmd22 0 0) (facing (six ++ [0x00] ++ six ++ [0x00, 0xFE, 0, 0, 0, 5, 0x50, 0xA5]) []))
    (t.work.seqResult, t.session.lastWrittenBlockCount, ((sent t).drop 7).take 6) =
      (.ok, 5#32, bytes [0x56, 0, 0, 0, 0, 0x43]) := by decide

/-- F29 and A10. -/
theorem test_acmd41 :
    let s := facing (six ++ [0x01] ++ six ++ [0x01]) []
    let t := after (exec (.acmd41 0x40000000 0) { s with session.mode := .identification })
    (t.work.seqResult, ((sent t).drop 7).take 6) = (.ok, bytes [0x69, 0x40, 0, 0, 0, 0x77]) := by decide

/-- A12: the second frame is not sent. -/
theorem test_acmd41_prefix :
    let t := after (exec (.acmd41 0 0) { facing (six ++ [0x00]) [] with session.mode := .identification })
    (t.work.seqResult, t.session.lastR1, (sent t).length) = (.unexpectedR1, 0x00#8, 7) := by decide

/-! ### Single steps: tokens, data responses, the table -/

/-- T4, the default reading: `00`, `7F` and `FC` are padding. -/
theorem test_token_start :
    let t := after (exec (.tokenStart .received) (facing [0x00, 0x7F, 0xFC, 0xFE] []))
    (t.work.seqResult, t.work.tries) = (.ok, 4) := by decide

/-- T20. -/
theorem test_token_multi_write :
    let t := after (exec .tokenMultiWrite { ready with wire := [.ioFail] })
    (t.work.seqResult, t.trace) = (.transportIo, [.failedExchange 0xFC#8]) := by decide

theorem test_token_stop_tran :
    let t := after (exec .tokenStopTran (facing [0xFF] []))
    (t.work.seqResult, sent t) = (.ok, [0xFD#8]) := by decide

/-- T13 and T19: only `FF` releases. -/
theorem test_dr_accepted :
    let t := after (exec (.drAccepted 0) (facing [0x00, 0x7F, 0xFE, 0xFF] [false, false, false]))
    (t.work.seqResult, t.wire, (sent t).length) = (.ok, [], 5) := by decide

/-- T14: no busy wait follows. -/
theorem test_dr_crc_error :
    let t := after (exec (.drCrcError 7) (facing [0x00] []))
    (t.work.seqResult, t.wire.length) = (.dataCrc, 1) := by decide

/-- T15. -/
theorem test_dr_write_error :
    let t := after (exec (.drWriteError 0) (facing [0x00] []))
    (t.work.seqResult, t.wire.length) = (.writeProgram, 1) := by decide

/-- E4. -/
theorem test_crc7_build :
    let t := after (exec .crc7Build State.reset)
    (t.res, t.tableValid, t.trace) = (.ok, true, [.buildTable]) := by decide

/-! ### Single steps: the operations -/

/-- The card of P1, its two idle rounds cut to one. -/
def version2Card : List Nat :=
  List.replicate 9 0xFF ++ six ++ [0xFF, 0x01] ++ six ++ [0xFF, 0x01, 0, 0, 0x01, 0xAA] ++ six ++ [0x01] ++ six ++ [0x01] ++
    six ++ [0x01] ++ six ++ [0x01] ++ six ++ [0x01] ++ six ++ [0x00] ++ six ++ [0x00, 0xC0, 0xFF, 0x80, 0x00] ++
    six ++ [0x00, 0xFE, 0x03, 0x53, 0x44, 0x53, 0x44, 0x30, 0x38, 0x47, 0x80, 0x12, 0x34, 0x56, 0x78, 0x01, 0x2B, 0xD1,
      0xB6, 0x04] ++
    six ++ [0x00, 0xFE, 0x40, 0x0E, 0x00, 0x32, 0x5B, 0x59, 0x00, 0x00, 0x3B, 0x37, 0x7F, 0x80, 0x0A, 0x40, 0x00, 0x67,
      0x48, 0xA6]

/-- P1. -/
theorem test_initialize_version_2 :
    let t := after (exec (.initializeOp 1 2 3) { State.reset with wire := card version2Card, timer := [false] })
    (t.res, t.session.mode, t.session.state, t.session.capacityClass, t.session.capacityBytes.toNat, t.wire) =
      (.ok, .transfer, .standby, .sdhc, 7948206080, []) := by decide

/-- I7: a wrong echo. -/
theorem test_initialize_bad_echo :
    let l := List.replicate 9 0xFF ++ six ++ [0x01] ++ six ++ [0x01, 0, 0, 0, 0xAA]
    let t := after (exec (.initializeOp 1 2 3) { State.reset with wire := card l })
    (t.res, t.session.mode, t.session.state, t.session.specVersion, t.csLevel) =
      (.badEcho, .inactive, .inactive, .undetermined, .deasserted) := by decide

/-- P5 in small: the payload is in the buffer, the session is closed. -/
theorem test_read_block_crc :
    let t := after (exec (.readBlock 10 0) (facing (six ++ [0x00, 0xFE, 0x12, 0x34, 0x56, 0x78, 0xB4, 0x2D]) []))
    (t.res, t.session.mode, Memory.readBytes t.mem 0 4, (sent t).take 6) =
      (.dataCrc, .inactive, bytes [0x12, 0x34, 0x56, 0x78], bytes [0x51, 0, 0, 0, 0x0A, 0xE1]) := by decide

/-- E1. -/
theorem test_read_block_refused :
    after (exec (.readBlock 0 0) State.reset) = { State.reset with res := .refused } := by decide

/-- E10. -/
theorem test_read_multiple_none :
    let t := after (exec (.readMultipleBlock 0 0 0) (facing (six ++ [0x00] ++ six ++ [0x00, 0xFF]) []))
    (t.res, sent t, t.session.state) =
      (.ok, bytes ([0x52, 0, 0, 0, 0, 0xE1, 0xFF] ++ [0x4C, 0, 0, 0, 0, 0x61, 0xFF, 0xFF]), .standby) := by decide

/-- R283, R294: a wrong CRC16 in the first of two blocks; no `CMD12` is sent and the second packet is not read. -/
theorem test_read_multiple_crc :
    let l := six ++ [0x00, 0xFE, 0x12, 0x34, 0x56, 0x78, 0xB4, 0x2D] ++ [0xFE, 0xFF]
    let t := after (exec (.readMultipleBlock 0 0 2) (facing l []))
    (t.res, t.session.mode, Memory.readBytes t.mem 0 4, (sent t).length, t.wire) =
      (.dataCrc, .inactive, bytes [0x12, 0x34, 0x56, 0x78], 14, card [0xFE, 0xFF]) := by decide

/-- P6 in small: the busy line never clears. -/
theorem test_write_block_busy :
    let l := six ++ [0x00] ++ List.replicate 7 0xFF ++ [0xE5, 0x00, 0x00, 0x00]
    let t := after (exec (.writeBlock 1 0) (facing l [false, false, true]))
    (t.res, t.session.mode, t.csLevel, (sent t).take 6, t.wire) =
      (.waitTimeout, .inactive, .deasserted, bytes [0x58, 0, 0, 0, 0x01, 0x7D], []) := by decide

/-- P3 in small: the second of three blocks is rejected, `CMD12` follows, and the count 2 is recorded. -/
theorem test_write_multiple_rejected :
    let l := six ++ [0x00, 0xFF] ++ List.replicate 7 0xFF ++ [0xE5, 0xFF] ++ List.replicate 7 0xFF ++ [0xEB] ++ six ++ [0x00] ++
      six ++ [0x00] ++ six ++ [0x00, 0xFE, 0, 0, 0, 2, 0x20, 0x42]
    let t := after (exec (.writeMultipleBlock 100 0 3) (facing l []))
    (t.res, t.session.mode, t.session.lastWrittenBlockCount, ((sent t).drop 25).take 6, t.wire) =
      (.dataCrc, .inactive, 2#32, bytes [0x4C, 0, 0, 0, 0, 0x61], []) := by decide

/-- E11. -/
theorem test_write_multiple_none :
    let t := after (exec (.writeMultipleBlock 0 0 0) (facing (six ++ [0x00, 0xFF, 0xFF, 0xFF, 0xFF] ++ six ++ [0x00, 0x00]) []))
    (t.res, sent t) =
      (.ok, bytes ([0x59, 0, 0, 0, 0, 0x03, 0xFF, 0xFF, 0xFD, 0xFF, 0xFF] ++ [0x4D, 0, 0, 0, 0, 0x0D, 0xFF, 0xFF])) := by decide

/-- E7: an unexpected R1 closes the session and the second byte is not read. -/
theorem test_read_status_unexpected :
    let t := after (exec .readStatus (facing (six ++ [0x04, 0x55]) []))
    (t.res, t.session.mode, t.session.lastR2, t.wire.length, t.trace.head?) =
      (.unexpectedR1, .inactive, 0x00#8, 1, some .csDeassert) := by decide

/-- E8. -/
theorem test_get_written_block_count :
    let t := after (exec .getWrittenBlockCount (facing (six ++ [0x00] ++ six ++ [0x00, 0xFE, 0, 0, 0, 5, 0x50, 0xA5]) []))
    (t.res, t.session.lastWrittenBlockCount, t.session.state) = (.ok, 5#32, .standby) := by decide

/-! ### The register decoders: D1, D6 to D8, D10, D13 to D16, and X3 to X9 -/

/-- A snapshot with bytes 6 to 10. -/
def csdWith (a b c d e : Byte) : Vector Byte 16 := #v[0, 0, 0, 0, 0, 0, a, b, c, d, e, 0, 0, 0, 0, 0]

theorem test_capacities :
    ((capacityV2 (csdWith 0 0x00 0x00 0x01 0)).toNat, (capacityV2 (csdWith 0 0xFF 0xFF 0xFF 0)).toNat,
      (capacityV1 (csdWith 0x83 0xA9 0xED 0xB7 0xFF)).toNat, (capacityV1 (csdWith 0 0 0 0 0)).toNat,
      decide (sdxcThreshold < capacityV2 (csdWith 0 0x00 0xFF 0xFF 0)),
      decide (sdxcThreshold < capacityV2 (csdWith 0 0x01 0x00 0x00 0))) =
      (1048576, 2199023255552, 983564288, 2048, false, true) := by decide

theorem test_decode_cid :
    let f := decodeCid #v[0x03, 0x53, 0x44, 0x53, 0x44, 0x30, 0x38, 0x47, 0x80, 0x12, 0x34, 0x56, 0x78, 0x01, 0x2B, 0xD1]
    (f.mid, f.oid, f.pnm, f.prv, f.psn, f.mdt, f.crc) =
      (0x03#8, 0x5344#16, 0x5344303847#40, 0x80#8, 0x12345678#32, 0x12B#12, 0x68#7) := by decide

theorem test_decode_csd_v2 :
    let f := decodeCsdV2
      #v[0x40, 0x0E, 0x00, 0x32, 0x5B, 0x59, 0x00, 0x00, 0x3B, 0x37, 0x7F, 0x80, 0x0A, 0x40, 0x00, 0x67]
    (f.common.csdStructure, f.common.taac, f.common.tranSpeed, f.common.ccc, f.common.readBlLen, f.cSize) =
      (1#2, 0x0E#8, 0x32#8, 0x5B5#12, 9#4, 15159#22) := by decide

theorem test_decode_csd_v1 :
    let f := decodeCsdV1
      #v[0x00, 0x26, 0x00, 0x32, 0x5F, 0x59, 0x83, 0xA9, 0xED, 0xB7, 0xFF, 0x80, 0x0A, 0x40, 0x00, 0x05]
    (f.common.taac, f.common.ccc, f.cSize, f.cSizeMult, f.common.writeBlLen) =
      (0x26#8, 0x5F5#12, 3751#12, 7#3, 9#4) := by decide

theorem test_translation :
    let s := ready.session
    let sd : Session := { s with capacityClass := .sdsc, blockSize := 512 }
    [xlate sd 10, xlate sd 0x007FFFFF, xlate sd 0x00800000, xlate s 10, xlate s 0xFFFFFFFF] =
      [5120, 0xFFFFFE00, 0, 10, 0xFFFFFFFF] := by decide

/-! ### Witnesses: states and operands that meet the hypotheses of each statement -/

/-- A session that faces bytes and answers of the timer. -/
def against (l : List Byte) (timer : List Bool) : State := { ready with wire := answers l ++ [], timer := timer }

/-- The same, when `IOFAIL` follows the bytes. -/
def failing (l : List Byte) : State := { ready with wire := answers l ++ .ioFail :: [] }

theorem ready_table : ready.tableReady := ⟨rfl, rfl⟩

theorem against_table (l : List Byte) (timer : List Bool) : (against l timer).tableReady := ⟨rfl, rfl⟩

theorem witness_StepRunsTheDecodedItem :
    State.reset.pending = [] ∧ decode ⟨.hostToEngine, [0x06#8]⟩ = .instr .readStatus [] ∧
      decode ⟨.hostToEngine, [0x08#8]⟩ = .reject .unknownOperation ∧
      decode ⟨.engineToCard, [0xFF#8]⟩ = .reject .noFrameNoToken := by decide

theorem witness_OnlyEncodingsDecode :
    decode ⟨.engineToCard, [0x40#8, 0#8, 0#8, 0#8, 0#8, 0x95#8, 0xAA#8]⟩ = .instr (.cmd0 0#32 0x4A#7) [0xAA#8] := by decide

/-- A usable session: the invariant is not only that of a session that was never set up. -/
def usableSession : State := { ready with session.blockSize := 512 }

theorem usableSession_usable : usableSession.usable := by unfold State.usable; decide

theorem witness_StepKeepsTheInvariant :
    usableSession.inv ∧ ∃ t, step (placeItem (encode .crc7Build) usableSession) = .next t :=
  ⟨⟨rfl, rfl, .inr usableSession_usable, fun _ => rfl⟩, _, rfl⟩

theorem witness_Crc16FormsAgree : [0x12#8, 0x34#8].length % 2 = 0 := by decide

theorem witness_Crc16Properties : [0x12#8, 0x34#8].length = [0x80#8, 0x00#8].length := by decide

/-- Nine reads without an R1 and a tenth with one; ten without; a failure on the tenth. -/
theorem witness_ReceiveR1 :
    (List.replicate 9 0xFF#8).all (fun b => b.getLsbD 7) = true ∧ (List.replicate 10 0x80#8).all (fun b => b.getLsbD 7) = true ∧
      (0x7F#8).getLsbD 7 = false ∧ (List.replicate 9 0xFF#8).length < 10 ∧ (List.replicate 10 0x80#8).length = 10 ∧
      (against (List.replicate 9 0xFF#8 ++ [0x7F#8]) []).wire = answers (List.replicate 9 0xFF#8 ++ [0x7F#8]) ++ [] ∧
      (against (List.replicate 10 0x80#8) []).wire = answers (List.replicate 10 0x80#8) ++ [] ∧
      (failing (List.replicate 9 0xFF#8)).wire = answers (List.replicate 9 0xFF#8) ++ .ioFail :: [] := by decide

/-- Ninety-nine bytes that do not match and a hundredth that does; a hundred that do not; a failure on the hundredth. -/
theorem witness_WaitToken :
    (List.replicate 99 0xFC#8).all (fun b => !tokenMatch ready.params.tokenMatch b 0xFE#8) = true ∧
      tokenMatch ready.params.tokenMatch 0xFE#8 0xFE#8 = true ∧ (List.replicate 99 0xFC#8).length < 100 ∧
      (List.replicate 100 0xFC#8).length = 100 ∧
      (against (List.replicate 99 0xFC#8 ++ [0xFE#8]) []).wire = answers (List.replicate 99 0xFC#8 ++ [0xFE#8]) ++ [] ∧
      (against (List.replicate 100 0xFC#8) []).wire = answers (List.replicate 100 0xFC#8) ++ [] ∧
      (failing (List.replicate 99 0xFC#8)).wire = answers (List.replicate 99 0xFC#8) ++ .ioFail :: [] := by decide

theorem witness_BusyWait :
    [0x00#8, 0x7F#8].all (fun b => b != 0xFF#8) = true ∧ 0xFE#8 ≠ 0xFF#8 ∧
      (against ([0x00#8, 0x7F#8] ++ [0xFF#8]) [false, false]).timer = notElapsed 2 ++ [] ∧
      (against ([0x00#8, 0x7F#8] ++ [0xFE#8]) [false, false, true]).timer = notElapsed 2 ++ true :: [] ∧
      (failing [0x00#8, 0x7F#8]).wire = answers [0x00#8, 0x7F#8] ++ .ioFail :: [] := by decide

/-- The first byte of a frame and the last can fail. -/
theorem witness_FrameStopsAtAFailedExchange :
    ready.tableReady ∧ (bytes [1, 2, 3, 4, 5]).length < 6 ∧
      (failing (bytes [1, 2, 3, 4, 5])).wire = answers (bytes [1, 2, 3, 4, 5]) ++ .ioFail :: [] ∧
      (failing []).wire = answers [] ++ .ioFail :: [] := ⟨ready_table, by decide, rfl, rfl⟩

/-- An answer on the tenth read, in both modes of `CMD55`, with `OP` that of no multi-block read. -/
theorem witness_PlainCommandsComplete :
    (against (lateAnswer 0x00#8).bytes []).tableReady ∧ (lateAnswer 0x00#8).ok = true ∧ (lateAnswer 0x01#8).ok = true ∧
      (against (lateAnswer 0x00#8).bytes []).wire = answers (lateAnswer 0x00#8).bytes ++ [] ∧
      ready.session.mode = .transfer ∧ ready.operands.op ≠ .readMultipleBlock ∧
      ({ ready with session.mode := .identification } : State).session.mode = .identification :=
  ⟨against_table _ _, by decide, by decide, rfl, rfl, by decide, rfl⟩

/-- Even blocks, and an odd block length with `COUNT` 0. -/
theorem witness_UnexpectedR1EndsACommand :
    let s := against (answer 0x05#8).bytes []
    let u : State := { s with session.blockSize := 3 }
    s.tableReady ∧ (answer 0x05#8).ok = true ∧ s.wire = answers (answer 0x05#8).bytes ++ [] ∧ (answer 0x05#8).r1 ≠ 0x01#8 ∧
      (answer 0x05#8).r1 ≠ 0x00#8 ∧ s.session.blockSize.toNat % 2 = 0 ∧
      payloadsEven ({ s.operands with count := 2 } : Operands).count.toNat s = true ∧
      payloadsEven u.operands.count.toNat u = true :=
  ⟨against_table _ _, by decide, rfl, by decide, by decide, rfl, rfl, rfl⟩

/-- Both ends of the drain. -/
theorem witness_StopTransmissionDrains :
    let s : State := { against ((answer 0x00#8).bytes ++ [0x00#8] ++ [0xFF#8]) [false] with
      operands := { ready.operands with op := .readMultipleBlock } }
    let u : State := { against ((answer 0x00#8).bytes ++ [0x00#8] ++ [0xFE#8]) [false, true] with
      operands := { ready.operands with op := .readMultipleBlock } }
    s.tableReady ∧ s.operands.op = .readMultipleBlock ∧ (answer 0x00#8).ok = true ∧ (answer 0x00#8).r1 = 0x00#8 ∧
      [0x00#8].all (fun b => b != 0xFF#8) = true ∧
      s.wire = answers ((answer 0x00#8).bytes ++ [0x00#8] ++ [0xFF#8]) ++ [] ∧ s.timer = notElapsed 1 ++ [] ∧
      u.tableReady ∧ u.wire = answers ((answer 0x00#8).bytes ++ [0x00#8] ++ [0xFE#8]) ++ [] ∧
      u.timer = notElapsed 1 ++ true :: [] :=
  ⟨⟨rfl, rfl⟩, rfl, by decide, rfl, by decide, rfl, rfl, ⟨rfl, rfl⟩, rfl, rfl⟩

theorem witness_TrailerCommandsComplete :
    (against ((answer 0x01#8).bytes ++ [0x00#8, 0x00#8, 0x01#8, 0xAA#8]) []).tableReady ∧ (answer 0x01#8).ok = true ∧
      (answer 0x00#8).ok = true ∧
      (against ((answer 0x01#8).bytes ++ [0x00#8, 0x00#8, 0x01#8, 0xAA#8]) []).wire =
        answers ((answer 0x01#8).bytes ++ [0x00#8, 0x00#8, 0x01#8, 0xAA#8]) ++ [] ∧
      (against ((answer 0x00#8).bytes ++ [0x08#8]) []).wire = answers ((answer 0x00#8).bytes ++ [0x08#8]) ++ [] :=
  ⟨against_table _ _, by decide, by decide, rfl, rfl⟩

/-- Sixteen bytes, with a right CRC16 word and with a wrong one after the last token read. -/
theorem witness_RegisterReadsComplete :
    let good := packet (bytes (List.range 16))
    let bad := wrongPacket (bytes (List.range 16))
    (against ((answer 0x00#8).bytes ++ good.bytes) []).tableReady ∧ (answer 0x00#8).ok = true ∧
      good.ok ready.params.tokenMatch 16 = true ∧ good.good = true ∧ bad.ok ready.params.tokenMatch 16 = true ∧
      bad.good = false ∧
      (against ((answer 0x00#8).bytes ++ good.bytes) []).wire = answers ((answer 0x00#8).bytes ++ good.bytes) ++ [] :=
  ⟨against_table _ _, by decide, by decide, by decide, by decide, by decide, rfl⟩

/-- In mode `Identification`: the expected R1 of the prefix, and another. -/
theorem witness_ApplicationCommandsComplete :
    (against ((answer 0x01#8).bytes ++ (answer 0x01#8).bytes) []).tableReady ∧ (answer 0x01#8).ok = true ∧
      expectedOfCmd55 .identification = some (answer 0x01#8).r1 ∧ Mode.identification ≠ .inactive ∧
      expectedOfCmd55 .identification ≠ some (answer 0x00#8).r1 ∧
      (against ((answer 0x01#8).bytes ++ (answer 0x01#8).bytes) []).wire =
        answers ((answer 0x01#8).bytes ++ (answer 0x01#8).bytes) ++ [] :=
  ⟨against_table _ _, by decide, rfl, by decide, by decide, rfl⟩

/-- Also that of `QueriesComplete`, whose session is in `(Transfer, Standby)`. -/
theorem witness_WrittenBlocksCommandCompletes :
    let p := packet (bytes [0, 0, 0, 5])
    let s := against ((answer 0x00#8).bytes ++ (answer 0x00#8).bytes ++ p.bytes) []
    s.tableReady ∧ s.seq = .idleSeq ∧ s.session.mode = .transfer ∧ s.session.state = .standby ∧ (answer 0x00#8).ok = true ∧
      expectedOfCmd55 s.session.mode = some (answer 0x00#8).r1 ∧ p.payload = [0x00#8, 0x00#8, 0x00#8, 0x05#8] ∧
      p.ok s.params.tokenMatch 4 = true ∧ p.good = true ∧
      s.wire = answers ((answer 0x00#8).bytes ++ (answer 0x00#8).bytes ++ p.bytes) ++ [] :=
  ⟨against_table _ _, rfl, rfl, rfl, by decide, rfl, rfl, by decide, by decide, rfl⟩

theorem witness_QueriesComplete :
    let s := against ((answer 0x00#8).bytes ++ [0x00#8]) []
    s.tableReady ∧ s.seq = .idleSeq ∧ s.session.mode = .transfer ∧ s.session.state = .standby ∧
      (answer 0x00#8).ok = true ∧ (s.params.r2NonzeroIsError = true → 0x00#8 = 0x00#8) ∧
      s.wire = answers ((answer 0x00#8).bytes ++ [0x00#8]) ++ [] :=
  ⟨against_table _ _, rfl, rfl, rfl, by decide, fun _ => rfl, rfl⟩

/-- Also that of `ReadBlockCompletes`: a packet with a right and with a wrong CRC16 word; a payload cut short inside a word, and
one whose token is the hundredth byte read. -/
theorem witness_ReadSingleCommandCompletes :
    let good := packet (bytes [1, 2, 3, 4])
    let bad := wrongPacket (bytes [1, 2, 3, 4])
    let s := against ((answer 0x00#8).bytes ++ good.bytes) []
    let u := against ((answer 0x00#8).bytes ++ bad.bytes) []
    s.tableReady ∧ s.seq = .idleSeq ∧ s.session.mode = .transfer ∧ s.session.state = .standby ∧ Memory.wf s.mem = true ∧
      s.session.blockSize.toNat % 2 = 0 ∧ (answer 0x00#8).ok = true ∧
      good.ok s.params.tokenMatch s.session.blockSize.toNat = true ∧ good.good = true ∧
      bad.ok u.params.tokenMatch u.session.blockSize.toNat = true ∧ bad.good = false ∧
      s.wire = answers ((answer 0x00#8).bytes ++ good.bytes) ++ [] ∧
      u.wire = answers ((answer 0x00#8).bytes ++ bad.bytes) ++ [] :=
  ⟨against_table _ _, rfl, rfl, rfl, rfl, rfl, by decide, by decide, by decide, by decide, by decide, rfl, rfl⟩

theorem witness_ReadBlockCompletes_cut :
    let pads := List.replicate 99 0xFC#8
    let l := (answer 0x00#8).bytes ++ pads ++ [0xFE#8] ++ [0x11#8, 0x22#8, 0x33#8]
    (failing l).seq = .idleSeq ∧ (failing l).tableReady ∧ pads.length < 100 ∧
      pads.all (fun b => !tokenMatch (failing l).params.tokenMatch b 0xFE#8) = true ∧
      [0x11#8, 0x22#8, 0x33#8].length < (failing l).session.blockSize.toNat ∧
      (failing l).wire = answers l ++ .ioFail :: [] := ⟨rfl, ready_table, by decide, by decide, by decide, rfl⟩

/-- Two right packets; a right one and a wrong one; no packet of an odd length. -/
theorem witness_ReadManyCommandCompletes :
    let packets := [packet (bytes [1, 2, 3, 4]), packet (bytes [5, 6, 7, 8])]
    let bad := wrongPacket (bytes [5, 6, 7, 8])
    let s : State := { against ((answer 0x00#8).bytes ++ packets.flatMap PacketAnswer.bytes) [] with
      operands := { ready.operands with count := 2 } }
    let u : State := { against ((answer 0x00#8).bytes ++ ([packet (bytes [1, 2, 3, 4])] ++ [bad]).flatMap PacketAnswer.bytes) []
      with operands := { ready.operands with count := 2 } }
    s.tableReady ∧ Memory.wf s.mem = true ∧ payloadsEven s.operands.count.toNat s = true ∧ (answer 0x00#8).ok = true ∧
      packets.length = s.operands.count.toNat ∧
      packets.all (fun p => p.ok s.params.tokenMatch s.session.blockSize.toNat && p.good) = true ∧
      s.wire = answers ((answer 0x00#8).bytes ++ packets.flatMap PacketAnswer.bytes) ++ [] ∧
      [packet (bytes [1, 2, 3, 4])].length < u.operands.count.toNat ∧
      bad.ok u.params.tokenMatch u.session.blockSize.toNat = true ∧ bad.good = false ∧
      u.wire = answers ((answer 0x00#8).bytes ++ ([packet (bytes [1, 2, 3, 4])] ++ [bad]).flatMap PacketAnswer.bytes) ++ [] ∧
      payloadsEven 0 { ready with session.blockSize := 3 } = true :=
  ⟨⟨rfl, rfl⟩, rfl, rfl, by decide, rfl, by decide, rfl, by decide, by decide, by decide, rfl, rfl⟩

/-- Also that of `WriteBlockCompletes`. -/
theorem witness_WriteSingleCommandCompletes :
    let s := against ((answer 0x00#8).bytes ++ acceptance.bytes) [false, false]
    s.tableReady ∧ s.seq = .idleSeq ∧ s.session.mode = .transfer ∧ s.session.state = .standby ∧
      s.session.blockSize.toNat % 2 = 0 ∧ (answer 0x00#8).ok = true ∧ acceptance.ok s.session.blockSize.toNat = true ∧
      s.wire = answers ((answer 0x00#8).bytes ++ acceptance.bytes) ++ [] ∧
      s.timer = notElapsed acceptance.queries ++ [] :=
  ⟨against_table _ _, rfl, rfl, rfl, rfl, by decide, by decide, rfl, rfl⟩

theorem witness_WriteManyCommandCompletes :
    let blocks := [acceptance, acceptance]
    let s : State :=
      { against ((answer 0x00#8).bytes ++ [0xFF#8] ++ blocks.flatMap WriteAnswer.bytes) [false, false, false, false] with
        operands := { ready.operands with count := 2 } }
    s.tableReady ∧ payloadsEven s.operands.count.toNat s = true ∧ (answer 0x00#8).ok = true ∧
      blocks.length = s.operands.count.toNat ∧ blocks.all (fun b => b.ok s.session.blockSize.toNat) = true ∧
      s.wire = answers ((answer 0x00#8).bytes ++ [0xFF#8] ++ blocks.flatMap WriteAnswer.bytes) ++ [] ∧
      s.timer = notElapsed (blocks.map WriteAnswer.queries).sum ++ [] :=
  ⟨⟨rfl, rfl⟩, rfl, by decide, rfl, by decide, rfl, rfl⟩

theorem witness_TokensComplete :
    (against [0xAA#8] []).wire = .byte 0xAA#8 :: [] ∧ (failing []).wire = .ioFail :: [] ∧ [0x00#8, 0x7F#8].length < 100 ∧
      [0x00#8, 0x7F#8].all (fun b => !tokenMatch ready.params.tokenMatch b 0xFE#8) = true ∧
      (against ([0x00#8, 0x7F#8] ++ [0xFE#8]) []).wire = answers ([0x00#8, 0x7F#8] ++ [0xFE#8]) ++ [] := by decide

theorem witness_DataResponsesComplete :
    [0x00#8].all (fun b => b != 0xFF#8) = true ∧
      (against ([0x00#8] ++ [0xFF#8]) [false]).wire = answers ([0x00#8] ++ [0xFF#8]) ++ [] ∧
      (against ([0x00#8] ++ [0xFF#8]) [false]).timer = notElapsed 1 ++ [] := by decide

/-- Also that of `PreconditionsRefused` and of `RefusedUnlessAdmitted`. -/
theorem witness_Crc7BuildCompletes :
    State.reset.seq = .idleSeq ∧ State.reset.tableValid = false ∧ State.reset.session.mode = .inactive ∧
      ({ ready with session.blockSize := 3 } : State).session.blockSize.toNat % 2 = 1 ∧ ready.seq = .idleSeq ∧
      ({ ready.operands with count := 1 } : Operands).count ≠ 0#32 := by decide

/-- The readiness poll of a card that is ready on the second repeat. -/
def polls : PollAnswer × List PollAnswer × PollAnswer :=
  (⟨answer 0x01#8, some (answer 0x01#8)⟩, [⟨answer 0x01#8, some (answer 0x01#8)⟩],
    ⟨answer 0x01#8, some (answer 0x00#8)⟩)

/-- What a card answers to `INITIALIZE`, with an R1 for `CMD8`. -/
def initAnswer (r1 : Byte) : InitAnswer :=
  { dummies := List.replicate 9 0xFF#8, cmd0 := answer 0x01#8, cmd8 := answer r1, first := polls.1, rounds := polls.2.1,
    last := polls.2.2, cmd10 := answer 0x00#8, cid := packet (bytes (List.range 16)), cmd9 := answer 0x00#8,
    csd := packet (bytes (List.range 16)) }

theorem witness_InitializesAVersion2Card :
    let a := initAnswer 0x01#8
    let l := a.opening ++ [0x00#8, 0x00#8, 0x01#8, 0xAA#8] ++ a.poll ++ (answer 0x00#8).bytes ++
      [0xC0#8, 0xFF#8, 0x80#8, 0x00#8] ++ a.registers
    let s : State := { State.reset with wire := answers l ++ [], timer := [false] }
    s.seq = .idleSeq ∧ s.params.acmd41PairInLoop = false ∧ a.ok s.params.tokenMatch = true ∧ a.cmd8.r1 = 0x01#8 ∧
      (answer 0x00#8).ok = true ∧ s.wire = answers l ++ [] ∧ s.timer = notElapsed a.rounds.length ++ [] :=
  ⟨rfl, rfl, by decide, rfl, by decide, rfl, rfl⟩

theorem witness_InitializesAVersion1Card :
    let a := initAnswer 0x05#8
    let l := a.opening ++ a.poll ++ a.registers ++ (answer 0x00#8).bytes
    let s : State := { State.reset with wire := answers l ++ [], timer := [false] }
    s.seq = .idleSeq ∧ s.params.acmd41PairInLoop = false ∧ a.ok s.params.tokenMatch = true ∧
      a.cmd8.r1.getLsbD 2 = true ∧ (answer 0x00#8).ok = true ∧ s.wire = answers l ++ [] ∧
      s.timer = notElapsed a.rounds.length ++ [] := ⟨rfl, rfl, by decide, by decide, by decide, rfl, rfl⟩

/-- The right echo, a wrong one, the illegal-command flag, another R1, no R1. -/
theorem witness_VersionNegotiation :
    (against ((answer 0x01#8).bytes ++ [0xFF#8, 0xFF#8, 0x01#8, 0xAA#8]) []).tableReady ∧ (answer 0x01#8).ok = true ∧
      (answer 0x05#8).ok = true ∧ (answer 0x05#8).r1.getLsbD 2 = true ∧ (answer 0x00#8).ok = true ∧
      (answer 0x00#8).r1.getLsbD 2 = false ∧ ¬(0x00#8 = 0x01#8 ∧ 0xAA#8 = 0xAA#8) ∧
      (List.replicate 10 0xFF#8).all (fun b => b.getLsbD 7) = true ∧
      (against ((answer 0x01#8).dropped ++ List.replicate 10 0xFF#8) []).wire =
        answers ((answer 0x01#8).dropped ++ List.replicate 10 0xFF#8) ++ [] :=
  ⟨against_table _ _, by decide, by decide, by decide, by decide, by decide, by decide, by decide, rfl⟩

theorem witness_ReadinessPollExpires :
    let p : PollAnswer := ⟨answer 0x01#8, some (answer 0x01#8)⟩
    let l := p.bytes ++ [p].flatMap PollAnswer.bytes ++ p.bytes
    let s : State := { against l [false, true] with session.mode := .identification }
    s.tableReady ∧ s.session.mode = .identification ∧ s.params.acmd41PairInLoop = false ∧ p.ok = true ∧ p.r1 ≠ 0x00#8 ∧
      s.wire = answers l ++ [] ∧ s.timer = notElapsed [p].length ++ true :: [] :=
  ⟨⟨rfl, rfl⟩, rfl, rfl, by decide, by decide, rfl, rfl⟩

/-- Two right packets; a right one and a wrong one. -/
theorem witness_ReadMultipleBlockCompletes :
    let packets := [packet (bytes [1, 2, 3, 4]), packet (bytes [5, 6, 7, 8])]
    let l := (answer 0x00#8).bytes ++ packets.flatMap PacketAnswer.bytes ++ (answer 0x00#8).bytes ++ [0x00#8] ++ [0xFF#8]
    let s := against l [false]
    let bad := wrongPacket (bytes [5, 6, 7, 8])
    let lb := (answer 0x00#8).bytes ++ ([packet (bytes [1, 2, 3, 4])] ++ [bad]).flatMap PacketAnswer.bytes
    let u := against lb []
    s.seq = .idleSeq ∧ s.session.mode = .transfer ∧ s.session.state = .standby ∧ s.tableReady ∧ Memory.wf s.mem = true ∧
      payloadsEven (2#32).toNat s = true ∧ (answer 0x00#8).ok = true ∧ packets.length = (2#32).toNat ∧
      packets.all (fun p => p.ok s.params.tokenMatch s.session.blockSize.toNat && p.good) = true ∧
      [0x00#8].all (fun b => b != 0xFF#8) = true ∧ s.wire = answers l ++ [] ∧ s.timer = notElapsed 1 ++ [] ∧
      [packet (bytes [1, 2, 3, 4])].length < (2#32).toNat ∧
      bad.ok u.params.tokenMatch u.session.blockSize.toNat = true ∧ bad.good = false ∧ u.wire = answers lb ++ [] :=
  ⟨rfl, rfl, rfl, against_table _ _, rfl, rfl, by decide, rfl, by decide, by decide, rfl, rfl, by decide, by decide, by decide, rfl⟩

theorem witness_WriteMultipleBlockCompletes :
    let blocks := [acceptance, acceptance]
    let l := (answer 0x00#8).bytes ++ [0xFF#8] ++ blocks.flatMap WriteAnswer.bytes ++ [0xFF#8, 0xFF#8] ++ [0x00#8] ++
      [0xFF#8] ++ (answer 0x00#8).bytes ++ [0x00#8]
    let s := against l [false, false, false, false, false]
    s.seq = .idleSeq ∧ s.session.mode = .transfer ∧ s.session.state = .standby ∧ s.tableReady ∧
      payloadsEven (2#32).toNat s = true ∧ (answer 0x00#8).ok = true ∧ blocks.length = (2#32).toNat ∧
      blocks.all (fun b => b.ok s.session.blockSize.toNat) = true ∧ [0x00#8].all (fun b => b != 0xFF#8) = true ∧
      s.wire = answers l ++ [] ∧ s.timer = notElapsed ((blocks.map WriteAnswer.queries).sum + 1) ++ [] :=
  ⟨rfl, rfl, rfl, against_table _ _, rfl, by decide, rfl, by decide, by decide, rfl, rfl⟩

/-- A block rejected after one poll. -/
def rejection (response : Byte) : Rejection := ⟨List.replicate 7 0xFF#8, [0xFF#8], response⟩

/-- A block rejected either way; the status with the expected R1 and with another. -/
theorem witness_RejectedWriteReadsTheStatus :
    let l := (answer 0x00#8).bytes ++ (rejection 0xEB#8).bytes
    let tail := answers ((answer 0x00#8).bytes ++ [0x08#8]) ++ []
    let other := answers ((answer 0x04#8).bytes ++ [0x08#8]) ++ []
    let s : State := { ready with wire := answers l ++ tail, timer := [false] }
    let u : State := { ready with wire := answers l ++ other, timer := [false] }
    s.seq = .idleSeq ∧ s.session.mode = .transfer ∧ s.session.state = .standby ∧ s.tableReady ∧
      s.session.blockSize.toNat % 2 = 0 ∧ (answer 0x00#8).ok = true ∧ (rejection 0xEB#8).ok s.session.blockSize.toNat = true ∧
      (rejection 0x0D#8).ok s.session.blockSize.toNat = true ∧ (answer 0x04#8).ok = true ∧
      s.wire = answers l ++ tail ∧ u.wire = answers l ++ other ∧ s.timer = notElapsed (rejection 0xEB#8).pads.length ++ [] :=
  ⟨rfl, rfl, rfl, ready_table, rfl, by decide, by decide, by decide, by decide, rfl, rfl, rfl⟩

/-- A recovery of every form, the last with a right and with a wrong CRC16. -/
def recoveries : List Recovery :=
  [.noR1 (bytes six) (List.replicate 10 0xFF#8), .stopUnexpected (answer 0x04#8), .appUnexpected (answer 0x00#8) (answer 0x04#8),
    .queryUnexpected (answer 0x00#8) (answer 0x00#8) (answer 0x04#8),
    .counted (answer 0x00#8) (answer 0x00#8) (answer 0x00#8) (packet (bytes [0, 0, 0, 1])),
    .counted (answer 0x00#8) (answer 0x00#8) (answer 0x00#8) (wrongPacket (bytes [0, 0, 0, 1]))]

theorem witness_RejectedMultiWriteRecovers :
    let l := (answer 0x00#8).bytes ++ [0xFF#8] ++ [acceptance].flatMap WriteAnswer.bytes ++ (rejection 0x0D#8).bytes
    let tail := answers (Recovery.stopUnexpected (answer 0x04#8)).bytes ++ []
    let s : State := { ready with wire := answers l ++ tail, timer := [false, false, false] }
    s.seq = .idleSeq ∧ s.session.mode = .transfer ∧ s.session.state = .standby ∧ s.tableReady ∧
      s.session.blockSize.toNat % 2 = 0 ∧ (answer 0x00#8).ok = true ∧ [acceptance].length < (2#32).toNat ∧
      acceptance.ok s.session.blockSize.toNat = true ∧ (rejection 0x0D#8).ok s.session.blockSize.toNat = true ∧
      recoveries.all (fun v => v.ok s.params.tokenMatch) = true ∧ s.wire = answers l ++ tail ∧
      s.timer = notElapsed (([acceptance].map WriteAnswer.queries).sum + (rejection 0x0D#8).pads.length) ++ [] :=
  ⟨rfl, rfl, rfl, ready_table, rfl, by decide, by decide, by decide, by decide, by decide, rfl, rfl⟩

theorem witness_BusyCardEndsTheWrite :
    let l := (answer 0x00#8).bytes ++ List.replicate 7 0xFF#8 ++ [0xFF#8] ++ [(0b111#3 ++ 0x05#5 : Byte)] ++ [0x00#8] ++ [0x00#8]
    let s := against l [false, false, true]
    s.seq = .idleSeq ∧ s.session.mode = .transfer ∧ s.session.state = .standby ∧ s.tableReady ∧
      s.session.blockSize.toNat % 2 = 0 ∧ (answer 0x00#8).ok = true ∧
      (List.replicate 7 0xFF#8).length = s.session.blockSize.toNat + 3 ∧
      [0xFF#8].all (fun b => acceptDataResponse b == none) = true ∧ [0x00#8].all (fun b => b != 0xFF#8) = true ∧
      0x00#8 ≠ 0xFF#8 ∧ s.wire = answers l ++ [] ∧ s.timer = notElapsed (1 + 1) ++ true :: [] :=
  ⟨rfl, rfl, rfl, against_table _ _, rfl, by decide, rfl, by decide, by decide, by decide, rfl, rfl⟩

/-- A transfer that fails, and one that ends well: `FailureForcesInactive`, `SuccessLeavesTheSessionReady`,
`ChipSelectBracketsATransfer` and the frames speak of both. -/
theorem witness_transfers :
    let t := after (exec .readStatus (facing (six ++ [0x00, 0x08]) []))
    let u := after (exec .readStatus (facing (six ++ [0x04]) []))
    t.res = .ok ∧ u.res ≠ .ok ∧ u.res ≠ .refused ∧ Memory.wf ready.mem = true := by decide

/-- An `INITIALIZE` that ends well, and one that does not. -/
theorem witness_initializations :
    let t := after (exec (.initializeOp 1 2 3) { State.reset with wire := card version2Card, timer := [false] })
    let u := after (exec (.initializeOp 1 2 3) State.reset)
    t.res = .ok ∧ u.res ≠ .ok ∧ u.res ≠ .refused := by decide

/-- Every instruction of the frame statements answers a next state on some state: here on the reset state. -/
theorem witness_frames :
    [Instr.cmd0 0 0, .cmd8 0 0, .cmd9 0 0, .cmd10 0 0, .cmd12 0 0, .cmd13 0 0, .cmd16 0 0, .cmd17 0 0, .cmd18 0 0, .cmd24 0 0,
      .cmd25 0 0, .cmd55 0 0, .cmd58 0 0, .acmd22 0 0, .acmd41 0 0, .tokenStart .sent, .tokenStart .received, .tokenMultiWrite,
      .tokenStopTran, .drAccepted 0, .drCrcError 0, .drWriteError 0, .readBlock 0 0, .writeBlock 0 0,
      .readMultipleBlock 0 0 0, .writeMultipleBlock 0 0 0, .readStatus, .getWrittenBlockCount].all (fun i =>
        match exec i ready with
        | .next _ => true
        | _ => false) = true := by decide

theorem witness_RefusedUnlessAdmitted :
    State.reset.seq = .idleSeq ∧ ¬(State.reset.session.mode = .transfer ∧ State.reset.session.state = .standby) := by decide

theorem witness_NoSecondOperation : ({ ready with seq := .acmd41Repeat } : State).seq ≠ .idleSeq := by decide

theorem witness_AddressTranslation :
    let s : State := { ready with session.capacityClass := .sdsc, session.blockSize := 512 }
    s.session.capacityClass = .sdsc ∧ s.session.blockSize = 512#32 ∧ ready.session.capacityClass ≠ .sdsc ∧
      (0x007FFFFF#32).toNat * s.session.blockSize.toNat < 2 ^ 32 := by decide

theorem witness_CsdVariantByVersion :
    ready.session.specVersion = .v2 ∧ State.reset.session.specVersion = .undetermined ∧
      ({ ready with session.specVersion := .v1 } : State).session.specVersion = .v1 := by decide

end Sys2Proof.Tests
end

section
/-! PROOF. One inversion lemma for `exec` over all instructions, and what follows from it for a property that the primitive
writes keep: a sequence run alone keeps it, a transfer ends in it, `INITIALIZE` keeps it from power-up on. -/

namespace Sys2Proof.Machine

/-! ### Properties that the writes of an instruction keep -/

/-- A property that every write of a command, a token or a data response keeps. -/
structure Sequences (P : State → Prop) : Prop extends Commands P, Waits P where
  receives : Receives P
  sends : Sends P
  indexes : Indexes P
  stores : ∀ dst n, StableAt P dst n
  lastR2 : ∀ s v, P s → P { s with session.lastR2 := v }
  count : ∀ s v, P s → P { s with session.lastWrittenBlockCount := v }
  present : ∀ s b, P s → P (presentByte b s)
  result : ∀ s c, P s → P { s with work.seqResult := c }

/-- A property that every write of a transfer between its start and its end keeps. -/
structure Transfers (P : State → Prop) : Prop extends Sequences P, Moves P where
  asserted : ∀ s, P s → P (csAssert s)
  deasserted : ∀ s, P s → P (csDeassert s)

/-- A property that every write of `INITIALIZE` after the assignments of its step 1 keeps. -/
structure Initializing (P : State → Prop) : Prop extends Initializes P where
  asserted : ∀ s, P s → P (csAssert s)
  deasserted : ∀ s, P s → P (csDeassert s)
  clock : ∀ s p, P s → P (setClock p s)
  modeState : ∀ s m p, P s → P (setModeState m p s)
  version : ∀ s v, P s → P { s with session.specVersion := v }
  derived : ∀ s v b c, P s →
    P { s with session.capacityClass := v, session.blockSize := b, session.capacityBytes := c }

namespace Sequences

variable {P : State → Prop} (hP : Sequences P)
include hP

theorem cmd18Exchange (arg : Word) (s : State) (h : P s) : P (Machine.cmd18Exchange arg s).2 :=
  ifPayloadsEven_keeps P _ _ s h <| andThen_keeps P _ _ (hP.sendCommand _ _ _ s h) fun s hs =>
    hP.readBlocks hP.receives hP.indexes s.operands.count.toNat (fun _ _ _ _ => hP.stores _ _) _ 0 (by omega) s hs

theorem dataResponse_presented (ignored : BitVec 3) (code : BitVec 5) (s : State) (h : P s) :
    P (Machine.dataResponse (presentByte (responseByte ignored code) s)).2 :=
  hP.dataResponse hP.toWaits _ (hP.present s _ h)

theorem initializes (hseq : ∀ s p, P s → P (setSeq p s)) : Initializes P :=
  { hP.toCommands, hP.toWaits with
    seq := hseq
    receives := hP.receives
    r7 := hP.stores _ _
    ocr := hP.stores _ _
    cid := hP.stores _ _
    csd := hP.stores _ _ }

end Sequences

/-! ### The transfers -/

/-- What the bodies of the six transfers share. -/
structure TransferBody (body : State → Code × State) : Prop where
  endsIn : ∀ P, Transfers P → ∀ s, P s → EndsIn P (body s)
  standby : ∀ s, s.session.state = .standby → (body s).1 = .ok → (body s).2.session.state = .standby

theorem EndsIn.keeps {P : State → Prop} {r : Code × State} (h : EndsIn P r) (hcs : ∀ s, P s → P (csDeassert s)) :
    P r.2 := by
  obtain ⟨u, hu, rfl⟩ | ⟨-, hr⟩ := h
  · exact hcs u hu
  · exact hr

theorem EndsIn.of_ok {P : State → Prop} {r : Code × State} (h : EndsIn P r) (hok : r.1 = .ok) :
    ∃ u, P u ∧ r.2 = csDeassert u := by
  obtain ⟨u, hu, rfl⟩ | ⟨hne, -⟩ := h
  · exact ⟨u, hu, rfl⟩
  · exact absurd hok hne

theorem readBlockBody_transferBody : TransferBody readBlockBody where
  endsIn _ hP _ h := hP.readBlockBody hP.toMoves hP.receives (fun _ _ => hP.stores _ _) _ (hP.asserted _ h)
  standby s _ := readBlockBody_standby s

theorem readMultipleBlockBody_transferBody : TransferBody readMultipleBlockBody where
  endsIn P hP s h :=
    andThen_endsIn P _ _ (hP.toSequences.cmd18Exchange _ _ (hP.seq _ _ (hP.state _ _ (hP.asserted s h)))) fun _ hs =>
      andThen_endsIn P _ _ (hP.cmd12Exchange hP.toWaits _ _ (hP.seq _ _ hs)) fun _ hs =>
        closeTransfer_endsIn P hP.toMoves _ (hP.seq _ _ hs)
  standby s _ := readMultipleBlockBody_standby s

theorem writeBlockBody_transferBody : TransferBody writeBlockBody where
  endsIn _ hP _ h := hP.writeBlockBody hP.toMoves hP.toWaits hP.sends hP.lastR2 _ (hP.asserted _ h)
  standby s _ := writeBlockBody_standby s

theorem writeMultipleBlockBody_transferBody : TransferBody writeMultipleBlockBody where
  endsIn _ hP _ h := hP.writeMultipleBlockBody hP.toMoves hP.toWaits hP.sends hP.indexes hP.receives
    (hP.stores _ _) hP.lastR2 hP.count _ (hP.asserted _ h)
  standby s _ := writeMultipleBlockBody_standby s

theorem readStatusBody_transferBody : TransferBody readStatusBody where
  endsIn _ hP _ h := hP.readStatusBody hP.lastR2 _ (hP.asserted _ h)
  standby s hs _ := (readStatusBody_state s).trans hs

theorem getWrittenBlockCountBody_transferBody : TransferBody getWrittenBlockCountBody where
  endsIn _ hP _ h := hP.getWrittenBlockCountBody hP.receives (hP.stores _ _) hP.count _ (hP.asserted _ h)
  standby s hs _ := (getWrittenBlockCountBody_state s).trans hs

/-- A run of one of the six transfers. -/
def RunsTransfer (i : Instr) (s : State) : Prop :=
  ∃ ops ready body, exec i s = runOperation ops ready body s ∧ (ready = true → commandReady s = true) ∧ TransferBody body

theorem commandReady_of_blockReady (blocks : Nat) (s : State) (h : blockReady blocks s = true) : commandReady s = true := by
  obtain ⟨hc, -⟩ : commandReady s = true ∧ payloadsEven blocks s = true := by simpa [blockReady] using h
  exact hc

theorem exec_readBlock_runs (addr buf : Word) (s : State) : RunsTransfer (.readBlock addr buf) s :=
  ⟨_, _, _, rfl, commandReady_of_blockReady _ s, readBlockBody_transferBody⟩

theorem exec_writeBlock_runs (addr buf : Word) (s : State) : RunsTransfer (.writeBlock addr buf) s :=
  ⟨_, _, _, rfl, commandReady_of_blockReady _ s, writeBlockBody_transferBody⟩

theorem exec_readMultipleBlock_runs (addr buf count : Word) (s : State) :
    RunsTransfer (.readMultipleBlock addr buf count) s :=
  ⟨_, _, _, rfl, commandReady_of_blockReady _ s, readMultipleBlockBody_transferBody⟩

theorem exec_writeMultipleBlock_runs (addr buf count : Word) (s : State) :
    RunsTransfer (.writeMultipleBlock addr buf count) s :=
  ⟨_, _, _, rfl, commandReady_of_blockReady _ s, writeMultipleBlockBody_transferBody⟩

theorem exec_readStatus_runs (s : State) : RunsTransfer .readStatus s :=
  ⟨_, _, _, rfl, id, readStatusBody_transferBody⟩

theorem exec_getWrittenBlockCount_runs (s : State) : RunsTransfer .getWrittenBlockCount s :=
  ⟨_, _, _, rfl, id, getWrittenBlockCountBody_transferBody⟩

theorem runsTransfer_of_mem {i : Instr} {x y z : Word} (s : State)
    (hi : i ∈ [.readBlock x y, .writeBlock x y, .readMultipleBlock x y z, .writeMultipleBlock x y z, .readStatus,
      .getWrittenBlockCount]) : RunsTransfer i s := by
  simp only [List.mem_cons, List.not_mem_nil, or_false] at hi
  obtain rfl | rfl | rfl | rfl | rfl | rfl := hi
  · exact exec_readBlock_runs x y s
  · exact exec_writeBlock_runs x y s
  · exact exec_readMultipleBlock_runs x y z s
  · exact exec_writeMultipleBlock_runs x y z s
  · exact exec_readStatus_runs s
  · exact exec_getWrittenBlockCount_runs s

/-- Everything a transfer can do that answers a next state: it was idle, and it was refused, or admitted and ran its body. -/
theorem RunsTransfer.next {i : Instr} {s t : State} (hi : RunsTransfer i s) (h : exec i s = .next t) :
    t = refuse s ∨ commandReady s = true ∧ ∃ ops body, TransferBody body ∧ t = complete (body (startOp ops s)) := by
  obtain ⟨ops, ready, body, he, hready, hbody⟩ := hi
  obtain ⟨-, ⟨-, ht⟩ | ⟨hr, ht⟩⟩ := runOperation_next ops ready body s t (he ▸ h)
  · exact .inl ht
  · exact .inr ⟨hready hr, ops, body, hbody, ht⟩

/-! ### All instructions -/

/-- A run of a command, a token or a data response: no handler, and the writes of its sequence only. -/
def RunsSequence (i : Instr) (s : State) : Prop :=
  ∃ r, exec i s = endSequence r ∧ ∀ P, Sequences P → P s → P r.2

theorem RunsSequence.keeps {i : Instr} {s t : State} (hi : RunsSequence i s) {P : State → Prop} (hP : Sequences P)
    (h : exec i s = .next t) (hs : P s) : P t := by
  obtain ⟨r, he, hr⟩ := hi
  cases he.symm.trans h
  exact hP.result _ _ (hr P hP hs)

/-- Every instruction is a sequence run alone, a transfer, `CRC7_BUILD` or `INITIALIZE`. -/
theorem exec_cases (i : Instr) (s : State) :
    RunsSequence i s ∨ RunsTransfer i s ∨ i = .crc7Build ∨ ∃ x y z, i = .initializeOp x y z := by
  cases i with
  | cmd0 => exact .inl ⟨_, rfl, fun _ hP h => hP.sendCommand _ _ _ s h⟩
  | cmd8 => exact .inl ⟨_, rfl, fun _ hP h => hP.cmd8Exchange (hP.stores _ _) _ s h⟩
  | cmd9 => exact .inl ⟨_, rfl, fun _ hP h => hP.cmd9Exchange hP.receives (hP.stores _ _) _ s h⟩
  | cmd10 => exact .inl ⟨_, rfl, fun _ hP h => hP.cmd10Exchange hP.receives (hP.stores _ _) _ s h⟩
  | cmd12 => exact .inl ⟨_, rfl, fun _ hP h => hP.cmd12Exchange hP.toWaits _ s h⟩
  | cmd13 => exact .inl ⟨_, rfl, fun _ hP h => hP.cmd13Exchange hP.lastR2 _ s h⟩
  | cmd16 => exact .inl ⟨_, rfl, fun _ hP h => hP.sendCommand _ _ _ s h⟩
  | cmd17 => exact .inl ⟨_, rfl, fun _ hP h => hP.cmd17Exchange hP.receives (fun _ _ => hP.stores _ _) _ s h⟩
  | cmd18 => exact .inl ⟨_, rfl, fun _ hP h => hP.cmd18Exchange _ s h⟩
  | cmd24 => exact .inl ⟨_, rfl, fun _ hP h => hP.cmd24Exchange hP.toWaits hP.sends _ s h⟩
  | cmd25 => exact .inl ⟨_, rfl, fun _ hP h => hP.cmd25Exchange hP.toWaits hP.sends hP.indexes _ s h⟩
  | cmd55 => exact .inl ⟨_, rfl, fun _ hP h => hP.sendPrefix _ s h⟩
  | cmd58 => exact .inl ⟨_, rfl, fun _ hP h => hP.cmd58Exchange (hP.stores _ _) _ s h⟩
  | acmd22 => exact .inl ⟨_, rfl, fun _ hP h => hP.acmd22Exchange hP.receives (hP.stores _ _) hP.count _ s h⟩
  | acmd41 => exact .inl ⟨_, rfl, fun _ hP h => hP.acmd41Exchange _ _ s h⟩
  | tokenStart dir =>
    cases dir with
    | sent => exact .inl ⟨_, rfl, fun _ hP h => hP.sendToken _ s h⟩
    | received => exact .inl ⟨_, rfl, fun _ hP h => hP.waitToken _ s h⟩
  | tokenMultiWrite => exact .inl ⟨_, rfl, fun _ hP h => hP.sendToken _ s h⟩
  | tokenStopTran => exact .inl ⟨_, rfl, fun _ hP h => hP.sendToken _ s h⟩
  | drAccepted => exact .inl ⟨_, rfl, fun _ hP h => hP.dataResponse_presented _ _ s h⟩
  | drCrcError => exact .inl ⟨_, rfl, fun _ hP h => hP.dataResponse_presented _ _ s h⟩
  | drWriteError => exact .inl ⟨_, rfl, fun _ hP h => hP.dataResponse_presented _ _ s h⟩
  | crc7Build => exact .inr (.inr (.inl rfl))
  | initializeOp x y z => exact .inr (.inr (.inr ⟨x, y, z, rfl⟩))
  | readBlock addr buf => exact .inr (.inl (exec_readBlock_runs addr buf s))
  | writeBlock addr buf => exact .inr (.inl (exec_writeBlock_runs addr buf s))
  | readMultipleBlock addr buf count => exact .inr (.inl (exec_readMultipleBlock_runs addr buf count s))
  | writeMultipleBlock addr buf count => exact .inr (.inl (exec_writeMultipleBlock_runs addr buf count s))
  | readStatus => exact .inr (.inl (exec_readStatus_runs s))
  | getWrittenBlockCount => exact .inr (.inl (exec_getWrittenBlockCount_runs s))

/-- An operation without admission that answers a next state was run. -/
theorem runOperation_true_next {ops : Operands} {body : State → Code × State} {s t : State}
    (h : runOperation ops true body s = .next t) : t = complete (body (startOp ops s)) := by
  obtain ⟨-, ⟨hf, -⟩ | ⟨-, ht⟩⟩ := runOperation_next ops true body s t h
  · cases hf
  · exact ht

theorem exec_crc7Build_next {s t : State} (h : exec .crc7Build s = .next t) :
    t = complete (crc7BuildBody (startOp { s.operands with op := .crc7Build } s)) := runOperation_true_next h

theorem exec_initializeOp_next {x y z : Word} {s t : State} (h : exec (.initializeOp x y z) s = .next t) :
    t = complete (initializeBody (startOp { s.operands with op := .initSession, cfg := ⟨x, y, z⟩ } s)) :=
  runOperation_true_next h

/-! ### `INITIALIZE` -/

theorem initStep8_eq (s : State) :
    initStep8 s = if s.session.specVersion = .v2 then (.ok, deriveV2 (atStep 8 s))
      else andThen (cmd16Exchange argCmd16 (atStep 8 s)) fun s => (.ok, deriveV1 s) := rfl

/-- `INITIALIZE` keeps what its writes keep, once the assignments of step 1 have established it. -/
theorem Initializing.initializeBody {P : State → Prop} (hP : Initializing P) (s : State)
    (h : P (powerUp (atStep 1 (loadConfig s)))) : P (Machine.initializeBody s).2 := by
  refine andThen_keeps P _ _ (hP.sendDummies _ _ h) fun s hs => ?_
  have step2 : P (initStep2 s).2 :=
    andThen_keeps P _ _ (hP.sendCommand _ _ _ _ (hP.asserted _ (hP.seq s _ hs))) fun s hs => hP.modeState s _ _ hs
  refine andThen_keeps P _ _ step2 fun s hs => ?_
  refine andThen_keeps P _ _ (hP.initStep3 hP.version s hs) fun s hs => ?_
  have step4 : P (Machine.initStep4 s).2 := by
    obtain ⟨-, hu⟩ | ⟨u, hu, he⟩ := hP.initStep4 s hs
    · exact hu
    · rw [he]
      exact hP.modeState u _ _ hu
  refine andThen_keeps P _ _ step4 fun s hs => ?_
  refine andThen_keeps P _ _ (hP.initStep5 (fun s v _ hs => hP.derived s v _ _ hs) s hs) fun s hs => ?_
  refine andThen_keeps P _ _ (hP.clock _ _ (hP.seq s _ hs)) fun s hs => ?_
  refine andThen_keeps P _ _ (hP.initStep7 s hs) fun s hs => ?_
  have step8 : P (initStep8 s).2 := by
    have h8 : P (atStep 8 s) := hP.seq s _ hs
    rw [initStep8_eq]
    split
    · exact hP.derived _ _ _ _ h8
    · exact andThen_keeps P _ _ (hP.sendCommand _ _ _ _ h8) fun s hs => hP.derived s _ _ _ hs
  exact andThen_keeps P _ _ step8 fun s hs => hP.deasserted _ (hP.seq s _ hs)

end Sys2Proof.Machine
end

section
/-! PROOF. The properties that concern the statements on the session: which the writes of every sequence keep, what a transfer
keeps until it is over, what `INITIALIZE` keeps, and what its steps establish when they succeed (44_init.md R241 to R250). -/

namespace Sys2Proof.Machine

/-! ### Properties of what a sequence does not write -/

/-- The state with a fixed value in the registers a sequence may write, but for `S.lastR1` and the host's memory. -/
def State.settled (s : State) : State :=
  { s with
    session := { State.reset.session with
      transport := s.session.transport, cs := s.session.cs, busClockHz := s.session.busClockHz
      mode := s.session.mode, state := s.session.state, specVersion := s.session.specVersion
      capacityClass := s.session.capacityClass, lastR1 := s.session.lastR1
      blockSize := s.session.blockSize, capacityBytes := s.session.capacityBytes }
    work := State.reset.work
    wire := [], timer := [], nowCount := 0, trace := [] }

/-- Every sequence keeps what does not look at those registers, if a new R1 and another canonical memory keep it. -/
theorem sequences_settled (Q : State → Prop) (hr1 : ∀ s r, isR1 r = true → Q s → Q (setLastR1 r s))
    (hmem : ∀ s m, (Memory.wf s.mem = true → Memory.wf m = true) → Q s → Q { s with mem := m }) :
    Sequences fun s => Q s.settled where
  exchange _ _ _ _ h := h
  tries _ _ h := h
  frame _ _ h := h
  lastR1 s r hr h := hr1 s.settled r hr h
  timer _ _ h := h
  start _ h := h
  receives _ _ _ _ h := h
  sends _ _ _ h := h
  indexes _ _ h := h
  stores dst n := by
    cases dst with
    | hostBuffer base => exact stableAt_hostBuffer _ base n fun s m hm h => hmem s.settled m hm h
    | _ => exact fun _ _ _ _ h => h
  lastR2 _ _ h := h
  count _ _ h := h
  present _ _ h := h
  result _ _ h := h

theorem sequences_inv : Sequences State.inv :=
  sequences_settled State.inv (fun _ _ _ h => h) fun _ _ hm h => ⟨hm h.1, h.2⟩

/-- `S.lastR1` holds the byte `old` or one with bit 7 clear. -/
def State.lastR1From (old : Byte) (s : State) : Prop :=
  s.session.lastR1 = old ∨ s.session.lastR1.getLsbD 7 = false

theorem getLsbD_seven_of_isR1 (r : Byte) (h : isR1 r = true) : r.getLsbD 7 = false := by
  simpa [isR1, BitVec.msb_eq_getLsbD_last] using h

theorem sequences_lastR1From (old : Byte) : Sequences (State.lastR1From old) :=
  sequences_settled (State.lastR1From old) (fun _ r hr _ => .inr (getLsbD_seven_of_isR1 r hr)) fun _ _ _ h => h

/-! ### Properties that a transfer keeps -/

/-- What a transfer on a usable session keeps until it is over: all of the invariant but `S.state`, chip-select and `SEQ`. -/
def State.transferring (s : State) : Prop :=
  Memory.wf s.mem = true ∧ State.usable { s with session.state := .standby, csLevel := .deasserted } ∧
    (s.tableValid = true → s.table = crc7Table)

/-- A transfer keeps such a property if new values of `S.state`, `SEQ` and chip-select keep it, too. -/
theorem transfers_settled (Q : State → Prop) (hr1 : ∀ s r, isR1 r = true → Q s → Q (setLastR1 r s))
    (hmem : ∀ s m, (Memory.wf s.mem = true → Memory.wf m = true) → Q s → Q { s with mem := m })
    (hmove : ∀ s p q c, Q s → Q { s with session.state := p, seq := q, csLevel := c }) :
    Transfers fun s => Q s.settled :=
  { sequences_settled Q hr1 hmem with
    state := fun s p h => hmove s.settled p s.seq s.csLevel h
    seq := fun s q h => hmove s.settled s.session.state q s.csLevel h
    asserted := fun s h => hmove s.settled s.session.state s.seq .asserted h
    deasserted := fun s h => hmove s.settled s.session.state s.seq .deasserted h }

theorem transfers_transferring : Transfers State.transferring :=
  transfers_settled State.transferring (fun _ _ _ h => h) (fun _ _ hm h => ⟨hm h.1, h.2⟩) fun _ _ _ _ h => h

theorem transfers_mode (m : Mode) : Transfers fun s => s.session.mode = m :=
  transfers_settled (fun s => s.session.mode = m) (fun _ _ _ h => h) (fun _ _ _ h => h) fun _ _ _ _ h => h

theorem transfers_lastR1From (old : Byte) : Transfers (State.lastR1From old) :=
  transfers_settled (State.lastR1From old) (fun _ r hr _ => .inr (getLsbD_seven_of_isR1 r hr)) (fun _ _ _ h => h)
    fun _ _ _ _ h => h

/-! ### Properties that `INITIALIZE` keeps -/

theorem initializing_lastR1From (old : Byte) : Initializing (State.lastR1From old) :=
  { (sequences_lastR1From old).initializes fun _ _ h => h with
    asserted := fun _ h => h
    deasserted := fun _ h => h
    clock := fun _ _ h => h
    modeState := fun _ _ _ h => h
    version := fun _ _ h => h
    derived := fun _ _ _ _ h => h }

/-- What `INITIALIZE` with the configuration `cfg`, started in `s`, has set or left alone from its step 1 on. -/
def State.initializedFrom (s : State) (cfg : SessionConfig) (u : State) : Prop :=
  u.session.transport = cfg.transport ∧ u.session.cs = cfg.cs ∧ u.session.busClockHz = cfg.busClockHz ∧
    u.session.lastR2 = s.session.lastR2 ∧ u.session.lastWrittenBlockCount = s.session.lastWrittenBlockCount ∧
    u.table = crc7Table ∧ u.tableValid = true ∧
    u.work.crcTx = s.work.crcTx ∧ u.work.w = s.work.w ∧ u.work.i = s.work.i ∧
    u.operands = { s.operands with op := .initSession, cfg := cfg } ∧
    u.mem = s.mem ∧ u.pending = s.pending ∧ u.params = s.params

theorem initializing_initializedFrom (s : State) (cfg : SessionConfig) : Initializing (State.initializedFrom s cfg) where
  exchange _ _ _ _ h := h
  tries _ _ h := h
  frame _ _ h := h
  lastR1 _ _ _ h := h
  timer _ _ h := h
  start _ h := h
  receives _ _ _ _ h := h
  seq _ _ h := h
  r7 _ _ _ _ h := h
  ocr _ _ _ _ h := h
  cid _ _ _ _ h := h
  csd _ _ _ _ h := h
  asserted _ h := h
  deasserted _ h := h
  clock _ _ h := h
  modeState _ _ _ h := h
  version _ _ h := h
  derived _ _ _ _ h := h

theorem complete_initializedFrom (s : State) (cfg : SessionConfig) (r : Code × State)
    (h : State.initializedFrom s cfg r.2) : State.initializedFrom s cfg (complete r) := by
  obtain ⟨c, u⟩ := r
  cases c <;> exact h

theorem exec_initializeOp_initializedFrom {x y z : Word} {s t : State} (h : exec (.initializeOp x y z) s = .next t) :
    State.initializedFrom s ⟨x, y, z⟩ t := by
  rw [exec_initializeOp_next h]
  refine complete_initializedFrom s _ _ ((initializing_initializedFrom s _).initializeBody _ ?_)
  exact ⟨rfl, rfl, rfl, rfl, rfl, rfl, rfl, rfl, rfl, rfl, rfl, rfl, rfl, rfl⟩

/-! ### What the steps of `INITIALIZE` establish -/

/-- A sequence that ends well ends in a state with the property. -/
def Ensures (Q : State → Prop) (r : Code × State) : Prop := r.1 = .ok → Q r.2

theorem andThen_ensures {P Q : State → Prop} {r : Code × State} {f : State → Code × State} (hr : Ensures P r)
    (hf : ∀ s, P s → Ensures Q (f s)) : Ensures Q (andThen r f) := by
  intro h
  obtain ⟨h1, h2, h3⟩ := andThen_fst_ok r f h
  rw [h3]
  exact hf _ (hr h1) h2

/-- The class of step 1 (R241). -/
def State.standardClass (s : State) : Prop := s.session.capacityClass = .sdsc

/-- The version is known, and a version-1 card is of the standard class (R243). -/
def State.versioned (s : State) : Prop :=
  s.session.specVersion ≠ .undetermined ∧ (s.session.specVersion = .v1 → s.session.capacityClass = .sdsc)

/-- The card is ready (R244). -/
def State.selected (s : State) : Prop := s.versioned ∧ s.session.mode = .transfer ∧ s.session.state = .standby

/-- The transfer clock is set (R246). -/
def State.clocked (s : State) : Prop := s.selected ∧ s.clockProfile = .clkTransfer

/-- The block size is set (R248, R249). -/
def State.sized (s : State) : Prop := s.clocked ∧ s.session.blockSize = blockSizeBytes

theorem initializes_settled (Q : State → Prop) (hr1 : ∀ s r, isR1 r = true → Q s → Q (setLastR1 r s))
    (hmem : ∀ s m, (Memory.wf s.mem = true → Memory.wf m = true) → Q s → Q { s with mem := m })
    (hseq : ∀ s p, Q s → Q (setSeq p s)) : Initializes fun s => Q s.settled :=
  (sequences_settled Q hr1 hmem).initializes fun s p h => hseq s.settled p h

theorem initializes_standardClass : Initializes State.standardClass :=
  initializes_settled State.standardClass (fun _ _ _ h => h) (fun _ _ _ h => h) fun _ _ h => h

theorem initializes_versioned : Initializes State.versioned :=
  initializes_settled State.versioned (fun _ _ _ h => h) (fun _ _ _ h => h) fun _ _ h => h

theorem initializes_selected : Initializes State.selected :=
  initializes_settled State.selected (fun _ _ _ h => h) (fun _ _ _ h => h) fun _ _ h => h

theorem initializes_clocked : Initializes State.clocked :=
  initializes_settled State.clocked (fun _ _ _ h => h) (fun _ _ _ h => h) fun _ _ h => h

/-- On a version-2 card the class says nothing about version 1. -/
theorem State.versioned_of_v2 {s : State} (hv : s.session.specVersion = .v2) : s.versioned :=
  ⟨fun hu => (by cases hv.symm.trans hu), fun h1 => (by cases hv.symm.trans h1)⟩

theorem judgeCmd8_ensures (r : Code × State) (h : r.2.standardClass) : Ensures State.versioned (judgeCmd8 r) := by
  intro hok
  unfold judgeCmd8 at hok ⊢
  split at hok
  · split at hok
    · rename_i hecho
      rw [if_pos hecho]
      exact ⟨nofun, nofun⟩
    · cases hok
  · split at hok
    · rename_i hillegal
      rw [if_pos hillegal]
      exact ⟨nofun, fun _ => h⟩
    · cases hok
  · rename_i hne _
    exact (hne r.2 (Prod.ext hok rfl)).elim

theorem initStep2_ensures (s : State) (h : s.standardClass) : Ensures State.standardClass (initStep2 s) := fun _ =>
  andThen_keeps State.standardClass _ _ (initializes_standardClass.sendCommand _ _ _ (csAssert (atStep 2 s)) h)
    fun _ hs => hs

theorem initStep3_ensures (s : State) (h : s.standardClass) : Ensures State.versioned (initStep3 s) :=
  judgeCmd8_ensures _ (initializes_standardClass.cmd8Exchange initializes_standardClass.r7 _ (atStep 3 s) h)

theorem initStep4_ensures (s : State) (h : s.versioned) : Ensures State.selected (initStep4 s) := by
  intro hok
  obtain ⟨hne, -⟩ | ⟨u, hu, he⟩ := initializes_versioned.initStep4 s h
  · exact absurd hok hne
  · rw [he]
    exact ⟨hu, rfl, rfl⟩

theorem initStep5_ensures (s : State) (h : s.selected) : Ensures State.selected (initStep5 s) := fun _ =>
  initializes_selected.initStep5 (fun _ _ hv hs => ⟨State.versioned_of_v2 hv, hs.2⟩) s h

/-- Step 8 on a version-2 card, whatever class and capacity it finds. -/
theorem sized_of_v2 {s : State} (h : s.clocked) (hv : s.session.specVersion = .v2) (k : Wide) (c : CapacityClass) :
    State.sized { s with
      session.blockSize := blockSizeBytes, session.capacityBytes := k, session.capacityClass := c } := by
  obtain ⟨⟨-, hmode, hstate⟩, hclk⟩ := h
  exact ⟨⟨⟨State.versioned_of_v2 hv, hmode, hstate⟩, hclk⟩, rfl⟩

theorem deriveV2_sized {s : State} (h : s.clocked) (hv : s.session.specVersion = .v2) : (deriveV2 s).sized :=
  sized_of_v2 h hv _ _

theorem deriveV1_sized {s : State} (h : s.clocked) : (deriveV1 s).sized := ⟨h, rfl⟩

theorem initStep8_ensures (s : State) (h : s.clocked) : Ensures State.sized (initStep8 s) := by
  have h8 : (atStep 8 s).clocked := h
  rw [initStep8_eq]
  split
  · rename_i hv
    exact fun _ => deriveV2_sized h8 hv
  · exact andThen_ensures (fun _ => initializes_clocked.sendCommand _ _ _ _ h8) fun _ hs _ => deriveV1_sized hs

/-- The session and the clock after a successful `INITIALIZE`; chip-select is released (R250). -/
theorem initializeBody_ensures (s : State) :
    Ensures (fun t => t.sized ∧ t.csLevel = .deasserted) (initializeBody s) := by
  have step1 : (initStep1 (loadConfig s)).2.standardClass := initializes_standardClass.sendDummies _ _ rfl
  refine andThen_ensures (fun _ => step1) fun s hs => ?_
  refine andThen_ensures (initStep2_ensures s hs) fun s hs => ?_
  refine andThen_ensures (initStep3_ensures s hs) fun s hs => ?_
  refine andThen_ensures (initStep4_ensures s hs) fun s hs => ?_
  refine andThen_ensures (initStep5_ensures s hs) fun s hs => ?_
  have step6 : (initStep6 s).2.clocked := ⟨hs, rfl⟩
  refine andThen_ensures (fun _ => step6) fun s hs => ?_
  refine andThen_ensures (fun _ => initializes_clocked.initStep7 s hs) fun s hs => ?_
  exact andThen_ensures (initStep8_ensures s hs) fun _ hs _ => ⟨hs, rfl⟩

theorem complete_of_ok {r : Code × State} (h : r.1 = .ok) :
    complete r = { r.2 with work.seqResult := .ok, res := .ok, seq := .idleSeq } := by
  obtain ⟨c, s⟩ := r
  subst h
  exact complete_ok s

theorem complete_of_error {r : Code × State} (h : r.1 ≠ .ok) :
    complete r = failHandler r.1 { r.2 with work.seqResult := r.1 } := complete_error r.1 r.2 h

/-- A successful `INITIALIZE` leaves a usable session. -/
theorem exec_initializeOp_usable {x y z : Word} {s t : State} (h : exec (.initializeOp x y z) s = .next t)
    (hres : t.res = .ok) : t.usable := by
  obtain ⟨-, -, -, -, -, -, hvalid, -⟩ := exec_initializeOp_initializedFrom h
  rw [exec_initializeOp_next h, complete_res] at hres
  rw [exec_initializeOp_next h, complete_of_ok hres] at hvalid ⊢
  obtain ⟨⟨⟨⟨⟨hver, hclass⟩, hmode, hstate⟩, hclk⟩, hsize⟩, hcs⟩ := initializeBody_ensures _ hres
  exact ⟨hmode, hstate, hsize, hver, hclass, hvalid, hclk, hcs⟩

end Sys2Proof.Machine
end

section
/-! PROOF. The invariant between operations (10_state.md R34, R35), instruction by instruction, and the step. -/

namespace Sys2Proof.Machine

/-- An operation that is over meets the invariant: through the handler the session is unusable, and after `OK` it is what the
body left. -/
theorem complete_inv (r : Code × State) (hmem : Memory.wf r.2.mem = true)
    (htable : r.2.tableValid = true → r.2.table = crc7Table) (hok : r.1 = .ok → r.2.unusable ∨ r.2.usable) :
    (complete r).inv := by
  by_cases hc : r.1 = .ok
  · rw [complete_of_ok hc]
    exact ⟨hmem, rfl, hok hc, htable⟩
  · rw [complete_of_error hc]
    exact ⟨hmem, rfl, .inl ⟨rfl, rfl⟩, htable⟩

theorem crc7Build_inv {s t : State} (hs : s.inv) (h : exec .crc7Build s = .next t) : t.inv := by
  obtain ⟨hmem, -, hsession, -⟩ := hs
  rw [exec_crc7Build_next h]
  refine complete_inv _ hmem (fun _ => rfl) fun _ => ?_
  obtain hun | ⟨hmode, hstate, hsize, hver, hclass, -, hclk, hcs⟩ := hsession
  · exact .inl hun
  · exact .inr ⟨hmode, hstate, hsize, hver, hclass, rfl, hclk, hcs⟩

/-- What the handler leaves of an operation that failed (10_state.md R34 d, 60_exceptions.md R370). -/
theorem complete_failed (r : Code × State) (h : (complete r).res ≠ .ok) :
    (complete r).session.mode = .inactive ∧ (complete r).session.state = .inactive ∧
      (complete r).csLevel = .deasserted ∧ (complete r).seq = .idleSeq := by
  rw [complete_res] at h
  rw [complete_of_error h]
  exact ⟨rfl, rfl, rfl, rfl⟩

theorem initializeOp_inv {x y z : Word} {s t : State} (hs : s.inv) (h : exec (.initializeOp x y z) s = .next t) :
    t.inv := by
  obtain ⟨hwf, -⟩ := hs
  have ⟨_, _, _, _, _, htable, _, _, _, _, _, hmem, _⟩ := exec_initializeOp_initializedFrom h
  have ht := exec_initializeOp_next h
  refine ⟨hmem ▸ hwf, ht ▸ complete_seq _, ?_, fun _ => htable⟩
  by_cases hres : t.res = .ok
  · exact .inr (exec_initializeOp_usable h hres)
  · subst ht
    obtain ⟨hmode, hstate, -⟩ := complete_failed _ hres
    exact .inl ⟨hmode, hstate⟩

/-- A transfer admitted by a session that meets the invariant finds it usable. -/
theorem usable_of_commandReady {s : State} (hs : s.inv) (h : commandReady s = true) : s.usable := by
  obtain ⟨-, -, ⟨hmode, -⟩ | hu, -⟩ := hs
  · obtain ⟨hm, -, -⟩ := commandReady_admitted s h
    cases hmode.symm.trans hm
  · exact hu

theorem transfer_inv {i : Instr} {s t : State} (hi : RunsTransfer i s) (hs : s.inv) (h : exec i s = .next t) : t.inv := by
  obtain rfl | ⟨hready, ops, body, hbody, rfl⟩ := hi.next h
  · exact hs
  obtain ⟨hmode, hstate, hsize, hver, hclass, hvalid, hclk, -⟩ := usable_of_commandReady hs hready
  obtain ⟨hmem, -, -, htable⟩ := hs
  have hstart : (startOp ops s).transferring :=
    ⟨hmem, ⟨hmode, rfl, hsize, hver, hclass, hvalid, hclk, rfl⟩, htable⟩
  have hend := hbody.endsIn _ transfers_transferring _ hstart
  obtain ⟨hmem', hu, htable'⟩ := hend.keeps transfers_transferring.deasserted
  refine complete_inv _ hmem' htable' fun hok => .inr ?_
  have hstandby := hbody.standby (startOp ops s) hstate hok
  obtain ⟨u, -, he⟩ := hend.of_ok hok
  obtain ⟨hmode, -, hsize, hver, hclass, hvalid, hclk, -⟩ := hu
  exact ⟨hmode, hstandby, hsize, hver, hclass, hvalid, hclk, he ▸ rfl⟩

/-- Every instruction keeps the invariant. -/
theorem exec_inv {i : Instr} {s t : State} (hs : s.inv) (h : exec i s = .next t) : t.inv := by
  obtain hseq | htransfer | rfl | ⟨x, y, z, rfl⟩ := exec_cases i s
  · exact hseq.keeps sequences_inv h hs
  · exact transfer_inv htransfer hs h
  · exact crc7Build_inv hs h
  · exact initializeOp_inv hs h

/-- Everything a step can do that answers a next state. -/
theorem step_next {s t : State} (h : step s = .next t) :
    t = s ∨ ∃ rest, t = refuse (takeItem rest s) ∨ ∃ i, exec i (takeItem rest s) = .next t := by
  unfold step at h
  split at h
  · cases h
    exact .inl rfl
  · rename_i r rest _
    split at h
    · exact .inr ⟨rest, .inr ⟨_, h⟩⟩
    · unfold rejectItem at h
      split at h
      · cases h
        exact .inr ⟨rest, .inl rfl⟩
      · cases h

/-- A transfer that ends with `OK` was admitted and leaves the session in `(Transfer, Standby)`, chip-select released. -/
theorem transfer_ok {i : Instr} {s t : State} (hi : RunsTransfer i s) (h : exec i s = .next t) (hres : t.res = .ok) :
    admitted s = true ∧ t.session.mode = .transfer ∧ t.session.state = .standby ∧ t.csLevel = .deasserted ∧
      t.seq = .idleSeq := by
  obtain rfl | ⟨hready, ops, body, hbody, rfl⟩ := hi.next h
  · cases hres
  obtain ⟨hmode, hstate, -⟩ := commandReady_admitted s hready
  have hadmitted : admitted s = true := by simp [admitted, hmode, hstate]
  rw [complete_res] at hres
  have hend := hbody.endsIn _ (transfers_mode .transfer) (startOp ops s) hmode
  obtain ⟨u, hu, he⟩ := hend.of_ok hres
  have hstandby := hbody.standby (startOp ops s) hstate hres
  rw [complete_of_ok hres]
  exact ⟨hadmitted, he ▸ hu, hstandby, he ▸ rfl, rfl⟩

end Sys2Proof.Machine
end

section
/-! PROOF. What a command run alone leaves unchanged (42_command_response.md R175 to R189), and how an operation ends for
`S.lastR1` (10_state.md R26). -/

namespace Sys2Proof.Machine

/-- The state `t` with the registers that every command writes as they are in `s`. -/
def State.restored (s t : State) : State :=
  { t with
    session.lastR1 := s.session.lastR1
    work := { t.work with fr := s.work.fr, tries := s.work.tries, seqResult := s.work.seqResult }
    wire := s.wire
    trace := s.trace }

/-- The receiver's registers as they are in `s`. -/
def State.receiverRestored (s t : State) : State :=
  { t with work := { t.work with crcRx := s.work.crcRx, crcErr := s.work.crcErr, k := s.work.k } }

/-- `t` is `s` but for `R7`. -/
def State.sameButR7 (s t : State) : Prop := { t with work.r7 := s.work.r7 } = s

/-- `t` is `s` but for `S.OCR`. -/
def State.sameButOcr (s t : State) : Prop := { t with session.ocr := s.session.ocr } = s

/-- `t` is `s` but for `S.lastR2`. -/
def State.sameButLastR2 (s t : State) : Prop := { t with session.lastR2 := s.session.lastR2 } = s

/-- `t` is `s` but for what a wait bounded by time writes. -/
def State.sameButWait (s t : State) : Prop :=
  { t with work.t0 := s.work.t0, timer := s.timer, nowCount := s.nowCount } = s

/-- `t` is `s` but for `S.CSD` and the receiver's registers. -/
def State.sameButCsd (s t : State) : Prop := { s.receiverRestored t with session.csd := s.session.csd } = s

/-- `t` is `s` but for `S.CID` and the receiver's registers. -/
def State.sameButCid (s t : State) : Prop := { s.receiverRestored t with session.cid := s.session.cid } = s

/-- `t` is `s` but for the written-block count, its scratch and the receiver's registers. -/
def State.sameButCount (s t : State) : Prop :=
  { s.receiverRestored t with
    session.lastWrittenBlockCount := s.session.lastWrittenBlockCount, work.w := s.work.w } = s

/-- A command keeps every property that does not look at those registers. -/
theorem commands_restored (s : State) (Q : State → Prop) : Commands fun t => Q (s.restored t) :=
  ⟨⟨⟨fun _ _ _ _ h => h⟩, fun _ _ h => h⟩, fun _ _ h => h, fun _ _ _ h => h⟩

/-- The result of a sequence run alone is one of those registers. -/
theorem endSequence_restored {s t : State} {r : Code × State} (Q : State → Prop) (h : endSequence r = .next t)
    (hr : Q (s.restored r.2)) : Q (s.restored t) := by
  cases h
  exact hr

/-- The commands after whose R1 nothing follows write those registers only. -/
theorem exec_plainCommand_restored {s t : State} {arg : Word} {crc : BitVec 7} {i : Instr}
    (hi : i ∈ [Instr.cmd0 arg crc, .cmd16 arg crc, .cmd55 arg crc, .acmd41 arg crc]) (h : exec i s = .next t) :
    s.restored t = s := by
  have hP := commands_restored s (· = s)
  simp only [List.mem_cons, List.not_mem_nil, or_false] at hi
  obtain rfl | rfl | rfl | rfl := hi
  · exact endSequence_restored (· = s) h (hP.sendCommand _ _ _ s rfl)
  · exact endSequence_restored (· = s) h (hP.sendCommand _ _ _ s rfl)
  · exact endSequence_restored (· = s) h (hP.sendPrefix _ s rfl)
  · exact endSequence_restored (· = s) h (hP.acmd41Exchange _ _ s rfl)

/-- The end of an operation keeps `S.lastR1`. -/
theorem complete_lastR1From {old : Byte} {r : Code × State} (h : r.2.lastR1From old) : (complete r).lastR1From old := by
  obtain ⟨c, s⟩ := r
  cases c <;> exact h

end Sys2Proof.Machine
end

section
/-! PROOF. The statements of 10_state.md, settled. -/

namespace Sys2Proof.Settled

open Sys2Proof.Machine

/-- Settles O5: each value is the one written in the reset state. -/
theorem resetValues : Obligations.ResetValues := ⟨rfl, rfl, rfl, rfl, rfl, rfl⟩

/-- Settles O6: at reset the session is unusable, and without a valid table the clause on the table is void. -/
theorem resetMeetsTheInvariant : Obligations.ResetMeetsTheInvariant := ⟨rfl, rfl, .inl ⟨rfl, rfl⟩, nofun⟩

/-- Settles O7: an idle step and a refused item write nothing the invariant speaks of, and every instruction keeps it. -/
theorem stepKeepsTheInvariant : Obligations.StepKeepsTheInvariant := by
  intro s t hs h
  obtain rfl | ⟨rest, rfl | ⟨i, he⟩⟩ := step_next h
  · exact hs
  · exact hs
  · exact exec_inv (s := takeItem rest s) hs he

/-- Settles O44: a failed operation went through the handler, whatever its body did. -/
theorem failureForcesInactive : Obligations.FailureForcesInactive := by
  intro s t i x y z hi h hok hrefused
  obtain rfl | hi := List.mem_cons.1 hi
  · rw [exec_initializeOp_next h] at hok ⊢
    exact complete_failed _ hok
  · obtain rfl | ⟨-, ops, body, -, rfl⟩ := (runsTransfer_of_mem s hi).next h
    · exact absurd rfl hrefused
    · exact complete_failed _ hok

/-- Settles O45: the steps of `INITIALIZE` establish the usable session one after another, and a transfer keeps the mode and
closes in `Standby`. -/
theorem successLeavesTheSessionReady : Obligations.SuccessLeavesTheSessionReady := by
  intro s t x y z
  refine ⟨fun h hres => ?_, fun i hi h hres => transfer_ok (runsTransfer_of_mem s hi) h hres⟩
  obtain ⟨-, -, -, -, -, htable, -⟩ := exec_initializeOp_initializedFrom h
  have hseq : t.seq = .idleSeq := exec_initializeOp_next h ▸ complete_seq _
  exact ⟨exec_initializeOp_usable h hres, htable, hseq⟩

/-- Settles O50: beside the registers that every command writes, each command writes those named with it. -/
theorem commandFrame : Obligations.CommandFrame := by
  intro s t arg crc
  have hP := commands_restored s
  refine ⟨fun i hi h => exec_plainCommand_restored hi h, fun h => ?cmd8, fun h => ?cmd58, fun h => ?cmd13, fun h => ?cmd12,
    fun h => ?cmd9, fun h => ?cmd10, fun h => ?acmd22⟩
  case cmd8 =>
    exact endSequence_restored s.sameButR7 h ((hP _).cmd8Exchange (fun _ _ _ _ h => h) arg s rfl)
  case cmd58 =>
    exact endSequence_restored s.sameButOcr h ((hP _).cmd58Exchange (fun _ _ _ _ h => h) arg s rfl)
  case cmd13 =>
    exact endSequence_restored s.sameButLastR2 h ((hP _).cmd13Exchange (fun _ _ h => h) arg s rfl)
  case cmd12 =>
    exact endSequence_restored s.sameButWait h ((hP _).cmd12Exchange ⟨fun _ _ h => h, fun _ h => h⟩ arg s rfl)
  case cmd9 =>
    exact endSequence_restored s.sameButCsd h
      ((hP _).cmd9Exchange (fun _ _ _ _ h => h) (fun _ _ _ _ h => h) arg s rfl)
  case cmd10 =>
    exact endSequence_restored s.sameButCid h
      ((hP _).cmd10Exchange (fun _ _ _ _ h => h) (fun _ _ _ _ h => h) arg s rfl)
  case acmd22 =>
    exact endSequence_restored s.sameButCount h
      ((hP _).acmd22Exchange (fun _ _ _ _ h => h) (fun _ _ _ _ h => h) (fun _ _ h => h) arg s rfl)

/-- Settles O54: from its step 1 on `INITIALIZE` keeps what `initializedFrom` names, and so does its end. -/
theorem initializeFrame : Obligations.InitializeFrame := by
  intro s t x y z h
  obtain ⟨htransport, hcs, hclock, hr2, hcount, htable, hvalid, hcrc, hw, hi, hoperands, hrest⟩ :=
    exec_initializeOp_initializedFrom h
  have hseq : t.seq = .idleSeq := exec_initializeOp_next h ▸ complete_seq _
  exact ⟨htransport, hcs, hclock, hr2, hcount, htable, hvalid, hcrc, hw, hi, hoperands, hseq, hrest⟩

/-- Settles O55: only the poll for an R1 writes the register, and it takes no byte with bit 7 set. -/
theorem lastR1HasBit7Clear : Obligations.LastR1HasBit7Clear := by
  intro i s t h
  have hs : s.lastR1From s.session.lastR1 := .inl rfl
  obtain hseq | htransfer | rfl | ⟨x, y, z, rfl⟩ := exec_cases i s
  · exact hseq.keeps (sequences_lastR1From _) h hs
  · obtain rfl | ⟨-, ops, body, hbody, rfl⟩ := htransfer.next h
    · exact hs
    · have hP := transfers_lastR1From s.session.lastR1
      exact complete_lastR1From ((hbody.endsIn _ hP (startOp ops s) hs).keeps hP.deasserted)
  · rw [exec_crc7Build_next h]
    exact hs
  · rw [exec_initializeOp_next h]
    exact complete_lastR1From ((initializing_lastR1From _).initializeBody _ hs)

end Sys2Proof.Settled
end

section
/-! PROOF. The two checksums are linear, and so one step of the form that the engine runs is the bit-serial step: the table
entry is the bit-by-bit CRC7 (40_crc7.md R131 to R136), and a word step is two byte steps of the CRC16 (41_crc16.md R151,
R152). The laws of the answered sequences take both equalities as hypotheses. -/

namespace Sys2Proof.Machine

theorem repeatTimes_add {α : Type} (f : α → α) (n k : Nat) (x : α) :
    repeatTimes f (n + k) x = repeatTimes f k (repeatTimes f n x) := by
  induction n generalizing x with
  | zero => simp [repeatTimes]
  | succ n ih => rw [Nat.succ_add, repeatTimes, repeatTimes, ih]

theorem repeatTimes_xor {n : Nat} (f : BitVec n → BitVec n) (hf : ∀ a b, f (a ^^^ b) = f a ^^^ f b) (k : Nat)
    (a b : BitVec n) : repeatTimes f k (a ^^^ b) = repeatTimes f k a ^^^ repeatTimes f k b := by
  induction k generalizing a b with
  | zero => rfl
  | succ k ih => rw [repeatTimes, repeatTimes, repeatTimes, hf, ih]

/-- XOR with a polynomial where a condition holds is linear in the condition. -/
theorem xor_poly_linear {n : Nat} (x y p : BitVec n) (u v : Bool) :
    (if u ^^ v then x ^^^ y ^^^ p else x ^^^ y) = (if u then x ^^^ p else x) ^^^ (if v then y ^^^ p else y) := by
  cases u <;> cases v <;> ext i hi <;> simp <;> cases x[i] <;> cases y[i] <;> cases p[i] <;> rfl

/-! ### CRC7 -/

theorem crc7Reduce_xor (a b : Byte) : crc7Reduce (a ^^^ b) = crc7Reduce a ^^^ crc7Reduce b := by
  simp only [crc7Reduce, BitVec.msb_xor, xor_poly_linear]

theorem crc7Shift_xor (a b : Byte) : crc7Shift (a ^^^ b) = crc7Shift a ^^^ crc7Shift b := by
  simp only [crc7Shift, BitVec.shiftLeft_xor_distrib, crc7Reduce_xor]

theorem crc7Entry_xor (a b : Byte) : crc7Entry (a ^^^ b) = crc7Entry a ^^^ crc7Entry b := by
  simp only [crc7Entry, crc7Reduce_xor, repeatTimes_xor crc7Shift crc7Shift_xor]

theorem crc7Bit_xor (c d : BitVec 7) (x y : Bool) : crc7Bit (c ^^^ d) (x ^^ y) = crc7Bit c x ^^^ crc7Bit d y := by
  simp only [crc7Bit, ← xor_poly_linear, BitVec.msb_xor, BitVec.shiftLeft_xor_distrib,
    Bool.xor_assoc, Bool.xor_left_comm x d.msb y]

theorem crc7BitByte_xor (c d : BitVec 7) (a b : Byte) :
    crc7BitByte (c ^^^ d) (a ^^^ b) = crc7BitByte c a ^^^ crc7BitByte d b := by
  simp only [crc7BitByte, List.foldl_cons, List.foldl_nil, BitVec.getLsbD_xor, crc7Bit_xor]

set_option maxRecDepth 1500 in
/-- The accumulator is absorbed by the byte that it is XORed into, one bit higher (R134). -/
theorem crc7BitByte_absorbs (c : BitVec 7) : crc7BitByte c (c.setWidth 8 <<< 1) = 0#7 := by
  revert c
  decide

theorem crc7BitByte_eq (c : BitVec 7) (b : Byte) : crc7BitByte c b = crc7BitByte 0#7 ((c.setWidth 8 <<< 1) ^^^ b) := by
  have h := crc7BitByte_xor c 0#7 (c.setWidth 8 <<< 1) ((c.setWidth 8 <<< 1) ^^^ b)
  simpa [crc7BitByte_absorbs, ← BitVec.xor_assoc] using h

set_option maxRecDepth 1500 in
/-- A table entry is the bit-by-bit CRC7 of its index (R131, R132). -/
theorem crc7Entry_eq (x : Byte) : (crc7Entry x).setWidth 7 = crc7BitByte 0#7 x := by
  revert x
  decide

theorem crc7Table_getElem (x : Byte) : crc7Table[x.toFin] = crc7Entry x := by
  simp [crc7Table]

theorem crc7Step_eq (c b : Byte) : (crc7Step crc7Table c b).setWidth 7 = crc7BitByte (c.setWidth 7) b := by
  have hc : ((c.setWidth 7).setWidth 8 <<< 1 : Byte) = c <<< 1 := by
    ext i hi
    by_cases h0 : i < 1
    · simp [h0]
    · simp [h0, show i - 1 < 7 by omega, BitVec.getLsbD_eq_getElem (show i - 1 < 8 by omega)]
  rw [crc7Step, crc7Table_getElem, crc7Entry_eq, crc7BitByte_eq (c.setWidth 7), hc]

theorem foldl_crc7Step (m : List Byte) (c : Byte) :
    (m.foldl (crc7Step crc7Table) c).setWidth 7 = m.foldl crc7BitByte (c.setWidth 7) := by
  induction m generalizing c with
  | nil => rfl
  | cons b m ih => rw [List.foldl_cons, List.foldl_cons, ih, crc7Step_eq]

/-- `CRC7_COMPUTE` over the table is the bit-by-bit CRC7 (R134). -/
theorem crc7Fold_eq_bitwise (m : List Byte) : crc7Fold crc7Table m = crc7Bitwise m := foldl_crc7Step m 0#8

/-! ### CRC16 -/

theorem crc16Shift_xor (a b : Half) : crc16Shift (a ^^^ b) = crc16Shift a ^^^ crc16Shift b := by
  simp only [crc16Shift, BitVec.msb_xor, BitVec.shiftLeft_xor_distrib, xor_poly_linear]

/-- A byte in the low half reaches the high half unchanged: no bit of it is shifted out. -/
theorem repeatTimes_crc16Shift_low (b : Byte) : repeatTimes crc16Shift 8 (b.setWidth 16) = b.setWidth 16 <<< 8 := by
  revert b
  decide

/-- The word step of the 16-bit path is two byte steps (R152). -/
theorem crc16Step16_append (c : Half) (hi lo : Byte) : crc16Step16 c (hi ++ lo) = crc16Byte (crc16Byte c hi) lo := by
  have hw : (hi ++ lo : Half) = (hi.setWidth 16 <<< 8) ^^^ lo.setWidth 16 := by
    refine BitVec.eq_of_getLsbD_eq fun i hi => ?_
    rw [BitVec.getLsbD_append]
    by_cases h8 : i < 8
    · simp [h8, hi]
    · simp [h8, hi, BitVec.getLsbD_of_ge lo i (by omega)]
  rw [crc16Step16, hw, ← BitVec.xor_assoc, repeatTimes_add crc16Shift 8 8,
    repeatTimes_xor crc16Shift crc16Shift_xor 8 _ (lo.setWidth 16), repeatTimes_crc16Shift_low]
  rfl

theorem foldl_crc16Step16 (m : List Byte) (c : Half) (h : m.length % 2 = 0) :
    (payloadWords m).foldl crc16Step16 c = m.foldl crc16Byte c := by
  induction m using payloadWords.induct generalizing c with
  | case1 hi lo m ih =>
    rw [payloadWords, List.foldl_cons, crc16Step16_append, ih _ (by simp only [List.length_cons] at h; omega)]
    rfl
  | case2 m hm =>
    rcases m with _ | ⟨a, _ | ⟨b, m⟩⟩
    · rfl
    · simp at h
    · exact absurd rfl (hm a b m)

/-- The word-parallel CRC16 of an even payload is the bit-serial one (R152). -/
theorem crc16Words_eq (m : List Byte) (h : m.length % 2 = 0) : crc16Words m = crc16 m := foldl_crc16Step16 m crc16Seed h

end Sys2Proof.Machine
end

section
/-! PROOF. What ends a sequence before anything is sent: no CRC7 table, a `CMD55` in mode `Inactive`, a payload of odd length
(40_crc7.md R137, 42_command_response.md R173, 20_memory.md R73). -/

namespace Sys2Proof.Machine

/-- The sequence is refused in the state `s`, with nothing written. -/
def RefusedIn (s : State) (r : Code × State) : Prop := r = (.refused, s)

theorem RefusedIn.andThen {s : State} {r : Code × State} (h : RefusedIn s r) (f : State → Code × State) :
    RefusedIn s (andThen r f) := by
  subst h
  rfl

theorem RefusedIn.ifPayloadsEven {s : State} {command : State → Code × State} (h : RefusedIn s (command s)) (blocks : Nat) :
    RefusedIn s (ifPayloadsEven blocks command s) := by
  rw [ifPayloadsEven_eq]
  split
  · exact h
  · rfl

/-- A refused sequence run alone writes its result only. -/
theorem RefusedIn.endSequence {s : State} {r : Code × State} (h : RefusedIn s r) :
    endSequence r = .next { s with work.seqResult := .refused } := by
  subst h
  rfl

theorem sendPrefix_noTable (arg : Word) (s : State) (ht : s.tableValid = false) : RefusedIn s (sendPrefix arg s) := by
  unfold sendPrefix
  split
  · rfl
  · exact sendCommand_noTable 55 arg _ s ht

theorem sendPrefix_inactive (arg : Word) (s : State) (hm : s.session.mode = .inactive) :
    RefusedIn s (sendPrefix arg s) := by
  simp [RefusedIn, sendPrefix, hm, expectedOfCmd55]

theorem payloadsEven_odd {blocks : Nat} {s : State} (ho : s.session.blockSize.toNat % 2 = 1) (hb : blocks ≠ 0) :
    payloadsEven blocks s = false := by
  simp [payloadsEven, hb, ho]

theorem ifPayloadsEven_odd {blocks : Nat} {s : State} (ho : s.session.blockSize.toNat % 2 = 1) (hb : blocks ≠ 0)
    (command : State → Code × State) : RefusedIn s (ifPayloadsEven blocks command s) :=
  ifPayloadsEven_false blocks command s (payloadsEven_odd ho hb)

theorem toNat_ne_zero {w : Word} (h : w ≠ 0#32) : w.toNat ≠ 0 := fun hw => h (BitVec.eq_of_toNat_eq hw)

theorem runOperation_notReady (ops : Operands) (body : State → Code × State) (s : State) (h : s.seq = .idleSeq) :
    runOperation ops false body s = .next { s with res := .refused } := by
  simp [runOperation, h, refuse]

theorem runOperation_odd {blocks : Nat} {s : State} (hs : s.seq = .idleSeq) (ho : s.session.blockSize.toNat % 2 = 1)
    (hb : blocks ≠ 0) (ops : Operands) (body : State → Code × State) :
    runOperation ops (blockReady blocks s) body s = .next { s with res := .refused } := by
  rw [blockReady, payloadsEven_odd ho hb, Bool.and_false, runOperation_notReady ops body s hs]

/-- Every command is refused without the table. -/
theorem exec_command_noTable {s : State} (ht : s.tableValid = false) {arg : Word} {crc : BitVec 7} {i : Instr}
    (hi : i ∈ [Instr.cmd0 arg crc, .cmd8 arg crc, .cmd9 arg crc, .cmd10 arg crc, .cmd12 arg crc, .cmd13 arg crc,
      .cmd16 arg crc, .cmd17 arg crc, .cmd18 arg crc, .cmd24 arg crc, .cmd25 arg crc, .cmd55 arg crc, .cmd58 arg crc,
      .acmd22 arg crc, .acmd41 arg crc]) : exec i s = .next { s with work.seqResult := .refused } := by
  have hc : ∀ cmd exp, RefusedIn s (sendCommand cmd arg exp s) := fun cmd exp => sendCommand_noTable cmd arg exp s ht
  have hp : ∀ arg, RefusedIn s (sendPrefix arg s) := fun arg => sendPrefix_noTable arg s ht
  simp only [List.mem_cons, List.not_mem_nil, or_false] at hi
  obtain rfl | rfl | rfl | rfl | rfl | rfl | rfl | rfl | rfl | rfl | rfl | rfl | rfl | rfl | rfl := hi
  · exact (hc 0 _).endSequence
  · exact ((hc 8 _).andThen _).endSequence
  · exact ((hc 9 _).andThen _).endSequence
  · exact ((hc 10 _).andThen _).endSequence
  · exact ((hc 12 _).andThen _).endSequence
  · exact ((hc 13 _).andThen _).endSequence
  · exact (hc 16 _).endSequence
  · exact (((hc 17 _).andThen _).ifPayloadsEven _).endSequence
  · exact (((hc 18 _).andThen _).ifPayloadsEven _).endSequence
  · exact (((hc 24 _).andThen _).ifPayloadsEven _).endSequence
  · exact (((hc 25 _).andThen _).ifPayloadsEven _).endSequence
  · exact (hp arg).endSequence
  · exact ((hc 58 _).andThen _).endSequence
  · exact (((hp argZero).andThen _).andThen _).endSequence
  · exact ((hp argZero).andThen _).endSequence

/-- `CMD55`, and each application command with it, is refused in mode `Inactive`. -/
theorem exec_application_inactive {s : State} (hm : s.session.mode = .inactive) {arg : Word} {crc : BitVec 7} {i : Instr}
    (hi : i ∈ [Instr.cmd55 arg crc, .acmd22 arg crc, .acmd41 arg crc]) :
    exec i s = .next { s with work.seqResult := .refused } := by
  have hp : ∀ arg, RefusedIn s (sendPrefix arg s) := fun arg => sendPrefix_inactive arg s hm
  simp only [List.mem_cons, List.not_mem_nil, or_false] at hi
  obtain rfl | rfl | rfl := hi
  · exact (hp arg).endSequence
  · exact (((hp argZero).andThen _).andThen _).endSequence
  · exact ((hp argZero).andThen _).endSequence

end Sys2Proof.Machine
end

section
/-! PROOF. The address translation (20_memory.md R68, R69). -/

namespace Sys2Proof.Machine

theorem xlate_sdsc {s : Session} (h : s.capacityClass = .sdsc) (a : Word) : xlate s a = a * s.blockSize := if_pos h

theorem xlate_blockAddressed {s : Session} (h : s.capacityClass ≠ .sdsc) (a : Word) : xlate s a = a := if_neg h

theorem toNat_xlate_sdsc {s : Session} (h : s.capacityClass = .sdsc) (a : Word) :
    (xlate s a).toNat = a.toNat * s.blockSize.toNat % 2 ^ 32 := by
  rw [xlate_sdsc h, BitVec.toNat_mul]

end Sys2Proof.Machine

namespace Sys2Proof.Settled

open Sys2Proof.Machine

/-- Settles O47: without the table the first frame is refused, in mode `Inactive` the `CMD55`, and an odd length at the
precondition of the command or the operation. -/
theorem preconditionsRefused : Obligations.PreconditionsRefused := by
  intro s arg x y z crc
  refine ⟨fun ht i hi => exec_command_noTable ht hi, fun hm i hi => exec_application_inactive hm hi,
    fun ho => ⟨?single, fun hc => ?multi, fun hs => ?block, fun hs hz => ?multiBlock⟩⟩
  case single =>
    simp only [List.forall_mem_cons, List.not_mem_nil, false_implies, implies_true, and_true]
    exact ⟨(ifPayloadsEven_odd ho one_ne_zero _).endSequence, (ifPayloadsEven_odd ho one_ne_zero _).endSequence⟩
  case multi =>
    have hb := toNat_ne_zero hc
    simp only [List.forall_mem_cons, List.not_mem_nil, false_implies, implies_true, and_true]
    exact ⟨(ifPayloadsEven_odd ho hb _).endSequence, (ifPayloadsEven_odd ho hb _).endSequence⟩
  case block =>
    simp only [List.forall_mem_cons, List.not_mem_nil, false_implies, implies_true, and_true]
    exact ⟨runOperation_odd hs ho one_ne_zero _ _, runOperation_odd hs ho one_ne_zero _ _⟩
  case multiBlock =>
    have hb := toNat_ne_zero hz
    simp only [List.forall_mem_cons, List.not_mem_nil, false_implies, implies_true, and_true]
    exact ⟨runOperation_odd hs ho hb _ _, runOperation_odd hs ho hb _ _⟩

/-- Settles O56: a 32-bit product is the product in `Nat` modulo `2 ^ 32`, of which 512 is a divisor. -/
theorem addressTranslation : Obligations.AddressTranslation := by
  refine ⟨fun s a => ⟨fun h => ?product, fun h => xlate_blockAddressed h a⟩, fun s h hb => ⟨?tenth, fun a => ?multiple⟩,
    fun s a h hd => ?exact⟩
  case product => exact BitVec.eq_of_toNat_eq (by rw [toNat_xlate_sdsc h, BitVec.toNat_ofNat])
  case tenth =>
    rw [xlate_sdsc h, hb]
    rfl
  case multiple =>
    rw [toNat_xlate_sdsc h, hb]
    simp only [BitVec.toNat_ofNat]
    omega
  case exact => rw [toNat_xlate_sdsc h, Nat.mod_eq_of_lt (hd h)]

end Sys2Proof.Settled
end

section
/-! PROOF. The commands that read data packets, answered: `ACMD22` with the written-block count, `CMD17` and `CMD18` with the
blocks of the buffer, `CMD12` with the drain (42_command_response.md R179, R182, R183, R188). Each lemma gives the
whole state. -/

namespace Sys2Proof.Machine

/-! ### The packet of a block -/

/-- The token wait moves neither the buffer nor the length of its blocks. -/
theorem andThen_waitToken_dataRx (i : Nat) (s : State) :
    andThen (waitToken tokenStartByte s) (fun s => dataRx (blockLength s) (.hostBuffer (blockBase s i)) s) =
      andThen (waitToken tokenStartByte s) (dataRx (blockLength s) (.hostBuffer (blockBase s i))) := by
  have hP : Polls fun t => t.session.blockSize = s.session.blockSize ∧ t.operands = s.operands :=
    ⟨⟨fun _ _ _ _ h => h⟩, fun _ _ h => h⟩
  obtain ⟨hsize, hops⟩ := hP.waitToken tokenStartByte s ⟨rfl, rfl⟩
  rw [andThen_eq, andThen_eq]
  simp only [blockLength, blockBase, hsize, hops]

/-- The packet of block `i` cut short inside its payload: every byte received before is in the buffer (45_transfer.md R294). -/
theorem packetInto_ioFail (i : Nat) (pads got : List Byte) (rest : List WireAnswer) (s : State)
    (he : blockLength s % 2 = 0) (hp : pads.all (fun b => !tokenMatch s.params.tokenMatch b tokenStartByte) = true)
    (hl : pads.length < tokenTries) (hg : got.length < blockLength s)
    (h : s.wire = answers (pads ++ [tokenStartByte] ++ got) ++ .ioFail :: rest) :
    ∃ w, andThen (waitToken tokenStartByte s) (fun s => dataRx (blockLength s) (.hostBuffer (blockBase s i)) s) =
      (.transportIo, { s with
        work := w
        mem := Memory.writeBytes s.mem (blockBase s i) got
        wire := rest
        trace := .failedExchange fill :: (received (pads ++ [tokenStartByte] ++ got)).reverse ++ s.trace }) := by
  obtain ⟨w, hw⟩ := packet_ioFail (.hostBuffer (blockBase s i)) (blockLength s) pads got rest s he hp hl hg h
  refine ⟨w, ?_⟩
  rw [andThen_waitToken_dataRx, hw, storeBytes_hostBuffer, Nat.add_zero]

/-! ### `ACMD22` -/

/-- The count is stored when its packet is right (R188, 45_transfer.md R290). -/
theorem acmd22Exchange_answered (arg : Word) (app a : CommandAnswer) (p : PacketAnswer) (b0 b1 b2 b3 : Byte)
    (rest : List WireAnswer) (s : State) (ht : s.tableReady) (happ : app.ok = true)
    (hexp : expectedOfCmd55 s.session.mode = some app.r1) (ha : a.ok = true) (hr : a.r1 = r1Normal)
    (hb : p.payload = [b0, b1, b2, b3]) (hp : p.ok s.params.tokenMatch 4 = true)
    (h : s.wire = answers (app.bytes ++ a.bytes ++ p.bytes) ++ rest) :
    acmd22Exchange arg s = (p.code, { s with
      session.lastR1 := r1Normal
      session.lastWrittenBlockCount := if p.good then b0 ++ b1 ++ b2 ++ b3 else s.session.lastWrittenBlockCount
      work := ({ s.work with fr := frameOf 22 arg, w := #v[b0, b1, b2, b3] } : Work).afterPacket p
      wire := rest
      trace := (app.events 55 argZero ++ a.events 22 arg ++ received p.bytes).reverse ++ s.trace }) := by
  have happ55 : sendPrefix argZero s =
      (.ok, sentCommand s app 55 argZero (answers (a.bytes ++ p.bytes) ++ rest)) := by
    simp only [sendPrefix, hexp]
    exact sendCommand_expected crc7Fold_eq_bitwise 55 argZero app.r1 app _ rest s ht happ rfl (by rw [h, List.append_assoc])
  simp only [acmd22Exchange, sendACommand, happ55, andThen_ok]
  rw [sendCommand_expected crc7Fold_eq_bitwise 22 arg r1Normal a p.bytes rest _ (by exact ht) ha hr rfl, andThen_ok,
    andThen_assoc, packet_answered crc16Words_eq .w 4 p rest _ rfl (by exact hp) rfl, storeBytes_w, hb, setBytes_four]
  by_cases hg : p.good = true
  · simp [PacketAnswer.code, hg, storeCount, sentCommand, hr, countOfBytes, Work.afterPacket]
  · simp [PacketAnswer.code, hg, andThen_error .dataCrc, sentCommand, hr, Work.afterPacket]

/-! ### `CMD17` -/

theorem cmd17Exchange_eq (arg : Word) (s : State) (he : s.session.blockSize.toNat % 2 = 0) :
    cmd17Exchange arg s = andThen (sendCommand 17 arg r1Normal s) fun s =>
      andThen (waitToken tokenStartByte s) fun s => dataRx (blockLength s) (.hostBuffer (blockBase s 0)) s :=
  ifPayloadsEven_true 1 _ s (payloadsEven_of 1 s he)

/-- The payload is in the buffer, its CRC16 word right or wrong (R182). -/
theorem cmd17Exchange_answered (arg : Word) (a : CommandAnswer) (p : PacketAnswer) (rest : List WireAnswer) (s : State)
    (ht : s.tableReady) (he : s.session.blockSize.toNat % 2 = 0) (ha : a.ok = true) (hr : a.r1 = r1Normal)
    (hp : p.ok s.params.tokenMatch s.session.blockSize.toNat = true) (h : s.wire = answers (a.bytes ++ p.bytes) ++ rest) :
    cmd17Exchange arg s = (p.code, { s with
      session.lastR1 := r1Normal
      work := ({ s.work with fr := frameOf 17 arg } : Work).afterPacket p
      mem := Memory.writeBytes s.mem (blockBase s 0) p.payload
      wire := rest
      trace := (a.events 17 arg ++ received p.bytes).reverse ++ s.trace }) := by
  rw [cmd17Exchange_eq arg s he,
    sendCommand_expected crc7Fold_eq_bitwise 17 arg r1Normal a p.bytes rest s ht ha hr h, andThen_ok,
    packetInto_answered crc16Words_eq 0 p rest _ (by exact he) (by exact hp) rfl]
  simp [sentCommand, hr, blockBase, Work.afterPacket]

/-- A payload cut short by a failed exchange: what was received before is in the buffer (45_transfer.md R294). -/
theorem cmd17Exchange_ioFail (arg : Word) (a : CommandAnswer) (pads got : List Byte) (rest : List WireAnswer) (s : State)
    (ht : s.tableReady) (he : s.session.blockSize.toNat % 2 = 0) (ha : a.ok = true) (hr : a.r1 = r1Normal)
    (hl : pads.length < tokenTries) (hp : pads.all (fun b => !tokenMatch s.params.tokenMatch b tokenStartByte) = true)
    (hg : got.length < s.session.blockSize.toNat)
    (h : s.wire = answers (a.bytes ++ pads ++ [tokenStartByte] ++ got) ++ .ioFail :: rest) :
    ∃ w, cmd17Exchange arg s = (.transportIo, { s with
      session.lastR1 := r1Normal
      work := w
      mem := Memory.writeBytes s.mem (blockBase s 0) got
      wire := rest
      trace := (a.events 17 arg ++ received (pads ++ [tokenStartByte] ++ got) ++ [Event.failedExchange fill]).reverse
        ++ s.trace }) := by
  have hcmd := sendCommand_expected crc7Fold_eq_bitwise 17 arg r1Normal a (pads ++ [tokenStartByte] ++ got)
    (.ioFail :: rest) s ht ha hr (by rw [h]; simp only [List.append_assoc])
  obtain ⟨w, hw⟩ := packetInto_ioFail 0 pads got rest
    (sentCommand s a 17 arg (answers (pads ++ [tokenStartByte] ++ got) ++ .ioFail :: rest)) he hp hl hg rfl
  refine ⟨w, ?_⟩
  rw [cmd17Exchange_eq arg s he, hcmd, andThen_ok, hw]
  simp [sentCommand, hr, blockBase]

/-! ### `CMD18` -/

/-- The first token wait overwrites the poll counter of the command before it. -/
theorem Work.afterBlocks_tries {packets : List PacketAnswer} (hne : packets ≠ []) (i n : Nat) (w : Work) :
    Work.afterBlocks packets i { w with tries := n } = Work.afterBlocks packets i w := by
  cases packets with
  | nil => exact absurd rfl hne
  | cons p packets => rfl

/-- Of the registers of a command the packets that follow it write the poll counter only, and they read none. -/
theorem Work.afterBlocks_command (packets : List PacketAnswer) (i n : Nat) (fr : Vector Byte 6) (w : Work) :
    ∃ n', Work.afterBlocks packets i { w with fr := fr, tries := n } =
      { Work.afterBlocks packets i w with fr := fr, tries := n' } := by
  induction packets generalizing i w n with
  | nil => exact ⟨n, rfl⟩
  | cons p packets ih => exact ih (i + 1) (p.pads.length + 1) (Work.afterPacket { w with i := i } p)

theorem cmd18Exchange_eq (arg : Word) (s : State) (he : payloadsEven s.operands.count.toNat s = true) :
    cmd18Exchange arg s = andThen (sendCommand 18 arg r1Normal s) fun s => readBlocks s.operands.count.toNat 0 s :=
  ifPayloadsEven_true _ _ s he

/-- Right packets, one after another into the buffer (R183). -/
theorem cmd18Exchange_answered (arg : Word) (a : CommandAnswer) (packets : List PacketAnswer) (rest : List WireAnswer)
    (s : State) (ht : s.tableReady) (he : payloadsEven s.operands.count.toNat s = true) (ha : a.ok = true)
    (hr : a.r1 = r1Normal)
    (hp : ∀ p ∈ packets, p.ok s.params.tokenMatch s.session.blockSize.toNat = true ∧ p.good = true)
    (hn : packets.length = s.operands.count.toNat)
    (h : s.wire = answers (a.bytes ++ packets.flatMap PacketAnswer.bytes) ++ rest) :
    cmd18Exchange arg s = (.ok, { s with
      session.lastR1 := r1Normal
      work := Work.afterBlocks packets 0 { s.work with fr := frameOf 18 arg, tries := a.pads.length + 1 }
      mem := Memory.writeBytes s.mem (blockBase s 0) (packets.flatMap PacketAnswer.payload)
      wire := rest
      trace := (a.events 18 arg ++ received (packets.flatMap PacketAnswer.bytes)).reverse ++ s.trace }) := by
  have hblocks := readBlocks_answered crc16Words_eq packets 0 rest
    (sentCommand s a 18 arg (answers (packets.flatMap PacketAnswer.bytes) ++ rest)) (hn ▸ he) hp rfl
  rw [hn] at hblocks
  rw [cmd18Exchange_eq arg s he, sendCommand_expected crc7Fold_eq_bitwise 18 arg r1Normal a _ rest s ht ha hr h, andThen_ok]
  refine hblocks.trans ?_
  simp [sentCommand, hr, blockBase]

/-- A packet whose CRC16 word is wrong ends the read: its payload and those before it are in the buffer (R183,
45_transfer.md R294). -/
theorem cmd18Exchange_wrongCrc (arg : Word) (a : CommandAnswer) (packets : List PacketAnswer) (bad : PacketAnswer)
    (rest : List WireAnswer) (s : State) (ht : s.tableReady) (he : payloadsEven s.operands.count.toNat s = true)
    (ha : a.ok = true) (hr : a.r1 = r1Normal)
    (hp : ∀ p ∈ packets, p.ok s.params.tokenMatch s.session.blockSize.toNat = true ∧ p.good = true)
    (hn : packets.length < s.operands.count.toNat) (hb : bad.ok s.params.tokenMatch s.session.blockSize.toNat = true)
    (hg : bad.good = false) (h : s.wire = answers (a.bytes ++ (packets ++ [bad]).flatMap PacketAnswer.bytes) ++ rest) :
    cmd18Exchange arg s = (.dataCrc, { s with
      session.lastR1 := r1Normal
      work := Work.afterBlocks (packets ++ [bad]) 0 { s.work with fr := frameOf 18 arg }
      mem := Memory.writeBytes s.mem (blockBase s 0) ((packets ++ [bad]).flatMap PacketAnswer.payload)
      wire := rest
      trace := (a.events 18 arg ++ received ((packets ++ [bad]).flatMap PacketAnswer.bytes)).reverse ++ s.trace }) := by
  have heven : s.session.blockSize.toNat % 2 = 0 := payloadsEven_blocks _ s he (by omega)
  have hwork := Work.afterBlocks_tries (List.concat_ne_nil bad packets) 0 (a.pads.length + 1)
    { s.work with fr := frameOf 18 arg }
  rw [cmd18Exchange_eq arg s he, sendCommand_expected crc7Fold_eq_bitwise 18 arg r1Normal a _ rest s ht ha hr h, andThen_ok,
    readBlocks_wrongCrc crc16Words_eq packets bad _ 0 rest _ (by exact heven) (by exact hp) (by exact hb) hg (by exact hn) rfl]
  simp only [sentCommand, hr, hwork, blockBase, List.reverse_append, List.append_assoc]

/-! ### `CMD12` -/

/-- After a multi-block read the stop is drained (R179, 45_transfer.md R284). -/
theorem cmd12Exchange_drained (stop : CommandAnswer) (busy : List Byte) (arg : Word) (rest : List WireAnswer)
    (later : List Bool) (s : State) (ht : s.tableReady) (hop : s.operands.op = .readMultipleBlock) (hs : stop.ok = true)
    (hr : stop.r1 = r1Normal) (hb : busy.all (fun b => b != 0xFF#8) = true)
    (h : s.wire = answers (stop.bytes ++ busy ++ [0xFF#8]) ++ rest) (htm : s.timer = notElapsed busy.length ++ later) :
    cmd12Exchange arg s = (.ok, { s with
      session.lastR1 := r1Normal
      work := { s.work with fr := frameOf 12 arg, tries := stop.pads.length + 1, t0 := Config.now s.nowCount }
      nowCount := s.nowCount + 1
      wire := rest
      timer := later
      trace := (stop.events 12 arg ++ received (busy ++ [0xFF#8])).reverse ++ s.trace }) := by
  rw [cmd12Exchange, sendCommand_expected crc7Fold_eq_bitwise 12 arg r1Normal stop (busy ++ [0xFF#8]) rest s ht hs hr
    (by rw [h, List.append_assoc]), andThen_ok, if_pos (by exact hop), drain_answered busy rest later _ hb rfl (by exact htm)]
  simp [sentCommand, hr]

end Sys2Proof.Machine
end

section
/-! PROOF. The two reads of the host, from their admission to their end (45_transfer.md R282 to R284). -/

namespace Sys2Proof.Machine

/-- A read once it is admitted, its operands loaded and chip-select asserted (R281), at the step of its command. -/
def readOpened (ops : Operands) (s : State) : State := nextStep 2 (openTransfer .receiving (startOp ops s))

/-- All that the opening of a read writes. -/
theorem readOpened_eq (ops : Operands) (s : State) : readOpened ops s =
    { s with
      session.state := .receiving
      operands := ops
      seq := .step ops.op 2
      csLevel := .asserted
      trace := .csAssert :: s.trace } := rfl

/-- All that the end of a read in `Standby` writes (R282). -/
theorem complete_closeTransfer (s : State) : complete (closeTransfer s) =
    { s with
      session.state := .standby
      work.seqResult := .ok
      res := .ok
      seq := .idleSeq
      csLevel := .deasserted
      trace := .csDeassert :: s.trace } := rfl

/-- All that the end of a failed operation writes (60_exceptions.md R370). -/
theorem complete_error_eq (c : Code) (s : State) (h : c ≠ .ok) : complete (c, s) =
    { s with
      session := { s.session with mode := .inactive, state := .inactive }
      work.seqResult := c
      res := c
      seq := .idleSeq
      csLevel := .deasserted
      trace := .csDeassert :: s.trace } := complete_error c s h

/-- Reading after a payload was stored: each byte in its place, every other address as before. -/
theorem Memory.writeBytes_reads (m : Memory) (base : Nat) (payload : List Byte) (h : Memory.wf m = true) :
    Memory.wf (Memory.writeBytes m base payload) = true ∧
      ∀ x, Memory.read (Memory.writeBytes m base payload) x = readAfter m base payload x :=
  ⟨Memory.writeBytes_wf payload m base h, fun x => Memory.read_writeBytes payload m base x h⟩

theorem blockBase_zero (s : State) : blockBase s 0 = s.operands.buf.toNat := by simp [blockBase]

/-- An admitted `READ_BLOCK` is its `CMD17` and the release of chip-select. -/
theorem exec_readBlock_admitted (addr buf : Word) (s : State) (hs : s.seq = .idleSeq) (hm : s.session.mode = .transfer)
    (hp : s.session.state = .standby) (ht : s.tableReady) (he : s.session.blockSize.toNat % 2 = 0) :
    exec (.readBlock addr buf) s = .next (complete
      (andThen (cmd17Exchange (xlate s.session addr)
          (readOpened { s.operands with op := .readBlock, addr := addr, buf := buf } s))
        fun s => closeTransfer (nextStep 3 s))) := by
  show runOperation _ (blockReady 1 s) readBlockBody s = _
  rw [blockReady_of 1 s hm hp ht (payloadsEven_of 1 s he), runOperation_ready _ _ s hs]
  rfl

/-- An admitted `READ_MULTIPLE_BLOCK` is its `CMD18`, its `CMD12` and the release of chip-select. -/
theorem exec_readMultipleBlock_admitted (addr buf count : Word) (s : State) (hs : s.seq = .idleSeq)
    (hm : s.session.mode = .transfer) (hp : s.session.state = .standby) (ht : s.tableReady)
    (he : payloadsEven count.toNat s = true) :
    exec (.readMultipleBlock addr buf count) s = .next (complete
      (andThen (cmd18Exchange (xlate s.session addr)
          (readOpened { s.operands with op := .readMultipleBlock, addr := addr, buf := buf, count := count } s))
        fun s => andThen (cmd12Exchange argZero (nextStep 3 s)) fun s => closeTransfer (nextStep 4 s))) := by
  show runOperation _ (blockReady count.toNat s) readMultipleBlockBody s = _
  rw [blockReady_of _ s hm hp ht he, runOperation_ready _ _ s hs]
  rfl

end Sys2Proof.Machine

namespace Sys2Proof.Settled

open Sys2Proof.Machine

/-- Settles O22: the count is assembled from the scratch that the packet filled, and only after its CRC16 word was right. -/
theorem writtenBlocksCommandCompletes : Obligations.WrittenBlocksCommandCompletes := by
  intro s arg crc app a p b0 b1 b2 b3 rest ht happ hexp ha hr hb hp h
  show endSequence (acmd22Exchange arg s) = _
  rw [acmd22Exchange_answered arg app a p b0 b1 b2 b3 rest s ht happ hexp ha hr hb hp h]
  rfl

/-- Settles O23: the buffer after the payload was written to it byte by byte. -/
theorem readSingleCommandCompletes : Obligations.ReadSingleCommandCompletes := by
  intro s arg crc a p rest ht hwf he ha hr hp h
  obtain ⟨hwf', hread⟩ := Memory.writeBytes_reads s.mem s.operands.buf.toNat p.payload hwf
  refine ⟨_, hwf', hread, ?_⟩
  show endSequence (cmd17Exchange arg s) = _
  rw [cmd17Exchange_answered arg a p rest s ht he ha hr hp h, blockBase_zero]
  rfl

/-- Settles O24: the payloads are written one after another from the start of the buffer, and a wrong packet is the last. -/
theorem readManyCommandCompletes : Obligations.ReadManyCommandCompletes := by
  intro s arg crc a packets rest ht hwf he ha hr hp
  refine ⟨fun hn h => ?right, fun bad hn hb hg h => ?wrong⟩
  case right =>
    obtain ⟨hwf', hread⟩ := Memory.writeBytes_reads s.mem s.operands.buf.toNat (packets.flatMap PacketAnswer.payload) hwf
    refine ⟨_, hwf', hread, ?_⟩
    show endSequence (cmd18Exchange arg s) = _
    rw [cmd18Exchange_answered arg a packets rest s ht he ha hr hp hn h, blockBase_zero]
    rfl
  case wrong =>
    obtain ⟨hwf', hread⟩ :=
      Memory.writeBytes_reads s.mem s.operands.buf.toNat ((packets ++ [bad]).flatMap PacketAnswer.payload) hwf
    refine ⟨_, hwf', hread, ?_⟩
    show endSequence (cmd18Exchange arg s) = _
    rw [cmd18Exchange_wrongCrc arg a packets bad rest s ht he ha hr hp hn hb hg h, blockBase_zero]
    rfl

/-- Settles O35: after `CMD17` a right packet releases chip-select in `Standby`; a wrong or a cut one goes to the handler. -/
theorem readBlockCompletes : Obligations.ReadBlockCompletes := by
  intro s addr buf a rest hs hm hst ht hwf he ha hr
  refine ⟨fun p hp h => ?whole, fun pads got hl hpads hg h => ?cut⟩
  case whole =>
    obtain ⟨hwf', hread⟩ := Memory.writeBytes_reads s.mem buf.toNat p.payload hwf
    refine ⟨_, hwf', hread, ?_⟩
    rw [exec_readBlock_admitted addr buf s hs hm hst ht he,
      cmd17Exchange_answered _ a p rest _ (by exact ht) (by exact he) ha hr (by exact hp) (by exact h), blockBase_zero]
    by_cases hgood : p.good = true
    · simp only [PacketAnswer.code, hgood, if_true, andThen_ok, complete_closeTransfer]
      simp [nextStep, readOpened_eq, hs, hm, r1Normal]
    · have hcode : p.code = .dataCrc := if_neg hgood
      rw [hcode, andThen_error _ _ _ (by decide), complete_error_eq _ _ (by decide)]
      simp [readOpened_eq, hgood, hs, r1Normal]
  case cut =>
    obtain ⟨hwf', hread⟩ := Memory.writeBytes_reads s.mem buf.toNat got hwf
    obtain ⟨w, hcmd⟩ := cmd17Exchange_ioFail (xlate s.session addr) a pads got rest
      (readOpened { s.operands with op := .readBlock, addr := addr, buf := buf } s) ht he ha hr hl hpads hg h
    refine ⟨_, { w with seqResult := .transportIo }, hwf', hread, ?_⟩
    rw [exec_readBlock_admitted addr buf s hs hm hst ht he, hcmd, blockBase_zero, andThen_error _ _ _ (by decide),
      complete_error_eq _ _ (by decide)]
    simp [readOpened_eq, hs, r1Normal, tokenStartByte, fill]

/-- Settles O36: after `CMD18` right packets are followed by `CMD12`, its drain and the release of chip-select in `Standby`;
a wrong one goes to the handler. -/
theorem readMultipleBlockCompletes : Obligations.ReadMultipleBlockCompletes := by
  intro s addr buf count a packets rest hs hm hst ht hwf he ha hr hp
  refine ⟨fun stop busy later hn hstop hrstop hbusy h htm => ?right, fun bad hn hb hg h => ?wrong⟩
  case right =>
    obtain ⟨hwf', hread⟩ := Memory.writeBytes_reads s.mem buf.toNat (packets.flatMap PacketAnswer.payload) hwf
    refine ⟨_, hwf', hread, ?_⟩
    obtain ⟨n, hwork⟩ := Work.afterBlocks_command packets 0 (a.pads.length + 1) (frameOf 18 (xlate s.session addr))
      (readOpened { s.operands with op := .readMultipleBlock, addr := addr, buf := buf, count := count } s).work
    rw [exec_readMultipleBlock_admitted addr buf count s hs hm hst ht he,
      cmd18Exchange_answered _ a packets (answers (stop.bytes ++ busy ++ [0xFF#8]) ++ rest) _ (by exact ht) (by exact he) ha hr
        (by exact hp) (by exact hn) (by rw [readOpened_eq, h]; simp), blockBase_zero, hwork, andThen_ok,
      cmd12Exchange_drained stop busy argZero rest later _ (by exact ht) rfl hstop hrstop hbusy rfl (by exact htm), andThen_ok,
      complete_closeTransfer]
    simp [nextStep, readOpened_eq, hs, hst, r1Normal, argZero]
  case wrong =>
    obtain ⟨hwf', hread⟩ :=
      Memory.writeBytes_reads s.mem buf.toNat ((packets ++ [bad]).flatMap PacketAnswer.payload) hwf
    refine ⟨_, hwf', hread, ?_⟩
    rw [exec_readMultipleBlock_admitted addr buf count s hs hm hst ht he,
      cmd18Exchange_wrongCrc _ a packets bad rest _ (by exact ht) (by exact he) ha hr (by exact hp) (by exact hn)
        (by exact hb) hg (by exact h), blockBase_zero, andThen_error _ _ _ (by decide), complete_error_eq _ _ (by decide)]
    simp [readOpened_eq, hs, r1Normal]

end Sys2Proof.Settled
end

section
/-! PROOF. What a command that moves blocks leaves unchanged (42_command_response.md R182 to R185). -/

namespace Sys2Proof.Machine

/-- `t` is `s` but for the receiver's registers and the first `n` bytes of the buffer, both memories in canonical form. -/
def State.sameButBuffer (s : State) (n : Nat) (t : State) : Prop :=
  { s.receiverRestored t with mem := s.mem } = s ∧ Memory.wf t.mem = true ∧
    ∀ x, ¬(s.operands.buf.toNat ≤ x ∧ x < s.operands.buf.toNat + n) → Memory.read t.mem x = Memory.read s.mem x

/-- `t` is `s` but for the block index and what `sameButBuffer` names. -/
def State.sameButBlocks (s : State) (n : Nat) (t : State) : Prop := s.sameButBuffer n { t with work.i := s.work.i }

/-- `t` is `s` but for the sender's registers and what a wait bounded by time writes. -/
def State.sameButSent (s t : State) : Prop :=
  s.sameButWait { t with work := { t.work with crcTx := s.work.crcTx, k := s.work.k } }

/-- `t` is `s` but for the block index and what `sameButSent` names. -/
def State.sameButSentBlocks (s t : State) : Prop := s.sameButSent { t with work.i := s.work.i }

theorem State.sameButBuffer.refl {s : State} (h : Memory.wf s.mem = true) (n : Nat) : s.sameButBuffer n s :=
  ⟨rfl, h, fun _ _ => rfl⟩

/-- A byte stored into the first `n` bytes of the buffer. -/
theorem State.sameButBuffer.write {s t : State} {n a : Nat} (h : s.sameButBuffer n t) (v : Byte)
    (hlo : s.operands.buf.toNat ≤ a) (hhi : a < s.operands.buf.toNat + n) :
    s.sameButBuffer n { t with mem := Memory.write t.mem a v } := by
  obtain ⟨hsame, hwf, hread⟩ := h
  refine ⟨hsame, Memory.write_wf _ _ _ hwf, fun x hx => ?_⟩
  have hne : a ≠ x := fun hax => hx (hax ▸ ⟨hlo, hhi⟩)
  rw [Memory.read_write _ _ _ _ hwf, if_neg hne, hread x hx]

theorem State.sameButBuffer.operands {s t : State} {n : Nat} (h : s.sameButBuffer n t) : t.operands = s.operands := by
  obtain ⟨hsame, -, -⟩ := h
  have hops := congrArg State.operands hsame
  exact hops

theorem State.sameButBuffer.blockSize {s t : State} {n : Nat} (h : s.sameButBuffer n t) :
    t.session.blockSize = s.session.blockSize := by
  obtain ⟨hsame, -, -⟩ := h
  have hsize := congrArg (fun u : State => u.session.blockSize) hsame
  exact hsize

/-- A property of states whose buffer is that of `s`, which storing into the first `n` bytes of it keeps. -/
def StoresInto (s : State) (n : Nat) (P : State → Prop) : Prop :=
  ∀ t, P t → t.operands = s.operands ∧ t.session.blockSize = s.session.blockSize ∧
    ∀ a v, s.operands.buf.toNat ≤ a → a < s.operands.buf.toNat + n → P { t with mem := Memory.write t.mem a v }

/-- Storing into block `i` keeps such a property when the block lies in those `n` bytes. -/
theorem StoresInto.stableAt {s t : State} {n i : Nat} {P : State → Prop} (hP : StoresInto s n P) (ht : P t)
    (hi : (i + 1) * blockLength s ≤ n) : StableAt P (.hostBuffer (blockBase t i)) (blockLength t) := by
  obtain ⟨hops, hsize, -⟩ := hP t ht
  have hlen : blockLength t = blockLength s := by rw [blockLength, blockLength, hsize]
  have hbase : blockBase t i = s.operands.buf.toNat + i * blockLength s := by rw [blockBase, hops, hsize, blockLength]
  have hend : (i + 1) * blockLength s = i * blockLength s + blockLength s := Nat.succ_mul _ _
  intro u k v hk hu
  obtain ⟨-, -, hstore⟩ := hP u hu
  exact hstore _ v (by omega) (by omega)

theorem storesInto_sameButBuffer (s : State) (n : Nat) : StoresInto s n fun t => s.sameButBuffer n (s.restored t) :=
  fun _ h => ⟨h.operands, h.blockSize, fun _ v => h.write v⟩

theorem storesInto_sameButBlocks (s : State) (n : Nat) : StoresInto s n fun t => s.sameButBlocks n (s.restored t) := by
  intro t h
  have hbuffer : s.sameButBuffer n { s.restored t with work.i := s.work.i } := h
  exact ⟨hbuffer.operands, hbuffer.blockSize, fun _ v => hbuffer.write v⟩

/-- `CMD17` stores into the first block. -/
theorem exec_cmd17_sameButBuffer {s t : State} {arg : Word} {crc : BitVec 7} (hwf : Memory.wf s.mem = true)
    (h : exec (.cmd17 arg crc) s = .next t) : s.sameButBuffer (blockLength s) (s.restored t) :=
  endSequence_restored (s.sameButBuffer (blockLength s)) h <|
    (commands_restored s _).cmd17Exchange (fun _ _ _ _ h => h)
      (fun _ hu => (storesInto_sameButBuffer s _).stableAt hu (by omega)) arg s (.refl hwf _)

/-- `CMD18` stores into the first `COUNT` blocks. -/
theorem exec_cmd18_sameButBlocks {s t : State} {arg : Word} {crc : BitVec 7} (hwf : Memory.wf s.mem = true)
    (h : exec (.cmd18 arg crc) s = .next t) :
    s.sameButBlocks (s.operands.count.toNat * blockLength s) (s.restored t) := by
  have hP := storesInto_sameButBlocks s (s.operands.count.toNat * blockLength s)
  have hcount : ∀ u, s.sameButBlocks (s.operands.count.toNat * blockLength s) (s.restored u) →
      u.operands.count = s.operands.count := fun u hu => by
    obtain ⟨hops, -⟩ := hP u hu
    rw [hops]
  refine endSequence_restored (s.sameButBlocks _) h <|
    (commands_restored s _).cmd18Exchange (fun _ _ _ _ h => h) (fun _ _ h => h)
      (fun u i hi hu => hP.stableAt hu (Nat.mul_le_mul_right _ ?_)) s.operands.count hcount arg s
      (State.sameButBuffer.refl hwf _)
  rw [← hcount u hu]
  exact hi

end Sys2Proof.Machine

namespace Sys2Proof.Settled

open Sys2Proof.Machine

/-- Settles O51: the reads store into blocks that lie in the lent part of the buffer, and the writes store nothing. -/
theorem blockCommandFrame : Obligations.BlockCommandFrame := by
  refine ⟨fun s t arg crc hwf => ⟨fun h => ?cmd17, fun h => ?cmd18⟩, fun s t arg crc => ⟨fun h => ?cmd24, fun h => ?cmd25⟩⟩
  case cmd17 =>
    obtain ⟨hsame, -, hread⟩ := exec_cmd17_sameButBuffer hwf h
    exact ⟨hsame, hread⟩
  case cmd18 =>
    obtain ⟨hsame, -, hread⟩ := exec_cmd18_sameButBlocks hwf h
    exact ⟨hsame, hread⟩
  case cmd24 =>
    exact endSequence_restored s.sameButSent h
      ((commands_restored s s.sameButSent).cmd24Exchange ⟨fun _ _ h => h, fun _ h => h⟩ (fun _ _ _ h => h) arg s rfl)
  case cmd25 =>
    exact endSequence_restored s.sameButSentBlocks h
      ((commands_restored s s.sameButSentBlocks).cmd25Exchange ⟨fun _ _ h => h, fun _ h => h⟩ (fun _ _ _ h => h)
        (fun _ _ h => h) arg s rfl)

end Sys2Proof.Settled
end

section
/-! PROOF. The decoder and the encoder (30_encoding.md R91, R99, R101, R118): each format is read back from its bytes, and what
is read as a format is its bytes. -/

namespace Sys2Proof

/-! ### Words and bytes -/

/-- The upper and the lower bits of a value, put together again, are the value. -/
theorem append_extract_setWidth {n k : Nat} (x : BitVec (n + k)) : x.extractLsb' k n ++ x.setWidth k = x := by
  rw [BitVec.setWidth_eq_extractLsb' (Nat.le_add_left k n), BitVec.extractLsb'_append_extractLsb']

theorem eq_ofNat_of_toNat {n k : Nat} {x : BitVec n} (h : x.toNat = k) : x = BitVec.ofNat n k := by
  rw [← h, BitVec.ofNat_toNat, BitVec.setWidth_eq]

/-- The bytes of a word, put together again, are the word. -/
theorem append_wordBytes (w : Word) :
    (w.extractLsb' 24 8 ++ w.extractLsb' 16 8 ++ w.extractLsb' 8 8 ++ w.extractLsb' 0 8 : Word) = w := by
  rw [BitVec.extractLsb'_append_extractLsb'_eq_extractLsb' (start₁ := 16) (start₂ := 24) rfl,
    BitVec.extractLsb'_append_extractLsb'_eq_extractLsb' (start₁ := 8) (start₂ := 16) rfl,
    BitVec.extractLsb'_append_extractLsb'_eq_extractLsb' (start₁ := 0) (start₂ := 8) rfl]
  exact BitVec.extractLsb'_eq_self

/-- Four bytes are the bytes of the word they make. -/
theorem wordBytes_append (a b c d : Byte) : wordBytes (a ++ b ++ c ++ d) = [a, b, c, d] := by
  have hd : (a ++ b ++ c ++ d : Word).extractLsb' 0 8 = d := BitVec.extractLsb'_append_eq_right
  have hc : (a ++ b ++ c ++ d : Word).extractLsb' 8 8 = c :=
    (BitVec.extractLsb'_append_eq_of_le (by decide)).trans BitVec.extractLsb'_append_eq_right
  have hb : (a ++ b ++ c ++ d : Word).extractLsb' 16 8 = b :=
    (BitVec.extractLsb'_append_eq_of_le (by decide)).trans <|
      (BitVec.extractLsb'_append_eq_of_le (by decide)).trans BitVec.extractLsb'_append_eq_right
  have ha : (a ++ b ++ c ++ d : Word).extractLsb' 24 8 = a :=
    (BitVec.extractLsb'_append_eq_of_le (by decide)).trans <|
      (BitVec.extractLsb'_append_eq_of_le (by decide)).trans BitVec.extractLsb'_append_eq_left
  rw [wordBytes, ha, hb, hc, hd]

/-- A word is read exactly from its four bytes. -/
theorem takeWord_eq_some_iff {l : List Byte} {w : Word} {rest : List Byte} :
    takeWord l = some (w, rest) ↔ l = wordBytes w ++ rest := by
  constructor
  · intro h
    unfold takeWord at h
    split at h
    · cases h
      rw [wordBytes_append]
      rfl
    · cases h
  · rintro rfl
    exact congrArg (fun v => some (v, rest)) (append_wordBytes w)

/-! ### Host operations -/

theorem decodeTwo_eq_instr_iff {f : Word → Word → Instr} {l : List Byte} {i : Instr} {more : List Byte} :
    decodeTwo f l = .instr i more ↔ ∃ a b, i = f a b ∧ l = wordBytes a ++ (wordBytes b ++ more) := by
  constructor
  · intro h
    unfold decodeTwo at h
    split at h
    · cases h
    split at h
    · cases h
    rename_i a _ ha _ b _ hb
    cases h
    exact ⟨a, b, rfl, by rw [takeWord_eq_some_iff.1 ha, takeWord_eq_some_iff.1 hb]⟩
  · rintro ⟨a, b, rfl, rfl⟩
    simp only [decodeTwo, takeWord_eq_some_iff.2 rfl]

theorem decodeThree_eq_instr_iff {f : Word → Word → Word → Instr} {l : List Byte} {i : Instr} {more : List Byte} :
    decodeThree f l = .instr i more ↔
      ∃ a b c, i = f a b c ∧ l = wordBytes a ++ (wordBytes b ++ (wordBytes c ++ more)) := by
  constructor
  · intro h
    unfold decodeThree at h
    split at h
    · cases h
    split at h
    · cases h
    split at h
    · cases h
    rename_i a _ ha _ b _ hb _ c _ hc
    cases h
    exact ⟨a, b, c, rfl, by rw [takeWord_eq_some_iff.1 ha, takeWord_eq_some_iff.1 hb, takeWord_eq_some_iff.1 hc]⟩
  · rintro ⟨a, b, c, rfl, rfl⟩
    simp only [decodeThree, takeWord_eq_some_iff.2 rfl]

/-! ### Items -/

/-- The item is the encoding of the instruction and the bytes after it. -/
def Encodes (r : Request) (i : Instr) (more : List Byte) : Prop := r = ⟨(encode i).lane, (encode i).bytes ++ more⟩

theorem decodeHost_encodes {l : List Byte} {i : Instr} {more : List Byte} (h : decodeHost l = .instr i more) :
    Encodes ⟨.hostToEngine, l⟩ i more := by
  cases l with
  | nil => cases h
  | cons code rest =>
    simp only [decodeHost] at h
    split at h
    case h_9 => cases h
    all_goals
      rename_i hcode
      obtain rfl := eq_ofNat_of_toNat hcode
    case h_1 | h_7 | h_8 => cases h; rfl
    case h_2 | h_5 | h_6 => obtain ⟨a, b, c, rfl, rfl⟩ := decodeThree_eq_instr_iff.1 h; rfl
    case h_3 | h_4 => obtain ⟨a, b, rfl, rfl⟩ := decodeTwo_eq_instr_iff.1 h; rfl

/-! ### Frames -/

/-- The index of a command determines the frame. -/
theorem encode_of_commandOfIndex {index : BitVec 6} {arg : Word} {crc : BitVec 7} {i : Instr}
    (h : commandOfIndex index arg crc = some i) : encode i = encodeFrame index arg crc := by
  unfold commandOfIndex at h
  split at h
  case h_16 => cases h
  all_goals
    rename_i hindex
    cases h
    exact congrArg (encodeFrame · arg crc) (eq_ofNat_of_toNat hindex).symm

theorem decodeFrame_eq_instr_iff {l : List Byte} {i : Instr} {more : List Byte} :
    decodeFrame l = .instr i more ↔ ∃ b0 b1 b2 b3 b4 b5, l = b0 :: b1 :: b2 :: b3 :: b4 :: b5 :: more ∧
      b5.getLsbD 0 = true ∧ commandOfIndex (b0.setWidth 6) (b1 ++ b2 ++ b3 ++ b4) (b5.extractLsb' 1 7) = some i := by
  constructor
  · intro h
    unfold decodeFrame at h
    split at h
    · split_ifs at h with hstop
      split at h
      · rename_i hi
        cases h
        exact ⟨_, _, _, _, _, _, rfl, hstop, hi⟩
      · cases h
    · cases h
  · rintro ⟨b0, b1, b2, b3, b4, b5, rfl, hstop, hi⟩
    simp only [decodeFrame, hstop, if_true, hi]

theorem decode_encodeFrame {index : BitVec 6} {arg : Word} {crc : BitVec 7} {i : Instr}
    (h : commandOfIndex index arg crc = some i) (more : List Byte) :
    decode ⟨.engineToCard, (encodeFrame index arg crc).bytes ++ more⟩ = .instr i more := by
  have htop : (0b01#2 ++ index : Byte).extractLsb' 6 2 = 0b01#2 := BitVec.extractLsb'_append_eq_left
  have hindex : (0b01#2 ++ index : Byte).setWidth 6 = index := BitVec.setWidth_append_eq_right
  have hcrc : (crc ++ 1#1 : Byte).extractLsb' 1 7 = crc := BitVec.extractLsb'_append_eq_left
  have hstop : (crc ++ 1#1 : Byte).getLsbD 0 = true := by rw [BitVec.getLsbD_append]; rfl
  exact (if_pos htop).trans <| decodeFrame_eq_instr_iff.2
    ⟨_, _, _, _, _, _, rfl, hstop, by rw [hindex, append_wordBytes, hcrc, h]⟩

/-- What starts with the bits `01` and is read as a frame is that frame: every other bit of it is read (R91). -/
theorem decodeFrame_encodes {b : Byte} {rest : List Byte} {i : Instr} {more : List Byte} (htop : b.extractLsb' 6 2 = 0b01#2)
    (h : decodeFrame (b :: rest) = .instr i more) : Encodes ⟨.engineToCard, b :: rest⟩ i more := by
  obtain ⟨b0, b1, b2, b3, b4, b5, hl, hstop, hi⟩ := decodeFrame_eq_instr_iff.1 h
  cases hl
  have hb : (0b01#2 ++ b.setWidth 6 : Byte) = b := htop ▸ append_extract_setWidth (n := 2) (k := 6) b
  have hone : b5.setWidth 1 = 1#1 := by
    rw [BitVec.setWidth_one, hstop]
    rfl
  have hcheck : (b5.extractLsb' 1 7 ++ 1#1 : Byte) = b5 := hone ▸ append_extract_setWidth (n := 7) (k := 1) b5
  rw [Encodes, encode_of_commandOfIndex hi]
  simp only [encodeFrame, hb, hcheck, wordBytes_append]
  rfl

/-! ### Tokens and data responses -/

theorem decodeToCard_encodes {l : List Byte} {i : Instr} {more : List Byte} (h : decodeToCard l = .instr i more) :
    Encodes ⟨.engineToCard, l⟩ i more := by
  cases l with
  | nil => cases h
  | cons b rest =>
    simp only [decodeToCard] at h
    split_ifs at h with htop hstart hmulti hstop
    · exact decodeFrame_encodes htop h
    · cases h
      exact hstart ▸ rfl
    · cases h
      exact hmulti ▸ rfl
    · cases h
      exact hstop ▸ rfl

/-- A byte with the code of a data response is that response, its upper three bits the ignored ones (R101). -/
theorem eq_encodeResponse_of_code {b : Byte} {code : BitVec 5} (h : Machine.dataResponseCode b = code) (rest : List Byte) :
    (⟨.cardToEngine, b :: rest⟩ : Request) =
      ⟨.cardToEngine, (encodeResponse (b.extractLsb' 5 3) code).bytes ++ rest⟩ := by
  have hb : (b.extractLsb' 5 3 ++ code : Byte) = b := h ▸ append_extract_setWidth (n := 3) (k := 5) b
  rw [encodeResponse, hb, List.singleton_append]

theorem decodeFromCard_encodes {l : List Byte} {i : Instr} {more : List Byte} (h : decodeFromCard l = .instr i more) :
    Encodes ⟨.cardToEngine, l⟩ i more := by
  cases l with
  | nil => cases h
  | cons b rest =>
    simp only [decodeFromCard] at h
    split_ifs at h with hstart haccepted hcrc hwrite
    · cases h
      exact hstart ▸ rfl
    · cases h
      exact eq_encodeResponse_of_code haccepted more
    · cases h
      exact eq_encodeResponse_of_code hcrc more
    · cases h
      exact eq_encodeResponse_of_code hwrite more

/-- A data response is told by its code, which is not that of the start token. -/
theorem decodeFromCard_response (ignored : BitVec 3) (code : BitVec 5) (hcode : code ≠ 0b11110#5) (more : List Byte) :
    decodeFromCard ((encodeResponse ignored code).bytes ++ more) =
      if code = Machine.drAcceptedCode then .instr (.drAccepted ignored) more
      else if code = Machine.drCrcErrorCode then .instr (.drCrcError ignored) more
      else if code = Machine.drWriteErrorCode then .instr (.drWriteError ignored) more
      else .reject .noTokenNoResponse := by
  have hlow : Machine.dataResponseCode (ignored ++ code) = code := BitVec.setWidth_append_eq_right
  have hhigh : (ignored ++ code : Byte).extractLsb' 5 3 = ignored := BitVec.extractLsb'_append_eq_left
  have hstart : (ignored ++ code : Byte) ≠ 0xFE#8 := fun h => hcode (by rw [← hlow, h]; rfl)
  simp only [encodeResponse, List.singleton_append, decodeFromCard, hstart, if_false, hlow, hhigh]

end Sys2Proof

namespace Sys2Proof.Settled

open Sys2Proof

/-- Settles O3: an instruction's format is that of its constructor, and each format is read back. -/
theorem decodeReadsBackEncode : Obligations.DecodeReadsBackEncode := by
  intro i more
  cases i with
  | cmd0 | cmd8 | cmd9 | cmd10 | cmd12 | cmd13 | cmd16 | cmd17 | cmd18 | cmd24 | cmd25 | cmd55 | cmd58 | acmd22 | acmd41 =>
    exact decode_encodeFrame rfl more
  | tokenStart dir => cases dir <;> rfl
  | tokenMultiWrite | tokenStopTran => rfl
  | drAccepted ignored | drCrcError ignored | drWriteError ignored =>
    exact decodeFromCard_response ignored _ (by decide) more
  | crc7Build | readStatus | getWrittenBlockCount => rfl
  | readBlock addr buf | writeBlock addr buf => exact decodeTwo_eq_instr_iff.2 ⟨addr, buf, rfl, rfl⟩
  | initializeOp a b c | readMultipleBlock a b c | writeMultipleBlock a b c =>
    exact decodeThree_eq_instr_iff.2 ⟨a, b, c, rfl, rfl⟩

/-- Settles O4: on each lane, what decodes is the encoding. -/
theorem onlyEncodingsDecode : Obligations.OnlyEncodingsDecode := by
  rintro ⟨lane, l⟩ i more h
  cases lane with
  | hostToEngine => exact decodeHost_encodes h
  | engineToCard => exact decodeToCard_encodes h
  | cardToEngine => exact decodeFromCard_encodes h

/-- Settles O2: each word is the encoding of its instruction, which is read back. -/
theorem specWordsDecode : Obligations.SpecWordsDecode :=
  ⟨decodeReadsBackEncode (.cmd0 0#32 0x4A#7) [], decodeReadsBackEncode (.cmd8 0x1AA#32 0x43#7) [],
    decodeReadsBackEncode (.cmd17 0x200#32 0x3C#7) [], decodeReadsBackEncode (.cmd24 0x1400#32 0x22#7) [],
    decodeReadsBackEncode (.acmd41 0x40000000#32 0x3B#7) [], decodeReadsBackEncode .tokenStopTran [],
    decodeReadsBackEncode (.drAccepted 0b111#3) [], decodeReadsBackEncode .getWrittenBlockCount []⟩

end Sys2Proof.Settled
end

section
/-! PROOF. What a step does with the item at the head of the queue (30_encoding.md R119, log 9). -/

namespace Sys2Proof.Machine

theorem step_idle {s : State} (h : s.pending = []) : step s = .next s := by
  simp only [step, h]

theorem step_instr {s : State} {r : Request} {queue : List Request} {i : Instr} {more : List Byte}
    (hq : s.pending = r :: queue) (h : decode r = .instr i more) : step s = exec i (takeItem queue s) := by
  simp only [step, hq, h]

theorem step_reject {s : State} {r : Request} {queue : List Request} {e : DecodeError} (hq : s.pending = r :: queue)
    (h : decode r = .reject e) : step s = rejectItem e (takeItem queue s) := by
  simp only [step, hq, h]

theorem rejectItem_named {e : DecodeError} (he : e ≠ .unknownOperation) (s : State) :
    rejectItem e s = .refused (.noEncoding e) := by
  cases e with
  | unknownOperation => exact absurd rfl he
  | truncated | unknownCommand | stopBitClear | noFrameNoToken | noTokenNoResponse => rfl

end Sys2Proof.Machine

namespace Sys2Proof.Settled

open Sys2Proof Sys2Proof.Machine

/-- Settles O1: one case per answer of the decoder. -/
theorem stepRunsTheDecodedItem : Obligations.StepRunsTheDecodedItem :=
  ⟨fun _ h => step_idle h, fun _ _ _ hq =>
    ⟨fun _ _ hd => step_instr hq hd, fun hd => step_reject hq hd,
      fun _ he hd => (step_reject hq hd).trans (rejectItem_named he _)⟩⟩

end Sys2Proof.Settled
end

section
/-! PROOF. The commands with plain reads or the drain after their R1 (42_command_response.md R176, R179, R180, R187), and the
data responses (43_token_data.md R221 to R223). Each lemma gives the whole state. -/

namespace Sys2Proof.Machine

/-! ### `CMD8` and `CMD58` -/

/-- A command with four bytes after its R1 stores them in order (30_encoding.md R98). -/
theorem sendCommand_recvFour (cmd : BitVec 6) (arg : Word) (exp : Byte) (dst : Dest) (a : CommandAnswer) (b0 b1 b2 b3 : Byte)
    (rest : List WireAnswer) (s : State) (ht : s.tableReady) (ha : a.ok = true) (hr : a.r1 = exp)
    (h : s.wire = answers (a.bytes ++ [b0, b1, b2, b3]) ++ rest) :
    andThen (sendCommand cmd arg exp s) (recvPlain dst 4 0) = (.ok, storeBytes dst 0 [b0, b1, b2, b3] { s with
      session.lastR1 := exp
      work := { s.work with fr := frameOf cmd arg, tries := a.pads.length + 1 }
      wire := rest
      trace := (a.events cmd arg ++ received [b0, b1, b2, b3]).reverse ++ s.trace }) := by
  rw [sendCommand_expected crc7Fold_eq_bitwise cmd arg exp a _ rest s ht ha hr h, andThen_ok,
    recvFour_answered dst b0 b1 b2 b3 rest _ rfl]
  simp only [sentCommand, hr, List.reverse_append, List.append_assoc]

/-! ### `CMD13` -/

theorem readR2_answered (r2 : Byte) (rest : List WireAnswer) (s : State) (h : s.wire = .byte r2 :: rest) :
    readR2 s = (if s.params.r2NonzeroIsError = true ∧ r2 ≠ 0x00#8 then .unexpectedR1 else .ok, { s with
      session.lastR2 := r2
      wire := rest
      trace := .exchange fill r2 :: s.trace }) := by
  simp [readR2, recv8_byte r2 rest s h]

/-- The second status byte is stored, an error or not (R180, 45_transfer.md R288). -/
theorem cmd13Exchange_answered (arg : Word) (a : CommandAnswer) (r2 : Byte) (rest : List WireAnswer) (s : State)
    (ht : s.tableReady) (ha : a.ok = true) (hr : a.r1 = r1Normal) (h : s.wire = answers (a.bytes ++ [r2]) ++ rest) :
    cmd13Exchange arg s = (if s.params.r2NonzeroIsError = true ∧ r2 ≠ 0x00#8 then .unexpectedR1 else .ok, { s with
      session.lastR1 := r1Normal
      session.lastR2 := r2
      work := { s.work with fr := frameOf 13 arg, tries := a.pads.length + 1 }
      wire := rest
      trace := (a.events 13 arg ++ received [r2]).reverse ++ s.trace }) := by
  rw [cmd13Exchange, sendCommand_expected crc7Fold_eq_bitwise 13 arg r1Normal a [r2] rest s ht ha hr h, andThen_ok,
    readR2_answered r2 rest _ rfl]
  simp [sentCommand, hr]

/-! ### `CMD12` -/

theorem timedPoll_expired (accept : Byte → Option Code) (pads : List Byte) (b : Byte) (rest : List WireAnswer)
    (later : List Bool) (s : State) (hp : ∀ x ∈ pads, accept x = none) (hb : accept b = none)
    (h : s.wire = answers (pads ++ [b]) ++ rest) (ht : s.timer = notElapsed pads.length ++ true :: later) :
    timedPoll accept s = (.waitTimeout, { s with
      work.t0 := Config.now s.nowCount
      nowCount := s.nowCount + 1
      wire := rest
      timer := later
      trace := (received (pads ++ [b])).reverse ++ s.trace }) :=
  timedLoop_expired accept _ pads b rest later (startWait s) hp hb (timedRounds_enough _ _ _ ht) h ht

theorem acceptReady_none {b : Byte} (h : b ≠ 0xFF#8) : acceptReady b = none := if_neg h

/-- The parameter says whether a drain whose budget expires is an error (45_transfer.md R284). -/
theorem drain_expired (busy : List Byte) (b : Byte) (rest : List WireAnswer) (later : List Bool) (s : State)
    (hbusy : busy.all (fun b => b != 0xFF#8) = true) (hb : b ≠ 0xFF#8) (h : s.wire = answers (busy ++ [b]) ++ rest)
    (ht : s.timer = notElapsed busy.length ++ true :: later) :
    drain s = (if s.params.drainTimeoutIsError then .waitTimeout else .ok, { s with
      work.t0 := Config.now s.nowCount
      nowCount := s.nowCount + 1
      wire := rest
      timer := later
      trace := (received (busy ++ [b])).reverse ++ s.trace }) := by
  rw [drain, timedPoll_expired acceptReady busy b rest later s (acceptReady_busy busy hbusy) (acceptReady_none hb) h ht]

/-- After a multi-block read the stop is drained until the budget expires (R179, 45_transfer.md R284). -/
theorem cmd12Exchange_expired (stop : CommandAnswer) (busy : List Byte) (b : Byte) (arg : Word) (rest : List WireAnswer)
    (later : List Bool) (s : State) (ht : s.tableReady) (hop : s.operands.op = .readMultipleBlock) (hs : stop.ok = true)
    (hr : stop.r1 = r1Normal) (hbusy : busy.all (fun b => b != 0xFF#8) = true) (hb : b ≠ 0xFF#8)
    (h : s.wire = answers (stop.bytes ++ busy ++ [b]) ++ rest) (htm : s.timer = notElapsed busy.length ++ true :: later) :
    cmd12Exchange arg s = (if s.params.drainTimeoutIsError then .waitTimeout else .ok, { s with
      session.lastR1 := r1Normal
      work := { s.work with fr := frameOf 12 arg, tries := stop.pads.length + 1, t0 := Config.now s.nowCount }
      nowCount := s.nowCount + 1
      wire := rest
      timer := later
      trace := (stop.events 12 arg ++ received (busy ++ [b])).reverse ++ s.trace }) := by
  rw [cmd12Exchange, sendCommand_expected crc7Fold_eq_bitwise 12 arg r1Normal stop (busy ++ [b]) rest s ht hs hr
    (by rw [h, List.append_assoc]), andThen_ok, if_pos (by exact hop),
    drain_expired busy b rest later _ hbusy hb rfl (by exact htm)]
  simp [sentCommand, hr]

/-! ### Data responses -/

/-- A data response that is a rejection ends the poll at once, with no busy wait (43_token_data.md R214, R215). -/
theorem dataResponse_rejected (rx : Byte) (c : Code) (s : State) (hrx : acceptDataResponse rx = some c) (hc : c ≠ .ok) :
    dataResponse (presentByte rx s) = (c, { s with
      work.t0 := Config.now s.nowCount
      nowCount := s.nowCount + 1
      trace := .exchange fill rx :: s.trace }) := by
  rw [dataResponse, timedPoll_answered acceptDataResponse [] rx c s.wire s.timer (presentByte rx s) (by simp) hrx rfl rfl,
    andThen_error _ _ _ hc]
  rfl

end Sys2Proof.Machine

namespace Sys2Proof.Settled

open Sys2Proof Sys2Proof.Machine

/-- Settles O18: the drain that follows the R1 reaches `0xFF`, or its budget expires first. -/
theorem stopTransmissionDrains : Obligations.StopTransmissionDrains := by
  intro s arg crc a busy rest later ht hop ha hr hbusy
  refine ⟨fun h htm => ?drained, fun b hb h htm => ?expired⟩
  case drained =>
    show endSequence (cmd12Exchange arg s) = _
    rw [cmd12Exchange_drained a busy arg rest later s ht hop ha hr hbusy h htm]
    rfl
  case expired =>
    show endSequence (cmd12Exchange arg s) = _
    rw [cmd12Exchange_expired a busy b arg rest later s ht hop ha hr hbusy hb h htm]
    rfl

/-- Settles O19: four bytes overwrite `R7` or the OCR whole, and one byte is `S.lastR2`. -/
theorem trailerCommandsComplete : Obligations.TrailerCommandsComplete := by
  refine ⟨fun s arg crc a b0 b1 b2 b3 rest ht ha h => ⟨fun hr => ?cmd8, fun hr => ?cmd58⟩,
    fun s arg crc a r2 rest ht ha hr h => ?cmd13⟩
  case cmd8 =>
    show endSequence (andThen (sendCommand 8 arg r1Idle s) (recvPlain .r7 4 0)) = _
    rw [sendCommand_recvFour 8 arg r1Idle .r7 a b0 b1 b2 b3 rest s ht ha hr h, storeBytes_r7, setBytes_four]
    rfl
  case cmd58 =>
    show endSequence (andThen (sendCommand 58 arg r1Normal s) (recvPlain .ocr 4 0)) = _
    rw [sendCommand_recvFour 58 arg r1Normal .ocr a b0 b1 b2 b3 rest s ht ha hr h, storeBytes_ocr, setBytes_four]
    rfl
  case cmd13 =>
    show endSequence (cmd13Exchange arg s) = _
    rw [cmd13Exchange_answered arg a r2 rest s ht ha hr h]
    rfl

/-- Settles O28: the presented byte ends the data-response poll, and only acceptance goes on to the busy wait. -/
theorem dataResponsesComplete : Obligations.DataResponsesComplete := by
  intro s ignored
  refine ⟨fun busy rest later hbusy h htm => ?accepted, ?crcError, ?writeError⟩
  case accepted =>
    show endSequence (dataResponse (presentByte (responseByte ignored drAcceptedCode) s)) = _
    rw [dataResponse_answered [] ignored busy rest later _ rfl hbusy (by rw [presentByte_wire, h]; rfl)
      (by simpa using htm)]
    rfl
  case crcError =>
    show endSequence (dataResponse (presentByte (responseByte ignored drCrcErrorCode) s)) = _
    rw [dataResponse_rejected _ .dataCrc s (acceptDataResponse_crcError ignored) (by decide)]
    rfl
  case writeError =>
    show endSequence (dataResponse (presentByte (responseByte ignored drWriteErrorCode) s)) = _
    rw [dataResponse_rejected _ .writeProgram s (acceptDataResponse_writeError ignored) (by decide)]
    rfl

end Sys2Proof.Settled
end

section
/-! PROOF. The CRC7 table and the operation that writes it (40_crc7.md): an entry is the bit-by-bit CRC7 of its index with the
top bit clear, and `CRC7_BUILD` ends in the state that its writes give. -/

namespace Sys2Proof.Machine

/-- A reduction clears the top bit: the polynomial's x^7 term cancels it (R131). -/
theorem crc7Reduce_msb (t : Byte) : (crc7Reduce t).msb = false := by
  unfold crc7Reduce
  split
  next h => rw [BitVec.msb_xor, h]; rfl
  next h => simpa using h

/-- The last shift iteration ends in a reduction. -/
theorem crc7Entry_msb (i : Byte) : (crc7Entry i).msb = false := by
  rw [crc7Entry, repeatTimes_add crc7Shift 6 1]
  exact crc7Reduce_msb _

/-- An entry is the bit-by-bit CRC7 of its index as a whole byte: both leave the top bit clear (R131, R132). -/
theorem crc7Entry_eq_bitwise (x : Byte) : crc7Entry x = (crc7Bitwise [x]).setWidth 8 := by
  have hentry : ((crc7Entry x).setWidth 7).setWidth 8 = crc7Entry x :=
    BitVec.setWidth_setWidth_eq_self (BitVec.toNat_lt_of_msb_false (crc7Entry_msb x))
  rw [← hentry, crc7Entry_eq]
  rfl

set_option maxRecDepth 1500 in
/-- The XOR network is the bit-by-bit CRC7 of one byte (R138): its terms are the eight bit steps multiplied out. -/
theorem crc7Network_eq_bitByte (x : Byte) : crc7Network x = crc7BitByte 0#7 x := by
  revert x
  decide

end Sys2Proof.Machine

namespace Sys2Proof.Settled

open Sys2Proof Sys2Proof.Machine

/-- Settles O9: by induction on the message, the fold's step is the eight bit steps; an entry is a chain of linear steps. -/
theorem crc7ComputeIsBitwise : Obligations.Crc7ComputeIsBitwise := ⟨crc7Fold_eq_bitwise, crc7Entry_xor⟩

/-- Settles O8: the table lists the entries, and each entry and the network are the eight bit steps from zero. -/
theorem crc7TableEntries : Obligations.Crc7TableEntries := fun x =>
  ⟨(crc7Table_getElem x).trans (crc7Entry_eq_bitwise x), crc7Network_eq_bitByte x⟩

/-- Settles O29: the operation runs from the idle sequencer and ends there, so it leaves `SEQ` as it was. -/
theorem crc7BuildCompletes : Obligations.Crc7BuildCompletes := by
  intro s hs
  show runOperation { s.operands with op := .crc7Build } true crc7BuildBody s = _
  rw [runOperation_ready _ _ s hs, crc7BuildBody, complete_ok, ← hs]
  rfl

end Sys2Proof.Settled
end

section
/-! PROOF. The byte steps of the CRC16 are linear in the accumulator and the byte together, and the accumulator's high byte is
absorbed by a byte equal to it (41_crc16.md R151, R153, R154). -/

namespace Sys2Proof.Machine

theorem crc16Byte_xor (c d : Half) (a b : Byte) : crc16Byte (c ^^^ d) (a ^^^ b) = crc16Byte c a ^^^ crc16Byte d b := by
  have hsum : c ^^^ d ^^^ (a ^^^ b).setWidth 16 <<< 8 =
      (c ^^^ a.setWidth 16 <<< 8) ^^^ (d ^^^ b.setWidth 16 <<< 8) := by
    rw [BitVec.setWidth_xor, BitVec.shiftLeft_xor_distrib]
    ac_rfl
  rw [crc16Byte, hsum, repeatTimes_xor crc16Shift crc16Shift_xor]
  rfl

/-! ### The byte table -/

/-- A byte equal to the accumulator's high half cancels it, and the low half moves up (R153). -/
theorem crc16Byte_absorbs (c : Half) : crc16Byte c (c.extractLsb' 8 8) = c <<< 8 := by
  have hlow : c ^^^ (c.extractLsb' 8 8).setWidth 16 <<< 8 = (c.extractLsb' 0 8).setWidth 16 := by
    refine BitVec.eq_of_getLsbD_eq fun i hi => ?_
    by_cases h8 : i < 8
    · simp [h8, hi]
    · simp [h8, hi, show i - 8 < 8 by omega, show 8 + (i - 8) = i by omega]
  have hup : (c.extractLsb' 0 8).setWidth 16 <<< 8 = c <<< 8 := by
    refine BitVec.eq_of_getLsbD_eq fun i hi => ?_
    by_cases h8 : i < 8
    · simp [h8]
    · simp [h8, hi, show i - 8 < 8 by omega, BitVec.getLsbD_eq_getElem (show i - 8 < 16 by omega)]
  rw [crc16Byte, hlow, repeatTimes_crc16Shift_low, hup]

/-- The step through the byte table is the bit-serial one (R153). -/
theorem crc16TableStep_eq (c : Half) (b : Byte) : crc16TableStep c b = crc16Byte c b := by
  have h := crc16Byte_xor c 0#16 (c.extractLsb' 8 8) (c.extractLsb' 8 8 ^^^ b)
  rw [crc16Byte_absorbs, ← BitVec.xor_assoc, BitVec.xor_self, BitVec.xor_zero, BitVec.zero_xor] at h
  exact h.symm

/-! ### The properties of R154 -/

theorem foldl_crc16Byte_xor (a b : List Byte) (c d : Half) (h : a.length = b.length) :
    (List.zipWith (· ^^^ ·) a b).foldl crc16Byte (c ^^^ d) = a.foldl crc16Byte c ^^^ b.foldl crc16Byte d := by
  induction a generalizing b c d with
  | nil =>
    obtain rfl : b = [] := List.length_eq_zero_iff.1 h.symm
    rfl
  | cons x a ih =>
    cases b with
    | nil => simp at h
    | cons y b =>
      rw [List.zipWith_cons_cons, List.foldl_cons, crc16Byte_xor, ih b _ _ (by simpa using h)]
      rfl

theorem repeatTimes_crc16Shift_zero (n : Nat) : repeatTimes crc16Shift n 0#16 = 0#16 := by
  induction n with
  | zero => rfl
  | succ n ih => exact ih

/-- The accumulator's own two bytes, as one word, leave zero (R154). -/
theorem foldl_crc16Byte_crcBytes (c : Half) : (crcBytes c).foldl crc16Byte c = 0#16 := by
  rw [crcBytes, List.foldl_cons, List.foldl_cons, List.foldl_nil, ← crc16Step16_append, crcBytes_joins, crc16Step16,
    BitVec.xor_self, repeatTimes_crc16Shift_zero]

/-- Zero bytes leave the seed as it is (R154). -/
theorem foldl_crc16Byte_zeros (n : Nat) : (List.replicate n 0#8).foldl crc16Byte crc16Seed = crc16Seed := by
  induction n with
  | zero => rfl
  | succ n ih => exact ih

end Sys2Proof.Machine
end

section
/-! PROOF. The commands that read a register and the one that writes a single block, answered: `CMD9` and `CMD10` with a snapshot,
`CMD24` with the packet of a block (42_command_response.md R177, R178, R184). Each lemma gives the whole state. -/

namespace Sys2Proof.Machine

/-! ### `CMD9` and `CMD10` -/

/-- A command and the packet after it: the payload is in the destination, its CRC16 word right or wrong (41_crc16.md R157). -/
theorem sendCommand_packet_answered (cmd : BitVec 6) (arg : Word) (dst : Dest) (n : Nat) (a : CommandAnswer) (p : PacketAnswer)
    (rest : List WireAnswer) (s : State) (ht : s.tableReady) (hn : n % 2 = 0) (ha : a.ok = true) (hr : a.r1 = r1Normal)
    (hp : p.ok s.params.tokenMatch n = true) (h : s.wire = answers (a.bytes ++ p.bytes) ++ rest) :
    (andThen (sendCommand cmd arg r1Normal s) fun s => andThen (waitToken tokenStartByte s) (dataRx n dst)) =
      (p.code, storeBytes dst 0 p.payload { s with
        session.lastR1 := r1Normal
        work := ({ s.work with fr := frameOf cmd arg } : Work).afterPacket p
        wire := rest
        trace := (a.events cmd arg ++ received p.bytes).reverse ++ s.trace }) := by
  rw [sendCommand_expected crc7Fold_eq_bitwise cmd arg r1Normal a p.bytes rest s ht ha hr h, andThen_ok,
    packet_answered crc16Words_eq dst n p rest _ hn (by exact hp) rfl]
  simp [sentCommand, hr, Work.afterPacket]

theorem PacketAnswer.payload_length {p : PacketAnswer} {rule : TokenRule} {n : Nat} (h : p.ok rule n = true) :
    p.payload.length = n := by
  simp only [PacketAnswer.ok, Bool.and_eq_true, beq_iff_eq] at h
  exact h.2

/-- The payload is the new CSD (R177). -/
theorem cmd9Exchange_answered (arg : Word) (a : CommandAnswer) (p : PacketAnswer) (rest : List WireAnswer) (s : State)
    (ht : s.tableReady) (ha : a.ok = true) (hr : a.r1 = r1Normal) (hp : p.ok s.params.tokenMatch 16 = true)
    (h : s.wire = answers (a.bytes ++ p.bytes) ++ rest) :
    cmd9Exchange arg s = (p.code, { s with
      session.lastR1 := r1Normal
      session.csd := snapshotOf p.payload
      work := ({ s.work with fr := frameOf 9 arg } : Work).afterPacket p
      wire := rest
      trace := (a.events 9 arg ++ received p.bytes).reverse ++ s.trace }) := by
  rw [cmd9Exchange, sendCommand_packet_answered 9 arg .csd 16 a p rest s ht rfl ha hr hp h, storeBytes_csd,
    setBytes_snapshot _ _ (PacketAnswer.payload_length hp)]

/-- The payload is the new CID (R178). -/
theorem cmd10Exchange_answered (arg : Word) (a : CommandAnswer) (p : PacketAnswer) (rest : List WireAnswer) (s : State)
    (ht : s.tableReady) (ha : a.ok = true) (hr : a.r1 = r1Normal) (hp : p.ok s.params.tokenMatch 16 = true)
    (h : s.wire = answers (a.bytes ++ p.bytes) ++ rest) :
    cmd10Exchange arg s = (p.code, { s with
      session.lastR1 := r1Normal
      session.cid := snapshotOf p.payload
      work := ({ s.work with fr := frameOf 10 arg } : Work).afterPacket p
      wire := rest
      trace := (a.events 10 arg ++ received p.bytes).reverse ++ s.trace }) := by
  rw [cmd10Exchange, sendCommand_packet_answered 10 arg .cid 16 a p rest s ht rfl ha hr hp h, storeBytes_cid,
    setBytes_snapshot _ _ (PacketAnswer.payload_length hp)]

/-! ### `CMD24` -/

theorem cmd24Exchange_eq (arg : Word) (s : State) (he : s.session.blockSize.toNat % 2 = 0) :
    cmd24Exchange arg s = andThen (sendCommand 24 arg r1Normal s) fun s =>
      andThen (sendToken tokenStartByte s) fun s => dataTx (blockLength s) (blockBase s 0) s :=
  ifPayloadsEven_true 1 _ s (payloadsEven_of 1 s he)

/-- An accepted block: token, payload and CRC16, then the data response and the busy wait (R184). -/
theorem cmd24Exchange_answered (arg : Word) (a : CommandAnswer) (b : WriteAnswer) (rest : List WireAnswer)
    (later : List Bool) (s : State) (ht : s.tableReady) (he : s.session.blockSize.toNat % 2 = 0) (ha : a.ok = true)
    (hr : a.r1 = r1Normal) (hb : b.ok s.session.blockSize.toNat = true)
    (h : s.wire = answers (a.bytes ++ b.bytes) ++ rest) (htm : s.timer = notElapsed b.queries ++ later) :
    cmd24Exchange arg s = (.ok, { s with
      session.lastR1 := r1Normal
      work := { s.work with
        fr := frameOf 24 arg
        tries := a.pads.length + 1
        crcTx := crc16 (blockPayload s s.operands.buf 0)
        k := s.session.blockSize.toNat
        t0 := Config.now (s.nowCount + s.stamps - 1) }
      nowCount := s.nowCount + s.stamps
      wire := rest
      timer := later
      trace := (a.events 24 arg ++ b.events tokenStartByte (blockPayload s s.operands.buf 0)).reverse ++ s.trace }) := by
  rw [cmd24Exchange_eq arg s he, sendCommand_expected crc7Fold_eq_bitwise 24 arg r1Normal a b.bytes rest s ht ha hr h,
    andThen_ok, writtenBlock_answered crc16Words_eq tokenStartByte 0 b rest later _ (by exact he) (by exact hb) rfl
      (by exact htm)]
  simp [sentCommand, hr, blockPayload, blockBase, blockLength, State.stamps]

end Sys2Proof.Machine

namespace Sys2Proof.Settled

open Sys2Proof Sys2Proof.Machine

/-- Settles O10: a word step is two byte steps, and a table step is the byte step with the accumulator's high byte absorbed. -/
theorem crc16FormsAgree : Obligations.Crc16FormsAgree := ⟨crc16Words_eq, crc16TableStep_eq⟩

/-- Settles O11: the byte steps are linear, a word equal to the accumulator clears it, and zero bytes keep the seed. -/
theorem crc16Properties : Obligations.Crc16Properties := by
  refine ⟨fun a b h => foldl_crc16Byte_xor a b crc16Seed crc16Seed h, fun m => ?residue, fun n m => ?zeros⟩
  case residue => rw [crc16, List.foldl_append, ← crc16, foldl_crc16Byte_crcBytes]
  case zeros => rw [crc16, List.foldl_append, foldl_crc16Byte_zeros, ← crc16]

/-- Settles O20: each command stores its packet's sixteen bytes as its snapshot, before the CRC16 word is compared. -/
theorem registerReadsComplete : Obligations.RegisterReadsComplete := by
  intro s arg crc a p rest ht ha hr hp h
  refine ⟨?csd, ?cid⟩
  case csd =>
    show endSequence (cmd9Exchange arg s) = _
    rw [cmd9Exchange_answered arg a p rest s ht ha hr hp h]
    rfl
  case cid =>
    show endSequence (cmd10Exchange arg s) = _
    rw [cmd10Exchange_answered arg a p rest s ht ha hr hp h]
    rfl

/-- Settles O25: the packet of block 0 of the buffer follows the R1, and the card accepts it. -/
theorem writeSingleCommandCompletes : Obligations.WriteSingleCommandCompletes := by
  intro s arg crc a b rest later ht he ha hr hb h htm
  show endSequence (cmd24Exchange arg s) = _
  rw [cmd24Exchange_answered arg a b rest later s ht he ha hr hb h htm]
  rfl

end Sys2Proof.Settled
end

section
/-! PROOF. The R1 poll and the frame with their early ends, then the commands that nothing follows, the ones that an unexpected R1
ends, the application commands, and `CMD25` with the packets of its blocks (42_command_response.md R170 to R173, R185, R186,
R189). -/

namespace Sys2Proof.Machine

/-! ### The R1 poll and the frame -/

theorem isR1_eq (b : Byte) : isR1 b = !b.getLsbD 7 := by simp [isR1, BitVec.msb_eq_getLsbD_last]

/-- The first failed exchange ends a row of bytes: those before it are answered, those after it are not sent (R170). -/
theorem sendBytes_ioFail (tx rx : List Byte) (rest : List WireAnswer) (s : State) (hl : rx.length < tx.length)
    (h : s.wire = answers rx ++ .ioFail :: rest) :
    sendBytes tx s = (.transportIo, { s with
      wire := rest
      trace := .failedExchange (tx.getD rx.length 0#8) :: (transcript (tx.take rx.length) rx).reverse ++ s.trace }) := by
  induction rx generalizing tx s with
  | nil =>
    obtain ⟨b, tx, rfl⟩ := List.exists_cons_of_length_pos hl
    rw [sendBytes, send8_ioFail b rest s h, andThen_error _ _ _ (by decide)]
    rfl
  | cons r rx ih =>
    obtain ⟨b, tx, rfl⟩ := List.exists_cons_of_length_pos (Nat.zero_lt_of_lt hl)
    rw [sendBytes, send8_byte b r _ s h, andThen_ok, ih tx _ (Nat.lt_of_succ_lt_succ hl) rfl]
    simp

/-- With the table, `SEND_COMMAND` is its frame, the R1 poll and the classification (R170). -/
theorem sendCommand_eq (cmd : BitVec 6) (arg : Word) (exp : Byte) (s : State) (ht : s.tableReady) :
    sendCommand cmd arg exp s =
      andThen (sendBytes (commandFrame cmd arg) { s with work.fr := frameOf cmd arg }) fun s =>
        andThen (receiveR1 s) (classifyR1 exp) := by
  rw [sendCommand, crc7Compute_ready s ht, crc7Fold_eq_bitwise]
  rfl

/-- A failed exchange of the frame ends the command before the R1 poll (R170, 60_exceptions.md R362). -/
theorem sendCommand_frameFailed (cmd : BitVec 6) (arg : Word) (exp : Byte) (dropped : List Byte) (rest : List WireAnswer)
    (s : State) (ht : s.tableReady) (hl : dropped.length < 6) (h : s.wire = answers dropped ++ .ioFail :: rest) :
    sendCommand cmd arg exp s = (.transportIo, { s with
      work.fr := frameOf cmd arg
      wire := rest
      trace := .failedExchange ((commandFrame cmd arg).getD dropped.length 0#8) ::
        (transcript ((commandFrame cmd arg).take dropped.length) dropped).reverse ++ s.trace }) := by
  rw [sendCommand_eq cmd arg exp s ht, sendBytes_ioFail (commandFrame cmd arg) dropped rest _ hl (by exact h),
    andThen_error _ _ _ (by decide)]

/-! ### Commands that end with their R1 -/

/-- A command run alone with nothing after its R1 ends with the classification of the R1 (R172). -/
theorem endSequence_sendCommand (cmd : BitVec 6) (arg : Word) (exp : Byte) (a : CommandAnswer) (rest : List WireAnswer)
    (s : State) (ht : s.tableReady) (ha : a.ok = true) (h : s.wire = answers a.bytes ++ rest) :
    endSequence (sendCommand cmd arg exp s) = .next (commanded s a cmd arg rest (a.code exp)) := by
  rw [sendCommand_answered crc7Fold_eq_bitwise cmd arg exp a rest s ht ha h]
  rfl

/-- What follows the R1 of a command is not run when the R1 is unexpected (R172). -/
theorem andThen_sendCommand_unexpected (cmd : BitVec 6) (arg : Word) (exp : Byte) (a : CommandAnswer) (rest : List WireAnswer)
    (s : State) (ht : s.tableReady) (ha : a.ok = true) (h : s.wire = answers a.bytes ++ rest) (hr : a.r1 ≠ exp)
    (f : State → Code × State) :
    andThen (sendCommand cmd arg exp s) f = (.unexpectedR1, sentCommand s a cmd arg rest) := by
  rw [sendCommand_answered crc7Fold_eq_bitwise cmd arg exp a rest s ht ha h, CommandAnswer.code, if_neg hr,
    andThen_error _ _ _ (by decide)]

/-- Outside a multi-block read nothing follows the R1 of `CMD12` (R179, 30_encoding.md R106). -/
theorem cmd12Exchange_answered (arg : Word) (a : CommandAnswer) (rest : List WireAnswer) (s : State) (ht : s.tableReady)
    (hop : s.operands.op ≠ .readMultipleBlock) (ha : a.ok = true) (h : s.wire = answers a.bytes ++ rest) :
    cmd12Exchange arg s = (a.code r1Normal, sentCommand s a 12 arg rest) := by
  rw [cmd12Exchange, sendCommand_answered crc7Fold_eq_bitwise 12 arg r1Normal a rest s ht ha h, andThen_eq]
  split
  case isTrue hok =>
    rw [if_neg (by exact hop)]
    exact congrArg (·, _) hok.symm
  case isFalse => rfl

/-! ### `CMD55` and the application commands -/

/-- `CMD55` expects the R1 of the mode (R173, R186). -/
theorem sendPrefix_eq {arg : Word} {exp : Byte} {s : State} (hexp : expectedOfCmd55 s.session.mode = some exp) :
    sendPrefix arg s = sendCommand 55 arg exp s := by
  rw [sendPrefix, hexp]

theorem exists_expectedOfCmd55 {m : Mode} (hm : m ≠ .inactive) : ∃ exp, expectedOfCmd55 m = some exp := by
  cases m with
  | inactive => exact absurd rfl hm
  | identification => exact ⟨r1Idle, rfl⟩
  | transfer => exact ⟨r1Normal, rfl⟩

/-- The frame of an application command follows a `CMD55` that got the R1 of the mode (R173). -/
theorem sendACommand_answered (acmd : BitVec 6) (arg : Word) (exp : Byte) (app a : CommandAnswer) (rest : List WireAnswer)
    (s : State) (ht : s.tableReady) (happ : app.ok = true) (ha : a.ok = true)
    (hexp : expectedOfCmd55 s.session.mode = some app.r1) (h : s.wire = answers (app.bytes ++ a.bytes) ++ rest) :
    sendACommand acmd arg exp s = (a.code exp, { s with
      session.lastR1 := a.r1
      work := { s.work with fr := frameOf acmd arg, tries := a.pads.length + 1 }
      wire := rest
      trace := (app.events 55 argZero ++ a.events acmd arg).reverse ++ s.trace }) := by
  rw [sendACommand, sendPrefix_eq hexp,
    sendCommand_expected crc7Fold_eq_bitwise 55 argZero _ app a.bytes rest s ht happ rfl h, andThen_ok,
    sendCommand_answered crc7Fold_eq_bitwise acmd arg exp a rest _ (by exact ht) ha rfl]
  simp only [sentCommand, List.reverse_append, List.append_assoc]

/-- A `CMD55` with another R1 than the mode's ends the application command, its own frame not sent (R173). -/
theorem sendACommand_cmd55Unexpected (acmd : BitVec 6) (arg : Word) (exp : Byte) (app : CommandAnswer)
    (rest : List WireAnswer) (s : State) (ht : s.tableReady) (hm : s.session.mode ≠ .inactive) (happ : app.ok = true)
    (hexp : expectedOfCmd55 s.session.mode ≠ some app.r1) (h : s.wire = answers app.bytes ++ rest) :
    sendACommand acmd arg exp s = (.unexpectedR1, sentCommand s app 55 argZero rest) := by
  obtain ⟨exp55, h55⟩ := exists_expectedOfCmd55 hm
  have hr : app.r1 ≠ exp55 := fun he => hexp (he ▸ h55)
  rw [sendACommand, sendPrefix_eq h55, andThen_sendCommand_unexpected 55 argZero exp55 app rest s ht happ h hr]

/-! ### `CMD25` -/

theorem cmd25Exchange_eq (arg : Word) (s : State) (he : payloadsEven s.operands.count.toNat s = true) :
    cmd25Exchange arg s = andThen (sendCommand 25 arg r1Normal s) fun s =>
      andThen (sendDummies 1 s) fun s => writeBlocks s.operands.count.toNat 0 s :=
  ifPayloadsEven_true _ _ s he

/-- The dummy byte and the accepted blocks of the buffer, one after another (R185, 45_transfer.md R286). -/
theorem cmd25Exchange_answered (arg : Word) (a : CommandAnswer) (dummy : Byte) (blocks : List WriteAnswer)
    (rest : List WireAnswer) (later : List Bool) (s : State) (ht : s.tableReady)
    (he : payloadsEven s.operands.count.toNat s = true) (ha : a.ok = true) (hr : a.r1 = r1Normal)
    (hn : blocks.length = s.operands.count.toNat) (hb : ∀ b ∈ blocks, b.ok s.session.blockSize.toNat = true)
    (h : s.wire = answers (a.bytes ++ [dummy] ++ blocks.flatMap WriteAnswer.bytes) ++ rest)
    (htm : s.timer = notElapsed (blocks.map WriteAnswer.queries).sum ++ later) :
    cmd25Exchange arg s = (.ok, { s with
      session.lastR1 := r1Normal
      work := Work.afterWrites s.stamps ((List.range blocks.length).map (blockPayload s s.operands.buf)) 0 s.nowCount
        { s.work with fr := frameOf 25 arg, tries := a.pads.length + 1 }
      nowCount := s.nowCount + s.stamps * blocks.length
      wire := rest
      timer := later
      trace := (a.events 25 arg ++ received [dummy] ++ writeEvents tokenMultiWriteByte blocks
        ((List.range blocks.length).map (blockPayload s s.operands.buf))).reverse ++ s.trace }) := by
  have hdummy : ∀ t : State, t.wire = answers ([dummy] ++ blocks.flatMap WriteAnswer.bytes) ++ rest →
      sendDummies 1 t = (.ok, { t with
        wire := answers (blocks.flatMap WriteAnswer.bytes) ++ rest
        trace := (received [dummy]).reverse ++ t.trace }) :=
    fun t hw => sendDummies_answered [dummy] _ t hw
  rw [cmd25Exchange_eq arg s he, sendCommand_expected crc7Fold_eq_bitwise 25 arg r1Normal a _ rest s ht ha hr
    (by rw [h, List.append_assoc]), andThen_ok, hdummy _ rfl, andThen_ok]
  have hblocks := writeBlocks_answered crc16Words_eq blocks 0 rest later
    { sentCommand s a 25 arg (answers (blocks.flatMap WriteAnswer.bytes) ++ rest) with
      trace := (received [dummy]).reverse ++ ((a.events 25 arg).reverse ++ s.trace) }
    (by rw [hn]; exact he) hb rfl htm
  rw [hn] at hblocks
  refine hblocks.trans ?_
  simp only [hn, sentCommand, hr, ← List.range_eq_range', List.reverse_append, List.append_assoc]
  rfl

end Sys2Proof.Machine

namespace Sys2Proof.Settled

open Sys2Proof Sys2Proof.Machine

/-- Settles O12: the poll from its first try, with a byte that is an R1, without one, or cut by a failed exchange. -/
theorem receiveR1 : Obligations.ReceiveR1 := by
  refine ⟨rfl, fun s pads rest hpads => ?_⟩
  have hnone : pads.all (fun b => !isR1 b) = true := by simpa [isR1_eq] using hpads
  refine ⟨fun rx hrx hl h => ?answered, fun hl h => ?timeout, fun hl h => ?ioFail⟩
  case answered =>
    rw [Machine.receiveR1, pollR1_answered r1Tries pads rx rest s hnone (by rw [isR1_eq, hrx]; rfl) hl (Nat.le_refl _) h,
      Nat.sub_self, Nat.zero_add]
  case timeout =>
    rw [Machine.receiveR1, pollR1_timeout r1Tries pads rest s hnone hl (Nat.le_refl _) h]
    rfl
  case ioFail =>
    rw [Machine.receiveR1, pollR1_ioFail r1Tries pads rest s hnone hl (Nat.le_refl _) h, Nat.sub_self, Nat.zero_add]
    rfl

/-- Settles O15: the frame's bytes end at the failed exchange, and the R1 poll that would write `S.lastR1` is not run. -/
theorem frameStopsAtAFailedExchange : Obligations.FrameStopsAtAFailedExchange :=
  fun s cmd arg exp dropped rest ht hl h => sendCommand_frameFailed cmd arg exp dropped rest s ht hl h

/-- Settles O16: each of the commands is its frame and R1, `CMD55` with the R1 of the mode and `CMD12` without its drain. -/
theorem plainCommandsComplete : Obligations.PlainCommandsComplete := by
  intro s arg crc a rest ht ha h
  have hsent : ∀ cmd exp, endSequence (sendCommand cmd arg exp s) = .next (commanded s a cmd arg rest (a.code exp)) :=
    fun cmd exp => endSequence_sendCommand cmd arg exp a rest s ht ha h
  refine ⟨hsent 0 r1Idle, hsent 16 r1Normal, fun hm => ?cmd55Idle, fun hm => ?cmd55Normal, fun hop => ?cmd12⟩
  case cmd55Idle =>
    show endSequence (sendPrefix arg s) = _
    rw [sendPrefix_eq (by rw [hm]; rfl)]
    exact hsent 55 r1Idle
  case cmd55Normal =>
    show endSequence (sendPrefix arg s) = _
    rw [sendPrefix_eq (by rw [hm]; rfl)]
    exact hsent 55 r1Normal
  case cmd12 =>
    show endSequence (cmd12Exchange arg s) = _
    rw [cmd12Exchange_answered arg a rest s ht hop ha h]
    rfl

/-- Settles O17: each command is its frame and R1 with a continuation, which an unexpected R1 leaves out. -/
theorem unexpectedR1EndsACommand : Obligations.UnexpectedR1EndsACommand := by
  intro s arg crc a rest ht ha h
  have hends : ∀ cmd exp, a.r1 ≠ exp → ∀ f, endSequence (andThen (sendCommand cmd arg exp s) f) =
      .next (commanded s a cmd arg rest .unexpectedR1) := fun cmd exp hr f => by
    rw [andThen_sendCommand_unexpected cmd arg exp a rest s ht ha h hr]
    rfl
  refine ⟨fun hr => hends 8 _ hr _, fun hr => ⟨hends 9 _ hr _, hends 10 _ hr _, hends 12 _ hr _, hends 13 _ hr _,
    hends 58 _ hr _, fun he => ⟨?cmd17, ?cmd24⟩, fun he => ⟨?cmd18, ?cmd25⟩⟩⟩
  case cmd17 => exact (congrArg endSequence (cmd17Exchange_eq arg s he)).trans (hends 17 _ hr _)
  case cmd24 => exact (congrArg endSequence (cmd24Exchange_eq arg s he)).trans (hends 24 _ hr _)
  case cmd18 => exact (congrArg endSequence (cmd18Exchange_eq arg s he)).trans (hends 18 _ hr _)
  case cmd25 => exact (congrArg endSequence (cmd25Exchange_eq arg s he)).trans (hends 25 _ hr _)

/-- Settles O21: the command's own frame follows a `CMD55` that got the R1 of the mode, and no other. -/
theorem applicationCommandsComplete : Obligations.ApplicationCommandsComplete := by
  refine ⟨fun s arg crc app a rest ht happ ha hexp h => ?answered,
    fun s arg crc app rest ht hm happ hexp h => ⟨?acmd41, ?acmd22⟩⟩
  case answered =>
    show endSequence (sendACommand 41 arg (expectedOfAcmd41 s.seq) s) = _
    rw [sendACommand_answered 41 arg _ app a rest s ht happ ha hexp h]
    rfl
  case acmd41 =>
    show endSequence (sendACommand 41 arg (expectedOfAcmd41 s.seq) s) = _
    rw [sendACommand_cmd55Unexpected 41 arg _ app rest s ht hm happ hexp h]
    rfl
  case acmd22 =>
    show endSequence (acmd22Exchange arg s) = _
    rw [acmd22Exchange, sendACommand_cmd55Unexpected 22 arg r1Normal app rest s ht hm happ hexp h,
      andThen_error _ _ _ (by decide)]
    rfl

/-- Settles O26: the dummy byte and the packets of the buffer's blocks follow the R1, and the card accepts each. -/
theorem writeManyCommandCompletes : Obligations.WriteManyCommandCompletes := by
  intro s arg crc a dummy blocks rest later ht he ha hr hn hb h htm
  show endSequence (cmd25Exchange arg s) = _
  rw [cmd25Exchange_answered arg a dummy blocks rest later s ht he ha hr hn hb h htm]
  rfl

end Sys2Proof.Settled
end

section
/-! PROOF. The tokens and the busy wait: their ends, and what they leave unchanged; then `WRITE_BLOCK` from its admission to its
end, for a card that accepts the block and becomes ready, and for one that stays busy (43_token_data.md R210 to R223,
45_transfer.md R285). -/

namespace Sys2Proof.Machine

/-! ### Tokens -/

/-- The wait from its first try: a matching byte within a hundred reads ends it (R211). -/
theorem waitToken_answered (tok : Byte) (pads : List Byte) (rx : Byte) (rest : List WireAnswer) (s : State)
    (hp : pads.all (fun b => !tokenMatch s.params.tokenMatch b tok) = true)
    (hrx : tokenMatch s.params.tokenMatch rx tok = true) (hl : pads.length < tokenTries)
    (h : s.wire = answers (pads ++ [rx]) ++ rest) :
    waitToken tok s = (.ok, { s with
      work.tries := pads.length + 1
      wire := rest
      trace := (received (pads ++ [rx])).reverse ++ s.trace }) := by
  rw [waitToken, pollToken_answered tok tokenTries pads rx rest s hp hrx hl (Nat.le_refl _) h, Nat.sub_self, Nat.zero_add]

/-- A token sent alone is one exchange, whatever byte arrives with it (R210). -/
theorem endSequence_sendToken_byte (tok rx : Byte) (rest : List WireAnswer) (s : State) (h : s.wire = .byte rx :: rest) :
    endSequence (sendToken tok s) = .next { s with
      work.seqResult := .ok
      wire := rest
      trace := .exchange tok rx :: s.trace } := by
  rw [sendToken, send8_byte tok rx rest s h]
  rfl

theorem endSequence_sendToken_ioFail (tok : Byte) (rest : List WireAnswer) (s : State) (h : s.wire = .ioFail :: rest) :
    endSequence (sendToken tok s) = .next { s with
      work.seqResult := .transportIo
      wire := rest
      trace := .failedExchange tok :: s.trace } := by
  rw [sendToken, send8_ioFail tok rest s h]
  rfl

/-! ### What tokens and data responses leave unchanged -/

/-- `t` is `s` but for what a counted poll and the end of a sequence write. -/
def State.sameButPoll (s t : State) : Prop :=
  { t with
    work := { t.work with tries := s.work.tries, seqResult := s.work.seqResult }
    wire := s.wire
    trace := s.trace } = s

/-- `t` is `s` but for what polls bounded by time and the end of a sequence write. -/
def State.sameButTimedPoll (s t : State) : Prop :=
  { t with
    work := { t.work with t0 := s.work.t0, seqResult := s.work.seqResult }
    wire := s.wire
    timer := s.timer
    nowCount := s.nowCount
    trace := s.trace } = s

theorem polls_sameButPoll (s : State) : Polls s.sameButPoll := ⟨⟨fun _ _ _ _ h => h⟩, fun _ _ h => h⟩

theorem exchanges_sameButTimedPoll (s : State) : Exchanges s.sameButTimedPoll := ⟨fun _ _ _ _ h => h⟩

theorem waits_sameButTimedPoll (s : State) : Waits s.sameButTimedPoll := ⟨fun _ _ h => h, fun _ h => h⟩

/-- A sequence run alone writes its result beside what the sequence writes. -/
theorem endSequence_keeps {P : State → Prop} {r : Code × State} {t : State}
    (hres : ∀ s c, P s → P { s with work.seqResult := c }) (h : endSequence r = .next t) (hr : P r.2) : P t := by
  cases h
  exact hres _ _ hr

theorem endSequence_sendToken_sameButPoll {tok : Byte} {s t : State} (h : endSequence (sendToken tok s) = .next t) :
    s.sameButPoll t :=
  endSequence_keeps (fun _ _ h => h) h ((polls_sameButPoll s).sendToken tok s rfl)

/-- The presented byte goes onto the card's script (log 12), which `sameButTimedPoll` leaves out of the comparison. -/
theorem endSequence_dataResponse_sameButTimedPoll {rx : Byte} {s t : State}
    (h : endSequence (dataResponse (presentByte rx s)) = .next t) : s.sameButTimedPoll t :=
  endSequence_keeps (fun _ _ h => h) h
    ((exchanges_sameButTimedPoll s).dataResponse (waits_sameButTimedPoll s) (presentByte rx s) rfl)

/-! ### The busy wait -/

/-- The budget expires after a byte that is not `0xFF` (R216, R217). -/
theorem busyWait_expired (busy : List Byte) (b : Byte) (rest : List WireAnswer) (later : List Bool) (s : State)
    (hbusy : busy.all (fun b => b != 0xFF#8) = true) (hb : b ≠ 0xFF#8) (h : s.wire = answers (busy ++ [b]) ++ rest)
    (ht : s.timer = notElapsed busy.length ++ true :: later) :
    busyWait s = (.waitTimeout, { s with
      work.t0 := Config.now s.nowCount
      nowCount := s.nowCount + 1
      wire := rest
      timer := later
      trace := (received (busy ++ [b])).reverse ++ s.trace }) :=
  timedPoll_expired acceptReady busy b rest later s (acceptReady_busy busy hbusy) (acceptReady_none hb) h ht

theorem busyWait_ioFail (busy : List Byte) (rest : List WireAnswer) (later : List Bool) (s : State)
    (hbusy : busy.all (fun b => b != 0xFF#8) = true) (h : s.wire = answers busy ++ .ioFail :: rest)
    (ht : s.timer = notElapsed busy.length ++ later) :
    busyWait s = (.transportIo, { s with
      work.t0 := Config.now s.nowCount
      nowCount := s.nowCount + 1
      wire := rest
      timer := later
      trace := .failedExchange fill :: (received busy).reverse ++ s.trace }) :=
  timedLoop_ioFail acceptReady _ busy rest later (startWait s) (acceptReady_busy busy hbusy) (timedRounds_enough _ _ _ ht) h ht

/-- The busy wait after an accepted block, the budget its own or that of the data-response poll (R214), expires. -/
theorem dataResponse_expired (pads : List Byte) (ignored : BitVec 3) (busy : List Byte) (b : Byte) (rest : List WireAnswer)
    (later : List Bool) (s : State) (hpads : pads.all (fun b => acceptDataResponse b == none) = true)
    (hbusy : busy.all (fun b => b != 0xFF#8) = true) (hb : b ≠ 0xFF#8)
    (h : s.wire = answers (pads ++ [responseByte ignored drAcceptedCode] ++ busy ++ [b]) ++ rest)
    (ht : s.timer = notElapsed (pads.length + busy.length) ++ true :: later) :
    dataResponse s = (.waitTimeout, { s with
      work.t0 := Config.now (s.nowCount + s.stamps - 1)
      nowCount := s.nowCount + s.stamps
      wire := rest
      timer := later
      trace := (received (pads ++ [responseByte ignored drAcceptedCode] ++ busy ++ [b])).reverse ++ s.trace }) := by
  have hpoll : s.wire = answers (pads ++ [responseByte ignored drAcceptedCode]) ++ (answers (busy ++ [b]) ++ rest) := by
    rw [h]; simp
  have htimer : s.timer = notElapsed pads.length ++ (notElapsed busy.length ++ true :: later) := by
    rw [ht, notElapsed, List.replicate_add, List.append_assoc]; rfl
  rw [dataResponse, timedPoll_answered acceptDataResponse pads _ _ _ _ s
    (fun x hx => by simpa using List.all_eq_true.1 hpads x hx) (acceptDataResponse_accepted ignored) hpoll htimer, andThen_ok]
  by_cases hs : s.params.sharedWriteBudget = true
  · rw [if_pos (by exact hs), timedPollOn, timedLoop_expired acceptReady _ busy b rest later _ (acceptReady_busy busy hbusy)
      (acceptReady_none hb) (timedRounds_enough _ _ _ rfl) rfl rfl]
    simp [State.stamps, hs]
  · rw [if_neg (by exact hs), busyWait_expired busy b rest later _ hbusy hb rfl rfl]
    simp [State.stamps, hs]

/-! ### A single block written -/

/-- The token and the packet of block `i` go out in a row; what the card makes of them is the data response (R210, R214). -/
theorem andThen_sendToken_dataTx (tok : Byte) (i : Nat) (dropped : List Byte) (rest : List WireAnswer) (s : State)
    (he : blockLength s % 2 = 0) (hl : dropped.length = blockLength s + 3) (h : s.wire = answers dropped ++ rest) :
    andThen (sendToken tok s) (fun s => dataTx (blockLength s) (blockBase s i) s) =
      dataResponse { s with
        work.crcTx := crc16 (Memory.readBytes s.mem (blockBase s i) (blockLength s))
        work.k := blockLength s
        wire := rest
        trace := (transcript (dataPacket tok (Memory.readBytes s.mem (blockBase s i) (blockLength s))) dropped).reverse
          ++ s.trace } := by
  obtain ⟨r, rx, rfl⟩ := List.exists_cons_of_length_eq_add_one hl
  rw [sendToken, send8_byte tok r _ s h, andThen_ok, dataTx,
    send16Crc_answered crc16Words_eq _ _ rx rest _ (by exact he) (by exact Nat.succ.inj hl) rfl, andThen_ok]
  simp only [dataPacket, List.cons_append, transcript_cons, List.reverse_cons, List.append_assoc]
  rfl

/-- A card that accepts the block and stays busy until the budget expires. -/
theorem cmd24Exchange_expired (arg : Word) (a : CommandAnswer) (dropped pads : List Byte) (ignored : BitVec 3)
    (busy : List Byte) (b : Byte) (rest : List WireAnswer) (later : List Bool) (s : State) (ht : s.tableReady)
    (he : s.session.blockSize.toNat % 2 = 0) (ha : a.ok = true) (hr : a.r1 = r1Normal)
    (hl : dropped.length = s.session.blockSize.toNat + 3) (hpads : pads.all (fun b => acceptDataResponse b == none) = true)
    (hbusy : busy.all (fun b => b != 0xFF#8) = true) (hb : b ≠ 0xFF#8)
    (h : s.wire = answers (a.bytes ++ dropped ++ pads ++ [responseByte ignored drAcceptedCode] ++ busy ++ [b]) ++ rest)
    (htm : s.timer = notElapsed (pads.length + busy.length) ++ true :: later) :
    cmd24Exchange arg s = (.waitTimeout, { s with
      session.lastR1 := r1Normal
      work := { s.work with
        fr := frameOf 24 arg
        tries := a.pads.length + 1
        crcTx := crc16 (blockPayload s s.operands.buf 0)
        k := s.session.blockSize.toNat
        t0 := Config.now (s.nowCount + s.stamps - 1) }
      nowCount := s.nowCount + s.stamps
      wire := rest
      timer := later
      trace := (a.events 24 arg ++ transcript (dataPacket tokenStartByte (blockPayload s s.operands.buf 0)) dropped ++
        received (pads ++ [responseByte ignored drAcceptedCode] ++ busy ++ [b])).reverse ++ s.trace }) := by
  rw [cmd24Exchange_eq arg s he, sendCommand_expected crc7Fold_eq_bitwise 24 arg r1Normal a
      (dropped ++ (pads ++ [responseByte ignored drAcceptedCode] ++ busy ++ [b])) rest s ht ha hr
      (by rw [h]; simp only [List.append_assoc]), andThen_ok,
    andThen_sendToken_dataTx tokenStartByte 0 dropped
      (answers (pads ++ [responseByte ignored drAcceptedCode] ++ busy ++ [b]) ++ rest) _ (by exact he) (by exact hl)
      (by simp only [sentCommand, answers_append, List.append_assoc]),
    dataResponse_expired pads ignored busy b rest later _ hpads hbusy hb rfl (by exact htm)]
  simp [sentCommand, hr, blockPayload, blockBase, blockLength, State.stamps]

/-- A write once it is admitted, its operands loaded and chip-select asserted (R281), at the step of its command. -/
def writeOpened (ops : Operands) (s : State) : State := nextStep 2 (openTransfer .sending (startOp ops s))

/-- All that the opening of a write writes. -/
theorem writeOpened_eq (ops : Operands) (s : State) : writeOpened ops s =
    { s with
      session.state := .sending
      operands := ops
      seq := .step ops.op 2
      csLevel := .asserted
      trace := .csAssert :: s.trace } := rfl

theorem writeOpened_stamps (ops : Operands) (s : State) : (writeOpened ops s).stamps = s.stamps := rfl

theorem writeOpened_blockPayload (ops : Operands) (s : State) (buf : Word) (i : Nat) :
    blockPayload (writeOpened ops s) buf i = blockPayload s buf i := rfl

/-- An admitted `WRITE_BLOCK` is its `CMD24`, a diagnosis when the block is rejected, and the release of chip-select. -/
theorem exec_writeBlock_admitted (addr buf : Word) (s : State) (hs : s.seq = .idleSeq) (hm : s.session.mode = .transfer)
    (hp : s.session.state = .standby) (ht : s.tableReady) (he : s.session.blockSize.toNat % 2 = 0) :
    exec (.writeBlock addr buf) s = .next (complete
      (andThen (onRejected diagnoseWrite (cmd24Exchange (xlate s.session addr)
          (writeOpened { s.operands with op := .writeBlock, addr := addr, buf := buf } s)))
        fun s => closeTransfer (nextStep 3 s))) := by
  show runOperation _ (blockReady 1 s) writeBlockBody s = _
  rw [blockReady_of 1 s hm hp ht (payloadsEven_of 1 s he), runOperation_ready _ _ s hs]
  rfl

/-- A time-out is no rejection: no status is read (45_transfer.md R285). -/
theorem onRejected_waitTimeout (diagnose : State → State) (s : State) :
    onRejected diagnose (.waitTimeout, s) = (.waitTimeout, s) := rfl

end Sys2Proof.Machine

namespace Sys2Proof.Settled

open Sys2Proof Sys2Proof.Machine

/-- Settles O13: the wait from its first try, with a byte that matches, without one, or cut by a failed exchange. -/
theorem waitToken : Obligations.WaitToken := by
  intro s tok pads rest hpads
  refine ⟨fun rx hrx hl h => ?answered, fun hl h => ?timeout, fun hl h => ?ioFail⟩
  case answered => exact waitToken_answered tok pads rx rest s hpads hrx hl h
  case timeout =>
    rw [Machine.waitToken, pollToken_timeout tok tokenTries pads rest s hpads hl (Nat.le_refl _) h]
    rfl
  case ioFail =>
    rw [Machine.waitToken, pollToken_ioFail tok tokenTries pads rest s hpads hl (Nat.le_refl _) h, Nat.sub_self,
      Nat.zero_add]
    rfl

/-- Settles O14: the loop on a timestamp of its own, whose busy bytes are those that `acceptReady` does not answer. -/
theorem busyWait : Obligations.BusyWait := by
  intro s busy rest later hbusy
  exact ⟨fun h ht => busyWait_answered busy rest later s hbusy h ht,
    fun b hb h ht => busyWait_expired busy b rest later s hbusy hb h ht,
    fun h ht => busyWait_ioFail busy rest later s hbusy h ht⟩

/-- Settles O27: a token sent is one exchange, and `0xFE` matches itself under every token rule. -/
theorem tokensComplete : Obligations.TokensComplete := by
  refine ⟨fun s rx rest h => ?sent, fun s rest h => ?failed, fun s pads rest hl hpads h => ?received⟩
  case sent =>
    have hsent := fun tok => endSequence_sendToken_byte tok rx rest s h
    exact ⟨hsent tokenStartByte, hsent tokenMultiWriteByte, hsent tokenStopTranByte⟩
  case failed =>
    have hfailed := fun tok => endSequence_sendToken_ioFail tok rest s h
    exact ⟨hfailed tokenStartByte, hfailed tokenMultiWriteByte, hfailed tokenStopTranByte⟩
  case received =>
    show endSequence (Machine.waitToken tokenStartByte s) = _
    rw [waitToken_answered tokenStartByte pads 0xFE#8 rest s hpads (tokenMatch_self _ _) hl h]
    rfl

/-- Settles O52: a token writes what a counted poll writes, a data response what polls bounded by time write. -/
theorem tokenFrame : Obligations.TokenFrame := by
  intro s t ignored
  refine ⟨fun i hi h => ?tokens, fun i hi h => ?responses⟩
  case tokens =>
    simp only [List.mem_cons, List.not_mem_nil, or_false] at hi
    obtain rfl | rfl | rfl | rfl := hi
    · exact endSequence_sendToken_sameButPoll h
    · exact endSequence_keeps (P := s.sameButPoll) (fun _ _ h => h) h ((polls_sameButPoll s).waitToken tokenStartByte s rfl)
    · exact endSequence_sendToken_sameButPoll h
    · exact endSequence_sendToken_sameButPoll h
  case responses =>
    simp only [List.mem_cons, List.not_mem_nil, or_false] at hi
    obtain rfl | rfl | rfl := hi <;> exact endSequence_dataResponse_sameButTimedPoll h

/-- Settles O37: after `CMD24` with its accepted block chip-select is released in `Standby`. -/
theorem writeBlockCompletes : Obligations.WriteBlockCompletes := by
  intro s addr buf a b rest later hs hm hst ht he ha hr hb h htm
  rw [exec_writeBlock_admitted addr buf s hs hm hst ht he,
    cmd24Exchange_answered _ a b rest later _ (by exact ht) (by exact he) ha hr (by exact hb) (by exact h) (by exact htm),
    onRejected_ok, andThen_ok, complete_closeTransfer, writeOpened_stamps, writeOpened_blockPayload]
  simp [nextStep, writeOpened_eq, hs, hst, r1Normal, tokenStartByte]

/-- Settles O42: the busy wait of the accepted block expires, which goes to the handler with no diagnosis. -/
theorem busyCardEndsTheWrite : Obligations.BusyCardEndsTheWrite := by
  intro s addr buf a dropped pads ignored busy b rest later hs hm hst ht he ha hr hl hpads hbusy hb h htm
  refine ⟨{ s.work with
    fr := frameOf 24 (xlate s.session addr)
    tries := a.pads.length + 1
    crcTx := crc16 (blockPayload s buf 0)
    k := s.session.blockSize.toNat
    t0 := Config.now (s.nowCount + s.stamps - 1)
    seqResult := .waitTimeout }, ?_⟩
  rw [exec_writeBlock_admitted addr buf s hs hm hst ht he,
    cmd24Exchange_expired _ a dropped pads ignored busy b rest later _ (by exact ht) (by exact he) ha hr (by exact hl) hpads
      hbusy hb (by exact h) (by exact htm),
    onRejected_waitTimeout, andThen_error _ _ _ (by decide), complete_error_eq _ _ (by decide),
    writeOpened_stamps, writeOpened_blockPayload]
  simp [writeOpened_eq, hs, r1Normal, tokenStartByte, responseByte, drAcceptedCode]

end Sys2Proof.Settled
end

section
/-! PROOF. The steps of `INITIALIZE` one by one, each with the whole state it leaves (44_init.md R241 to R250): the opening up to
the version of the card, the readiness poll that ends ready or expires, the register reads and what is derived from them. -/

namespace Sys2Proof.Machine

/-! ### Mode and state -/

/-- The session's mode and protocol state. -/
def State.inPhase (m : Mode) (p : Phase) (s : State) : Prop := s.session.mode = m ∧ s.session.state = p

theorem initializes_inPhase (m : Mode) (p : Phase) : Initializes (State.inPhase m p) :=
  initializes_settled (State.inPhase m p) (fun _ _ _ h => h) (fun _ _ _ h => h) fun _ _ h => h

/-- Step 8 writes neither, whatever class and capacity it derives. -/
theorem State.inPhase.derived {m : Mode} {p : Phase} {s : State} (h : s.inPhase m p) (v : CapacityClass) (b : Word) (c : Wide) :
    State.inPhase m p { s with session.capacityClass := v, session.blockSize := b, session.capacityBytes := c } := h

theorem initStep8_inPhase {m : Mode} {p : Phase} (s : State) (h : s.inPhase m p) :
    State.inPhase m p (initStep8 s).2 := by
  have h8 : (atStep 8 s).inPhase m p := h
  rw [initStep8_eq]
  split
  · exact h8.derived _ _ _
  · exact andThen_keeps (State.inPhase m p) _ _ ((initializes_inPhase m p).sendCommand _ _ _ _ h8) fun _ hs =>
      hs.derived _ _ _

/-! ### Steps 1 and 2 -/

/-- Power-up (R241). -/
theorem initStep1_answered (dummies : List Byte) (rest : List WireAnswer) (s : State) (hl : dummies.length = powerupDummyBytes)
    (h : s.wire = answers dummies ++ rest) :
    initStep1 s = (.ok, { s with
      session := { s.session with mode := .inactive, state := .ready, capacityClass := .sdsc }
      table := crc7Table
      tableValid := true
      seq := .step .initSession 1
      csLevel := .deasserted
      clockProfile := .clkInit
      wire := rest
      trace := ([Event.buildTable, .setClock .clkInit, .csDeassert] ++ received dummies).reverse ++ s.trace }) := by
  rw [initStep1, ← hl, sendDummies_answered dummies rest _ (by exact h), List.reverse_append, List.append_assoc]
  rfl

/-- `CMD0` (R242). -/
theorem initStep2_answered (a : CommandAnswer) (rest : List WireAnswer) (s : State) (ht : s.tableReady) (ha : a.ok = true)
    (hr : a.r1 = r1Idle) (h : s.wire = answers a.bytes ++ rest) :
    initStep2 s = (.ok, { s with
      session := { s.session with mode := .identification, state := .idle, lastR1 := r1Idle }
      work := { s.work with fr := frameOf 0 argZero, tries := a.pads.length + 1 }
      seq := .step .initSession 2
      csLevel := .asserted
      wire := rest
      trace := ([Event.csAssert] ++ a.events 0 argZero).reverse ++ s.trace }) := by
  rw [initStep2, cmd0Exchange, sendCommand_answered crc7Fold_eq_bitwise 0 argZero r1Idle a rest _ (by exact ht) ha (by exact h),
    CommandAnswer.code, if_pos hr, andThen_ok, List.reverse_append, List.append_assoc, sentCommand, hr]
  rfl

/-! ### Step 3 -/

/-- `CMD8` with its R1 and trailer: the echo decides (R243). -/
theorem initStep3_echoed (a : CommandAnswer) (b0 b1 b2 b3 : Byte) (rest : List WireAnswer) (s : State) (ht : s.tableReady)
    (ha : a.ok = true) (hr : a.r1 = r1Idle) (h : s.wire = answers (a.bytes ++ [b0, b1, b2, b3]) ++ rest) :
    initStep3 s = judgeCmd8 (.ok, { s with
      session.lastR1 := r1Idle
      work := { s.work with fr := frameOf 8 argCmd8, tries := a.pads.length + 1, r7 := #v[b0, b1, b2, b3] }
      seq := .step .initSession 3
      wire := rest
      trace := (a.events 8 argCmd8 ++ received [b0, b1, b2, b3]).reverse ++ s.trace }) := by
  rw [initStep3, cmd8Exchange, sendCommand_recvFour 8 argCmd8 r1Idle .r7 a b0 b1 b2 b3 rest _ (by exact ht) ha hr (by exact h),
    storeBytes_r7, setBytes_four]
  rfl

/-- `CMD8` with another R1: no trailer is read, and the illegal-command flag decides (R243). -/
theorem initStep3_unexpected (a : CommandAnswer) (rest : List WireAnswer) (s : State) (ht : s.tableReady)
    (ha : a.ok = true) (hr : a.r1 ≠ r1Idle) (h : s.wire = answers a.bytes ++ rest) :
    initStep3 s = judgeCmd8 (.unexpectedR1, { s with
      session.lastR1 := a.r1
      work := { s.work with fr := frameOf 8 argCmd8, tries := a.pads.length + 1 }
      seq := .step .initSession 3
      wire := rest
      trace := (a.events 8 argCmd8).reverse ++ s.trace }) := by
  rw [initStep3, cmd8Exchange, andThen_sendCommand_unexpected 8 argCmd8 r1Idle a rest _ (by exact ht) ha (by exact h) hr]
  rfl

/-- `CMD8` without an R1 (R243). -/
theorem initStep3_timeout (dropped reads : List Byte) (rest : List WireAnswer) (s : State) (ht : s.tableReady)
    (hd : dropped.length = 6) (hl : reads.length = r1Tries) (hr : reads.all (fun b => !isR1 b) = true)
    (h : s.wire = answers (dropped ++ reads) ++ rest) :
    initStep3 s = (.r1Timeout, { s with
      work := { s.work with fr := frameOf 8 argCmd8, tries := r1Tries }
      seq := .step .initSession 3
      wire := rest
      trace := (transcript (commandFrame 8 argCmd8) dropped ++ received reads).reverse ++ s.trace }) := by
  rw [initStep3, cmd8Exchange, sendCommand_timeout crc7Fold_eq_bitwise 8 argCmd8 r1Idle dropped reads rest _ (by exact ht) hd
    hl hr (by exact h), andThen_error _ _ _ (by decide)]
  rfl

theorem echoOk_iff (b0 b1 b2 b3 : Byte) : echoOk #v[b0, b1, b2, b3] = true ↔ b2 = 0x01#8 ∧ b3 = 0xAA#8 := by
  simp [echoOk]

theorem judgeCmd8_echoed {s : State} (h : echoOk s.work.r7 = true) :
    judgeCmd8 (.ok, s) = (.ok, { s with session.specVersion := .v2 }) := if_pos h

theorem judgeCmd8_badEcho {s : State} (h : ¬ echoOk s.work.r7 = true) : judgeCmd8 (.ok, s) = (.badEcho, s) := if_neg h

theorem judgeCmd8_illegal {s : State} (h : s.session.lastR1.getLsbD 2 = true) :
    judgeCmd8 (.unexpectedR1, s) = (.ok, { s with session.specVersion := .v1 }) := if_pos h

theorem judgeCmd8_fatal {s : State} (h : ¬ s.session.lastR1.getLsbD 2 = true) :
    judgeCmd8 (.unexpectedR1, s) = (.unexpectedR1, s) := if_neg h

/-! ### Step 4 -/

/-- With the default of `ACMD41_PAIR_IN_LOOP` a round is one repeated issue (R244). -/
theorem pollRound_eq (s : State) (hp : s.params.acmd41PairInLoop = false) : pollRound s = repeatIssue s := by
  rw [pollRound, hp]
  rfl

/-- The state after the first issue of the poll, `fr` and `tries` those of the last command it sent. -/
def firstIssued (s : State) (p : PollAnswer) (rest : List WireAnswer) (fr : Vector Byte 6) (tries : Nat) : State :=
  { s with
    session.lastR1 := p.r1
    work := { s.work with fr := fr, tries := tries, t0 := Config.now s.nowCount }
    seq := .step .initSession 4
    nowCount := s.nowCount + 1
    wire := rest
    trace := (p.events (argAcmd41First s.session.specVersion)).reverse ++ s.trace }

/-- With the default of `ACMD41_PAIR_IN_LOOP` the first issue, with HCS for a version-2 card, is before the loop (R244). -/
theorem initStep4_firstIssued (p : PollAnswer) (rest : List WireAnswer) (s : State) (ht : s.tableReady)
    (hm : s.session.mode = .identification) (hl : s.params.acmd41PairInLoop = false) (hp : p.ok = true)
    (h : s.wire = answers p.bytes ++ rest) :
    ∃ fr tries, initStep4 s =
      andThen (pollLoop (s.timer.length + 1) (firstIssued s p rest fr tries)) fun s =>
        (.ok, setModeState .transfer .standby s) := by
  obtain ⟨fr, tries, hfirst⟩ := pollIssue_answered crc7Fold_eq_bitwise (argAcmd41First s.session.specVersion) r1Idle p rest
    (atStep 4 (startWait (atStep 4 s))) ht hm hp h
  have hpair : ¬ (startWait (atStep 4 s)).params.acmd41PairInLoop = true := by simp [hl, atStep]
  refine ⟨fr, tries, ?_⟩
  rw [initStep4, if_neg hpair, firstIssue]
  exact congrArg (andThen · _) hfirst

/-- The state after a round of the poll and a query of the timer, `fr` and `tries` those of the last command sent. -/
def roundPolled (s : State) (p : PollAnswer) (rest : List WireAnswer) (later : List Bool) (fr : Vector Byte 6) (tries : Nat) :
    State :=
  { s with
    session.lastR1 := p.r1
    work := { s.work with fr := fr, tries := tries }
    seq := .acmd41Repeat
    wire := rest
    timer := later
    trace := (p.events argZero).reverse ++ s.trace }

/-- After a round that was not ready the timer decides whether the loop goes on (R244). -/
theorem pollLoop_unready (n : Nat) (p : PollAnswer) (rest : List WireAnswer) (late : Bool) (later : List Bool) (s : State)
    (ht : s.tableReady) (hm : s.session.mode = .identification) (hl : s.params.acmd41PairInLoop = false) (hp : p.ok = true)
    (hr : p.r1 ≠ r1Normal) (h : s.wire = answers p.bytes ++ rest) (htm : s.timer = late :: later) :
    ∃ fr tries, pollLoop (n + 1) s =
      if late then (.waitTimeout, roundPolled s p rest later fr tries)
      else pollLoop n (roundPolled s p rest later fr tries) := by
  obtain ⟨fr, tries, he⟩ :=
    pollIssue_answered crc7Fold_eq_bitwise argZero r1Normal p rest (setSeq .acmd41Repeat s) ht hm hp h
  refine ⟨fr, tries, ?_⟩
  rw [pollLoop, pollRound_eq s hl, repeatIssue, he, andThen_ok, if_neg hr, elapsed]
  simp only [setSeq_timer, htm]
  cases late <;> rfl

/-- The loop when the budget expires after a round that was not ready, as none before it was (R244). -/
theorem pollLoop_expired (n : Nat) (rounds : List PollAnswer) (last : PollAnswer) (rest : List WireAnswer) (later : List Bool)
    (s : State) (ht : s.tableReady) (hm : s.session.mode = .identification) (hl : s.params.acmd41PairInLoop = false)
    (hr : ∀ p ∈ rounds, p.ok = true ∧ p.r1 ≠ r1Normal) (hk : last.ok = true) (hk1 : last.r1 ≠ r1Normal)
    (hn : rounds.length < n) (h : s.wire = answers (rounds.flatMap PollAnswer.bytes ++ last.bytes) ++ rest)
    (htm : s.timer = notElapsed rounds.length ++ true :: later) :
    ∃ fr tries, pollLoop n s = (.waitTimeout, { s with
      session.lastR1 := last.r1
      work := { s.work with fr := fr, tries := tries }
      seq := .acmd41Repeat
      wire := rest
      timer := later
      trace := (rounds.flatMap (PollAnswer.events · argZero) ++ last.events argZero).reverse ++ s.trace }) := by
  obtain ⟨n, rfl⟩ := Nat.exists_eq_add_one_of_ne_zero (Nat.ne_zero_of_lt hn)
  induction rounds generalizing n s with
  | nil => exact pollLoop_unready n last rest true later s ht hm hl hk hk1 h htm
  | cons p rounds ih =>
    obtain ⟨hp, hp1⟩ := hr p List.mem_cons_self
    obtain ⟨n, rfl⟩ := Nat.exists_eq_add_one_of_ne_zero (Nat.ne_zero_of_lt (Nat.lt_of_succ_lt_succ hn))
    obtain ⟨fr1, tries1, hround⟩ := pollLoop_unready (n + 1) p
      (answers (rounds.flatMap PollAnswer.bytes ++ last.bytes) ++ rest) false (notElapsed rounds.length ++ true :: later) s
      ht hm hl hp hp1 (by rw [h]; simp) htm
    obtain ⟨fr, tries, hloop⟩ := ih (roundPolled s p _ _ fr1 tries1) ht hm hl
      (fun q hq => hr q (List.mem_cons_of_mem p hq)) rfl rfl n (Nat.lt_of_succ_lt_succ hn)
    refine ⟨fr, tries, hround.trans (hloop.trans ?_)⟩
    simp [roundPolled]

section ReadinessPoll

variable (first : PollAnswer) (rounds : List PollAnswer) (last : PollAnswer) (rest : List WireAnswer) (later : List Bool)
  (s : State) (ht : s.tableReady) (hm : s.session.mode = .identification) (hl : s.params.acmd41PairInLoop = false)
  (hf : first.ok = true) (hr : ∀ p ∈ rounds, p.ok = true ∧ p.r1 ≠ r1Normal) (hk : last.ok = true)
  (h : s.wire = answers first.bytes ++ (answers (rounds.flatMap PollAnswer.bytes ++ last.bytes) ++ rest))
include ht hm hl hf hr hk h

/-- The readiness poll that ends ready (R244). -/
theorem initStep4_ready (hk1 : last.r1 = r1Normal) (htm : s.timer = notElapsed rounds.length ++ later) :
    ∃ fr tries, initStep4 s = (.ok, { s with
      session := { s.session with mode := .transfer, state := .standby, lastR1 := r1Normal }
      work := { s.work with fr := fr, tries := tries, t0 := Config.now s.nowCount }
      seq := .acmd41Repeat
      nowCount := s.nowCount + 1
      wire := rest
      timer := later
      trace := (first.events (argAcmd41First s.session.specVersion) ++ rounds.flatMap (PollAnswer.events · argZero) ++
        last.events argZero).reverse ++ s.trace }) := by
  obtain ⟨fr1, tries1, hfirst⟩ := initStep4_firstIssued first _ s ht hm hl hf h
  obtain ⟨fr, tries, hloop⟩ := pollLoop_answered crc7Fold_eq_bitwise (s.timer.length + 1) rounds last rest later
    (firstIssued s first _ fr1 tries1) ht hm hl hr hk hk1 (by simp [htm, notElapsed]) rfl htm
  refine ⟨fr, tries, ?_⟩
  rw [hfirst, hloop, andThen_ok]
  simp [firstIssued, setModeState]

/-- The readiness poll whose budget expires (R244). -/
theorem initStep4_expired (hk1 : last.r1 ≠ r1Normal) (htm : s.timer = notElapsed rounds.length ++ true :: later) :
    ∃ fr tries, initStep4 s = (.waitTimeout, { s with
      session.lastR1 := last.r1
      work := { s.work with fr := fr, tries := tries, t0 := Config.now s.nowCount }
      seq := .acmd41Repeat
      nowCount := s.nowCount + 1
      wire := rest
      timer := later
      trace := (first.events (argAcmd41First s.session.specVersion) ++ rounds.flatMap (PollAnswer.events · argZero) ++
        last.events argZero).reverse ++ s.trace }) := by
  obtain ⟨fr1, tries1, hfirst⟩ := initStep4_firstIssued first _ s ht hm hl hf h
  obtain ⟨fr, tries, hloop⟩ := pollLoop_expired (s.timer.length + 1) rounds last rest later
    (firstIssued s first _ fr1 tries1) ht hm hl hr hk hk1 (by simp [htm, notElapsed]) rfl htm
  refine ⟨fr, tries, ?_⟩
  rw [hfirst, hloop, andThen_error _ _ _ (by decide)]
  simp [firstIssued]

end ReadinessPoll

/-! ### Steps 5 to 7 -/

theorem classOfOcr_eq (s : State) : classOfOcr s =
    { s with session.capacityClass := if ccs s.session.ocr then .sdhc else s.session.capacityClass } := by
  unfold classOfOcr
  split <;> rfl

/-- The OCR of a version-2 card (R245). -/
theorem initStep5_v2 (a : CommandAnswer) (o0 o1 o2 o3 : Byte) (rest : List WireAnswer) (s : State) (ht : s.tableReady)
    (hv : s.session.specVersion = .v2) (ha : a.ok = true) (hr : a.r1 = r1Normal)
    (h : s.wire = answers (a.bytes ++ [o0, o1, o2, o3]) ++ rest) :
    initStep5 s = (.ok, { s with
      session := { s.session with
        lastR1 := r1Normal
        ocr := #v[o0, o1, o2, o3]
        capacityClass := if o0.getLsbD 6 then .sdhc else s.session.capacityClass }
      work := { s.work with fr := frameOf 58 argZero, tries := a.pads.length + 1 }
      seq := .step .initSession 5
      wire := rest
      trace := (a.events 58 argZero ++ received [o0, o1, o2, o3]).reverse ++ s.trace }) := by
  have hv5 : (atStep 5 s).session.specVersion = .v2 := hv
  rw [initStep5, if_pos hv5, cmd58Exchange,
    sendCommand_recvFour 58 argZero r1Normal .ocr a o0 o1 o2 o3 rest _ (by exact ht) ha hr (by exact h), andThen_ok,
    storeBytes_ocr, setBytes_four, classOfOcr_eq]
  rfl

/-- No OCR is read of a version-1 card (R245). -/
theorem initStep5_v1 (s : State) (hv : s.session.specVersion = .v1) : initStep5 s = (.ok, atStep 5 s) := by
  have hv5 : ¬ (atStep 5 s).session.specVersion = .v2 := by simp [atStep, hv]
  rw [initStep5, if_neg hv5]

/-- The CID and the CSD, both packets right (R247). -/
theorem initStep7_answered (a10 : CommandAnswer) (cid : PacketAnswer) (a9 : CommandAnswer) (csd : PacketAnswer)
    (rest : List WireAnswer) (s : State) (ht : s.tableReady) (ha10 : a10.ok = true) (hr10 : a10.r1 = r1Normal)
    (hcid : cid.ok s.params.tokenMatch 16 = true) (hgcid : cid.good = true) (ha9 : a9.ok = true) (hr9 : a9.r1 = r1Normal)
    (hcsd : csd.ok s.params.tokenMatch 16 = true) (hgcsd : csd.good = true)
    (h : s.wire = answers (a10.bytes ++ cid.bytes ++ a9.bytes ++ csd.bytes) ++ rest) :
    initStep7 s = (.ok, { s with
      session := { s.session with
        lastR1 := r1Normal
        cid := snapshotOf cid.payload
        csd := snapshotOf csd.payload }
      work := ({ s.work with fr := frameOf 9 argZero } : Work).afterPacket csd
      seq := .step .initSession 7
      wire := rest
      trace := (a10.events 10 argZero ++ received cid.bytes ++ a9.events 9 argZero ++ received csd.bytes).reverse ++
        s.trace }) := by
  have hw : s.wire = answers (a10.bytes ++ cid.bytes) ++ (answers (a9.bytes ++ csd.bytes) ++ rest) := by rw [h]; simp
  rw [initStep7, cmd10Exchange_answered argZero a10 cid _ _ (by exact ht) ha10 hr10 (by exact hcid) (by exact hw),
    PacketAnswer.code, if_pos hgcid, andThen_ok,
    cmd9Exchange_answered argZero a9 csd rest _ (by exact ht) ha9 hr9 (by exact hcsd) rfl, PacketAnswer.code, if_pos hgcsd]
  simp [atStep, setSeq, Work.afterPacket]

/-! ### Step 8 -/

theorem initStep8_v2 (s : State) (hv : s.session.specVersion = .v2) : initStep8 s = (.ok, deriveV2 (atStep 8 s)) := by
  rw [initStep8_eq, if_pos hv]

/-- The block length of a version-1 card is set by `CMD16` (R249). -/
theorem initStep8_v1 (a : CommandAnswer) (rest : List WireAnswer) (s : State) (ht : s.tableReady)
    (hv : s.session.specVersion = .v1) (ha : a.ok = true) (hr : a.r1 = r1Normal) (h : s.wire = answers a.bytes ++ rest) :
    initStep8 s = (.ok, deriveV1 (sentCommand (atStep 8 s) a 16 argCmd16 rest)) := by
  have hv2 : ¬ s.session.specVersion = .v2 := by simp [hv]
  rw [initStep8_eq, if_neg hv2, cmd16Exchange,
    sendCommand_answered crc7Fold_eq_bitwise 16 argCmd16 r1Normal a rest _ (by exact ht) ha (by exact h),
    CommandAnswer.code, if_pos hr, andThen_ok]

end Sys2Proof.Machine

namespace Sys2Proof.Settled

open Sys2Proof Sys2Proof.Machine

/-- Settles O32: the sequences inside the steps keep mode and state, so the assignments of the steps 1, 2 and 4 are all their
writes. -/
theorem initializeTrajectory : Obligations.InitializeTrajectory := by
  intro s
  have keeps := initializes_inPhase s.session.mode s.session.state
  refine ⟨(initializes_inPhase .inactive .ready).sendDummies _ _ ⟨rfl, rfl⟩, ?step2, ?step4, ?others⟩
  case step2 =>
    have hcmd := keeps.sendCommand 0 argZero r1Idle (csAssert (atStep 2 s)) ⟨rfl, rfl⟩
    rw [initStep2, cmd0Exchange, andThen_eq]
    split
    case isTrue => exact .inl ⟨rfl, rfl, rfl⟩
    case isFalse hne => exact .inr ⟨hne, hcmd⟩
  case step4 =>
    obtain ⟨hne, hkept⟩ | ⟨u, -, he⟩ := keeps.initStep4 s ⟨rfl, rfl⟩
    · exact .inr ⟨hne, hkept⟩
    · exact .inl (he ▸ ⟨rfl, rfl, rfl⟩)
  case others =>
    simp only [List.forall_mem_cons]
    refine ⟨?step3, ?step5, ⟨rfl, rfl⟩, keeps.initStep7 s ⟨rfl, rfl⟩, initStep8_inPhase s ⟨rfl, rfl⟩, ⟨rfl, rfl⟩, nofun⟩
    case step3 => exact keeps.initStep3 (fun _ _ h => h) s ⟨rfl, rfl⟩
    case step5 => exact keeps.initStep5 (fun _ _ _ h => h) s ⟨rfl, rfl⟩

/-- Settles O33: with the R1 expected the trailer decides, with another one the illegal-command flag, and without one nothing
is judged. -/
theorem versionNegotiation : Obligations.VersionNegotiation := by
  intro s a rest ht ha
  refine ⟨fun b0 b1 b2 b3 hr h => ?echoed, fun hr h => ?unexpected, fun pads hl hpads h => ?timeout⟩
  case echoed =>
    rw [initStep3_echoed a b0 b1 b2 b3 rest s ht ha hr h]
    by_cases hecho : b2 = 0x01#8 ∧ b3 = 0xAA#8
    · rw [judgeCmd8_echoed ((echoOk_iff b0 b1 b2 b3).2 hecho)]
      exact ⟨rfl, fun _ _ => ⟨rfl, rfl⟩, fun hne => absurd hecho hne⟩
    · rw [judgeCmd8_badEcho (mt (echoOk_iff b0 b1 b2 b3).1 hecho)]
      exact ⟨rfl, fun h2 h3 => absurd ⟨h2, h3⟩ hecho, fun _ => ⟨rfl, rfl⟩⟩
  case unexpected =>
    rw [initStep3_unexpected a rest s ht ha hr h]
    by_cases hillegal : a.r1.getLsbD 2 = true
    · rw [judgeCmd8_illegal hillegal]
      exact ⟨rfl, rfl, fun _ => ⟨rfl, rfl⟩, fun hclear => nomatch hillegal.symm.trans hclear⟩
    · rw [judgeCmd8_fatal hillegal]
      exact ⟨rfl, rfl, fun hset => absurd hset hillegal, fun _ => ⟨rfl, rfl⟩⟩
  case timeout =>
    obtain ⟨hdropped, -⟩ := a.ok_iff.1 ha
    have hnoR1 : pads.all (fun b => !isR1 b) = true := by simpa [isR1_eq] using hpads
    rw [initStep3_timeout a.dropped pads rest s ht hdropped hl hnoR1 h]
    exact ⟨rfl, rfl, rfl⟩

/-- Settles O34: the loop goes on after each round that was not ready until the budget expires, and only a poll that ends ready
writes mode and state. -/
theorem readinessPollExpires : Obligations.ReadinessPollExpires := by
  intro s first rounds last rest later ht hm hl hf hr hk hk1 h htm
  obtain ⟨fr, tries, he⟩ := initStep4_expired first rounds last rest later s ht hm hl hf hr hk (by rw [h]; simp)
    hk1 htm
  rw [he]
  exact ⟨rfl, rfl, rfl, rfl⟩

end Sys2Proof.Settled
end

section
/-! PROOF. A whole `INITIALIZE`, step after step, for a card of either version (44_init.md R253). -/

namespace Sys2Proof.Machine

/-- What a card of either version answers right in every step. -/
theorem InitAnswer.ok_iff (a : InitAnswer) (rule : TokenRule) :
    a.ok rule = true ↔ a.dummies.length = 9 ∧ (a.cmd0.ok = true ∧ a.cmd0.r1 = r1Idle) ∧ a.cmd8.ok = true ∧
      a.first.ok = true ∧ (∀ p ∈ a.rounds, p.ok = true ∧ p.r1 ≠ r1Normal) ∧ (a.last.ok = true ∧ a.last.r1 = r1Normal) ∧
      (a.cmd10.ok = true ∧ a.cmd10.r1 = r1Normal) ∧ (a.cid.ok rule 16 = true ∧ a.cid.good = true) ∧
      (a.cmd9.ok = true ∧ a.cmd9.r1 = r1Normal) ∧ (a.csd.ok rule 16 = true ∧ a.csd.good = true) := by
  simp [InitAnswer.ok, and_assoc]

/-- A step that succeeds hands its state to the rest of the operation. -/
theorem complete_andThen_ok {r : Code × State} {f : State → Code × State} {u t : State} (h : r = (.ok, u))
    (hf : complete (f u) = t) : complete (andThen r f) = t := by
  rw [h]
  exact hf

/-- The same for a step of which the frame and the count of its last command are not said. -/
theorem complete_andThen_exists {r : Code × State} {f : State → Code × State} {u : Vector Byte 6 → Nat → State} {t : State}
    (h : ∃ fr tries, r = (.ok, u fr tries)) (hf : ∀ fr tries, complete (f (u fr tries)) = t) :
    complete (andThen r f) = t := by
  obtain ⟨fr, tries, h⟩ := h
  exact complete_andThen_ok h (hf fr tries)

/-- An `INITIALIZE` started on an idle sequencer runs its steps and ends (R240). -/
theorem exec_initializeOp_idle {s t : State} {x y z : Word} (hs : s.seq = .idleSeq)
    (h : complete (initializeBody (startOp { s.operands with op := .initSession, cfg := ⟨x, y, z⟩ } s)) = t) :
    exec (.initializeOp x y z) s = .next t := by
  show runOperation _ true initializeBody s = _
  rw [runOperation_ready _ _ s hs, h]

end Sys2Proof.Machine

namespace Sys2Proof.Settled

open Sys2Proof Sys2Proof.Machine

/-- Settles O30: the steps succeed one after another, step 3 by the echo, and what the polls leave in the frame register and the
poll counter the register reads overwrite. -/
theorem initializesAVersion2Card : Obligations.InitializesAVersion2Card := by
  intro s transport cs busClockHz a t0 t1 cmd58 o0 o1 o2 o3 rest later hs hl ha hr8 ha58 hr58 h htm
  obtain ⟨hdummies, ⟨hcmd0, hr0⟩, hcmd8, hfirst, hrounds, ⟨hlast, hrlast⟩, ⟨hcmd10, hr10⟩, ⟨hcid, hgcid⟩, ⟨hcmd9, hr9⟩, hcsd,
    hgcsd⟩ := (a.ok_iff _).1 ha
  have hw : s.wire = answers a.dummies ++ (answers a.cmd0.bytes ++ (answers (a.cmd8.bytes ++ [t0, t1, 0x01#8, 0xAA#8]) ++
      (answers a.first.bytes ++ (answers (a.rounds.flatMap PollAnswer.bytes ++ a.last.bytes) ++
        (answers (cmd58.bytes ++ [o0, o1, o2, o3]) ++
          (answers (a.cmd10.bytes ++ a.cid.bytes ++ a.cmd9.bytes ++ a.csd.bytes) ++ rest)))))) := by
    rw [h]; simp [InitAnswer.opening, InitAnswer.poll, InitAnswer.registers]
  refine exec_initializeOp_idle hs ?_
  refine complete_andThen_ok (initStep1_answered a.dummies _ _ hdummies hw) ?_
  refine complete_andThen_ok (initStep2_answered a.cmd0 _ _ ⟨rfl, rfl⟩ hcmd0 hr0 rfl) ?_
  refine complete_andThen_ok ((initStep3_echoed a.cmd8 t0 t1 0x01#8 0xAA#8 _ _ ⟨rfl, rfl⟩ hcmd8 hr8 rfl).trans
    (judgeCmd8_echoed rfl)) ?_
  refine complete_andThen_exists (initStep4_ready a.first a.rounds a.last _ later _ ⟨rfl, rfl⟩ rfl hl hfirst hrounds hlast rfl
    hrlast htm) fun fr tries => ?_
  refine complete_andThen_ok (initStep5_v2 cmd58 o0 o1 o2 o3 _ _ ⟨rfl, rfl⟩ rfl ha58 hr58 rfl) ?_
  refine complete_andThen_ok rfl ?_
  refine complete_andThen_ok (initStep7_answered a.cmd10 a.cid a.cmd9 a.csd rest _ ⟨rfl, rfl⟩ hcmd10 hr10 hcid hgcid hcmd9 hr9
    hcsd hgcsd rfl) ?_
  refine complete_andThen_ok (initStep8_v2 _ rfl) ?_
  simp only [InitAnswer.openingEvents, InitAnswer.pollEvents, InitAnswer.registerEvents, List.reverse_append,
    List.append_assoc, hs]
  rfl

/-- Settles O31: step 3 succeeds by the illegal-command flag, so step 5 reads nothing and step 8 sends `CMD16`. -/
theorem initializesAVersion1Card : Obligations.InitializesAVersion1Card := by
  intro s transport cs busClockHz a cmd16 rest later hs hl ha hillegal ha16 hr16 h htm
  obtain ⟨hdummies, ⟨hcmd0, hr0⟩, hcmd8, hfirst, hrounds, ⟨hlast, hrlast⟩, ⟨hcmd10, hr10⟩, ⟨hcid, hgcid⟩, ⟨hcmd9, hr9⟩, hcsd,
    hgcsd⟩ := (a.ok_iff _).1 ha
  have hw : s.wire = answers a.dummies ++ (answers a.cmd0.bytes ++ (answers a.cmd8.bytes ++
      (answers a.first.bytes ++ (answers (a.rounds.flatMap PollAnswer.bytes ++ a.last.bytes) ++
        (answers (a.cmd10.bytes ++ a.cid.bytes ++ a.cmd9.bytes ++ a.csd.bytes) ++ (answers cmd16.bytes ++ rest)))))) := by
    rw [h]; simp [InitAnswer.opening, InitAnswer.poll, InitAnswer.registers]
  have hr8 : a.cmd8.r1 ≠ r1Idle := fun he => absurd (he ▸ hillegal) (by decide : ¬ r1Idle.getLsbD 2 = true)
  refine exec_initializeOp_idle hs ?_
  refine complete_andThen_ok (initStep1_answered a.dummies _ _ hdummies hw) ?_
  refine complete_andThen_ok (initStep2_answered a.cmd0 _ _ ⟨rfl, rfl⟩ hcmd0 hr0 rfl) ?_
  refine complete_andThen_ok ((initStep3_unexpected a.cmd8 _ _ ⟨rfl, rfl⟩ hcmd8 hr8 rfl).trans (judgeCmd8_illegal hillegal)) ?_
  refine complete_andThen_exists (initStep4_ready a.first a.rounds a.last _ later _ ⟨rfl, rfl⟩ rfl hl hfirst hrounds hlast rfl
    hrlast htm) fun fr tries => ?_
  refine complete_andThen_ok (initStep5_v1 _ rfl) ?_
  refine complete_andThen_ok rfl ?_
  refine complete_andThen_ok (initStep7_answered a.cmd10 a.cid a.cmd9 a.csd _ _ ⟨rfl, rfl⟩ hcmd10 hr10 hcid hgcid hcmd9 hr9
    hcsd hgcsd rfl) ?_
  refine complete_andThen_ok (initStep8_v1 cmd16 rest _ ⟨rfl, rfl⟩ rfl ha16 hr16 rfl) ?_
  simp only [sentCommand, hr16, InitAnswer.openingEvents, InitAnswer.pollEvents, InitAnswer.registerEvents,
    List.reverse_append, List.append_assoc, hs]
  rfl

end Sys2Proof.Settled
end

section
/-! PROOF. The six transfers whatever the environment answers: refused outside `(Transfer, Standby)`, bracketed by chip-select, and
what each leaves unchanged (45_transfer.md R280 to R291). -/

namespace Sys2Proof.Machine

/-! ### Admission -/

/-- A transfer that is not admitted, or has no table, is refused (R280). -/
theorem RunsTransfer.notReady {i : Instr} {s : State} (hi : RunsTransfer i s) (hs : s.seq = .idleSeq)
    (h : commandReady s = false) : exec i s = .next { s with res := .refused } := by
  obtain ⟨ops, ready, body, he, hready, -⟩ := hi
  obtain rfl : ready = false := by
    cases ready with
    | false => rfl
    | true => cases h.symm.trans (hready rfl)
  rw [he, runOperation_notReady ops body s hs]

theorem commandReady_notAdmitted {s : State} (h : ¬(s.session.mode = .transfer ∧ s.session.state = .standby)) :
    commandReady s = false := by
  by_contra hready
  obtain ⟨hmode, hstate, -⟩ := commandReady_admitted s (by simpa using hready)
  exact h ⟨hmode, hstate⟩

/-! ### The bracket -/

/-- A body whose first write is `CsAssert`: once that has established it, a property kept by the sequences and the register moves
of a transfer holds up to the end. -/
def OpensBracket (body : State → Code × State) : Prop :=
  ∀ P, Sequences P → Moves P → ∀ s, P (csAssert s) → EndsIn P (body s)

theorem readBlockBody_opensBracket : OpensBracket readBlockBody :=
  fun _ hP hM s h => hP.readBlockBody hM hP.receives (fun _ _ => hP.stores _ _) s h

theorem readMultipleBlockBody_opensBracket : OpensBracket readMultipleBlockBody :=
  fun P hP hM _ h => andThen_endsIn P _ _ (hP.cmd18Exchange _ _ (hM.seq _ _ (hM.state _ _ h))) fun _ hs =>
    andThen_endsIn P _ _ (hP.cmd12Exchange hP.toWaits _ _ (hM.seq _ _ hs)) fun _ hs =>
      closeTransfer_endsIn P hM _ (hM.seq _ _ hs)

theorem writeBlockBody_opensBracket : OpensBracket writeBlockBody :=
  fun _ hP hM s h => hP.writeBlockBody hM hP.toWaits hP.sends hP.lastR2 s h

theorem writeMultipleBlockBody_opensBracket : OpensBracket writeMultipleBlockBody :=
  fun _ hP hM s h => hP.writeMultipleBlockBody hM hP.toWaits hP.sends hP.indexes hP.receives (hP.stores _ _) hP.lastR2
    hP.count s h

theorem readStatusBody_opensBracket : OpensBracket readStatusBody :=
  fun _ hP _ s h => hP.readStatusBody hP.lastR2 s h

theorem getWrittenBlockCountBody_opensBracket : OpensBracket getWrittenBlockCountBody :=
  fun _ hP _ s h => hP.getWrittenBlockCountBody hP.receives (hP.stores _ _) hP.count s h

/-- Since the trace `old`: chip-select asserted, then nothing but exchanges. -/
def State.selectedSince (old : List Event) (s : State) : Prop :=
  ∃ events, s.trace = events ++ .csAssert :: old ∧ ∀ e ∈ events, e.isExchange = true

/-- Of the writes of a sequence only an exchange is an event. -/
theorem sequences_selectedSince (old : List Event) : Sequences (State.selectedSince old) where
  exchange := by
    rintro s w e he ⟨events, htrace, hall⟩
    exact ⟨e :: events, congrArg (e :: ·) htrace, List.forall_mem_cons.2 ⟨he, hall⟩⟩
  tries _ _ h := h
  frame _ _ h := h
  lastR1 _ _ _ h := h
  timer _ _ h := h
  start _ h := h
  receives _ _ _ _ h := h
  sends _ _ _ h := h
  indexes _ _ h := h
  stores dst _ s k v _ h := by
    rw [State.selectedSince, storeByte_trace dst k v s]
    exact h
  lastR2 _ _ h := h
  count _ _ h := h
  present _ _ h := h
  result _ _ h := h

theorem moves_selectedSince (old : List Event) : Moves (State.selectedSince old) := ⟨fun _ _ h => h, fun _ _ h => h⟩

/-- An operation with such a body that is not refused ends with the release of chip-select, by itself or through the handler
(R281). -/
theorem OpensBracket.brackets {body : State → Code × State} (hbody : OpensBracket body) {ops : Operands} {ready : Bool}
    {s t : State} (h : runOperation ops ready body s = .next t) (hres : t.res ≠ .refused) :
    ∃ events : List Event, t.trace = .csDeassert :: events ++ .csAssert :: s.trace ∧ ∀ e ∈ events, e.isExchange = true := by
  obtain ⟨-, ⟨-, rfl⟩ | ⟨-, rfl⟩⟩ := runOperation_next ops ready body s t h
  · exact absurd rfl hres
  obtain ⟨u, ⟨events, htrace, hall⟩, he⟩ | ⟨hcode, events, htrace, hall⟩ :=
    hbody _ (sequences_selectedSince s.trace) (moves_selectedSince s.trace) (startOp ops s) ⟨[], rfl, nofun⟩
  · rw [he]
    exact ⟨events, congrArg (List.cons Event.csDeassert) htrace, hall⟩
  · rw [complete_of_error hcode]
    exact ⟨events, congrArg (List.cons Event.csDeassert) htrace, hall⟩

/-! ### What a transfer leaves unchanged -/

/-- The state `t` with the registers that every transfer writes, but for the operands, as they are in `s`. -/
def State.transferRestored (s t : State) : State :=
  { t with
    session := { t.session with mode := s.session.mode, state := s.session.state, lastR1 := s.session.lastR1 }
    work := { t.work with fr := s.work.fr, tries := s.work.tries, seqResult := s.work.seqResult }
    res := s.res
    seq := s.seq
    csLevel := s.csLevel
    wire := s.wire
    trace := s.trace }

/-- A transfer keeps every property that does not look at those registers. -/
theorem commands_transferRestored (s : State) (Q : State → Prop) : Commands fun t => Q (s.transferRestored t) :=
  ⟨⟨⟨fun _ _ _ _ h => h⟩, fun _ _ h => h⟩, fun _ _ h => h, fun _ _ _ h => h⟩

theorem moves_transferRestored (s : State) (Q : State → Prop) : Moves fun t => Q (s.transferRestored t) :=
  ⟨fun _ _ h => h, fun _ _ h => h⟩

/-- The end of an operation writes those registers only, whichever way it ends. -/
theorem transferRestored_complete (s : State) (r : Code × State) :
    s.transferRestored (complete r) = s.transferRestored r.2 := by
  obtain ⟨c, t⟩ := r
  cases c <;> rfl

/-- Everything a transfer can do, whatever it ends with: it was refused, or it is idle again, and what its body kept since the
operands were loaded holds. -/
theorem runOperation_transferRestored {Q : State → Prop} {ops : Operands} {ready : Bool} {body : State → Code × State}
    {s t : State} (h : runOperation ops ready body s = .next t)
    (hbody : EndsIn (fun u => Q ((startOp ops s).transferRestored u)) (body (startOp ops s))) :
    t = refuse s ∨ t.seq = s.seq ∧ Q ((startOp ops s).transferRestored t) := by
  obtain ⟨hs, ⟨-, rfl⟩ | ⟨-, rfl⟩⟩ := runOperation_next ops ready body s t h
  · exact .inl rfl
  · rw [transferRestored_complete]
    exact .inr ⟨(complete_seq _).trans hs.symm, hbody.keeps fun _ h => h⟩

/-- The operands `o` with those of a single-block transfer as in `saved`. -/
def Operands.singleRestored (saved o : Operands) : Operands :=
  { o with op := saved.op, addr := saved.addr, buf := saved.buf }

/-- The operands `o` with those of a multi-block transfer as in `saved`. -/
def Operands.multipleRestored (saved o : Operands) : Operands :=
  { o with op := saved.op, addr := saved.addr, buf := saved.buf, count := saved.count }

/-- The operands `o` with the operation of a query as in `saved`. -/
def Operands.queryRestored (saved o : Operands) : Operands := { o with op := saved.op }

/-- A state that differs from the started operation in nothing is the one before it, but for the operands and the sequencer. -/
theorem eq_of_startOp {s u : State} {ops : Operands} (restore : Operands → Operands) {q : SeqPos} (h : u = startOp ops s)
    (hops : restore ops = s.operands) (hseq : q = s.seq) : { u with operands := restore u.operands, seq := q } = s := by
  subst h hseq
  show { s with operands := restore ops } = s
  rw [hops]

/-- `t` is `s` but for `S.lastR2` and what `sameButSent` names. -/
def State.sameButWrite (s t : State) : Prop := s.sameButSent { t with session.lastR2 := s.session.lastR2 }

/-- `t` is `s` but for the block index, the written-block count, its scratch, the receiver's registers and what `sameButWrite`
names. -/
def State.sameButWrites (s t : State) : Prop :=
  s.sameButWrite { s.receiverRestored t with
    session.lastWrittenBlockCount := s.session.lastWrittenBlockCount
    work := { (s.receiverRestored t).work with w := s.work.w, i := s.work.i } }

/-- `t` is `s` but for what a wait bounded by time writes and what `sameButBlocks` names. -/
def State.sameButStream (s : State) (n : Nat) (t : State) : Prop :=
  s.sameButBlocks n { t with work.t0 := s.work.t0, timer := s.timer, nowCount := s.nowCount }

theorem storesInto_transferBuffer (s : State) (n : Nat) :
    StoresInto s n fun t => s.sameButBuffer n (s.transferRestored t) :=
  fun _ h => ⟨h.operands, h.blockSize, fun _ v => h.write v⟩

theorem storesInto_transferStream (s : State) (n : Nat) :
    StoresInto s n fun t => s.sameButStream n (s.transferRestored t) := by
  intro t h
  have hbuffer : s.sameButBuffer n _ := h
  exact ⟨hbuffer.operands, hbuffer.blockSize, fun _ v => hbuffer.write v⟩

theorem readBlockBody_transferBuffer (s : State) (hwf : Memory.wf s.mem = true) :
    EndsIn (fun u => s.sameButBuffer (blockLength s) (s.transferRestored u)) (readBlockBody s) :=
  (commands_transferRestored s _).readBlockBody (moves_transferRestored s _) (fun _ _ _ _ h => h)
    (fun _ hu => (storesInto_transferBuffer s _).stableAt hu (by omega)) s (State.sameButBuffer.refl hwf _)

theorem readMultipleBlockBody_transferStream (s : State) (hwf : Memory.wf s.mem = true) :
    EndsIn (fun u => s.sameButStream (s.operands.count.toNat * blockLength s) (s.transferRestored u))
      (readMultipleBlockBody s) := by
  have hP := storesInto_transferStream s (s.operands.count.toNat * blockLength s)
  have hcount : ∀ u, s.sameButStream (s.operands.count.toNat * blockLength s) (s.transferRestored u) →
      u.operands.count = s.operands.count := fun u hu => by
    obtain ⟨hops, -⟩ := hP u hu
    rw [hops]
  refine (commands_transferRestored s _).readMultipleBlockBody (moves_transferRestored s _)
    ⟨fun _ _ h => h, fun _ h => h⟩ (fun _ _ _ _ h => h) (fun _ _ h => h)
    (fun u i hi hu => hP.stableAt hu (Nat.mul_le_mul_right _ ?_)) s.operands.count hcount s (State.sameButBuffer.refl hwf _)
  rw [← hcount u hu]
  exact hi

theorem writeBlockBody_transferWrite (s : State) :
    EndsIn (fun u => s.sameButWrite (s.transferRestored u)) (writeBlockBody s) :=
  (commands_transferRestored s _).writeBlockBody (moves_transferRestored s _) ⟨fun _ _ h => h, fun _ h => h⟩
    (fun _ _ _ h => h) (fun _ _ h => h) s rfl

theorem writeMultipleBlockBody_transferWrites (s : State) :
    EndsIn (fun u => s.sameButWrites (s.transferRestored u)) (writeMultipleBlockBody s) :=
  (commands_transferRestored s _).writeMultipleBlockBody (moves_transferRestored s _) ⟨fun _ _ h => h, fun _ h => h⟩
    (fun _ _ _ h => h) (fun _ _ h => h) (fun _ _ _ _ h => h) (fun _ _ _ _ h => h) (fun _ _ h => h) (fun _ _ h => h) s rfl

theorem readStatusBody_transferLastR2 (s : State) :
    EndsIn (fun u => s.sameButLastR2 (s.transferRestored u)) (readStatusBody s) :=
  (commands_transferRestored s _).readStatusBody (fun _ _ h => h) s rfl

theorem getWrittenBlockCountBody_transferCount (s : State) :
    EndsIn (fun u => s.sameButCount (s.transferRestored u)) (getWrittenBlockCountBody s) :=
  (commands_transferRestored s _).getWrittenBlockCountBody (fun _ _ _ _ h => h) (fun _ _ _ _ h => h) (fun _ _ h => h) s rfl

end Sys2Proof.Machine

namespace Sys2Proof.Settled

open Sys2Proof Sys2Proof.Machine

/-- Settles O46: each of the six runs only when it is admitted. -/
theorem refusedUnlessAdmitted : Obligations.RefusedUnlessAdmitted := by
  intro s x y z hs hadmitted i hi
  exact (runsTransfer_of_mem s hi).notReady hs (commandReady_notAdmitted hadmitted)

/-- Settles O49: each body opens with chip-select, only its exchanges are events, and it ends with the release. -/
theorem chipSelectBracketsATransfer : Obligations.ChipSelectBracketsATransfer := by
  intro s t x y z i hi h hres
  simp only [List.mem_cons, List.not_mem_nil, or_false] at hi
  obtain rfl | rfl | rfl | rfl | rfl | rfl := hi
  · exact readBlockBody_opensBracket.brackets h hres
  · exact writeBlockBody_opensBracket.brackets h hres
  · exact readMultipleBlockBody_opensBracket.brackets h hres
  · exact writeMultipleBlockBody_opensBracket.brackets h hres
  · exact readStatusBody_opensBracket.brackets h hres
  · exact getWrittenBlockCountBody_opensBracket.brackets h hres

/-- Settles O53: what each body keeps since its operands were loaded; restoring the operands it loads gives those before. -/
theorem transferFrame : Obligations.TransferFrame := by
  refine ⟨fun s t addr buf count hwf => ⟨fun h => ?readBlock, fun h => ?readMultipleBlock⟩,
    fun s t addr buf count => ⟨fun h => ?writeBlock, fun h => ?writeMultipleBlock, fun h => ?readStatus, fun h => ?query⟩⟩
  case readBlock =>
    obtain rfl | ⟨hseq, hsame, -, hread⟩ := runOperation_transferRestored h (readBlockBody_transferBuffer _ hwf)
    · exact ⟨rfl, fun _ _ => rfl⟩
    · exact ⟨eq_of_startOp s.operands.singleRestored hsame rfl hseq, hread⟩
  case readMultipleBlock =>
    obtain rfl | ⟨hseq, hsame, -, hread⟩ := runOperation_transferRestored h (readMultipleBlockBody_transferStream _ hwf)
    · exact ⟨rfl, fun _ _ => rfl⟩
    · exact ⟨eq_of_startOp s.operands.multipleRestored hsame rfl hseq, hread⟩
  case writeBlock =>
    obtain rfl | ⟨hseq, hsame⟩ := runOperation_transferRestored h (writeBlockBody_transferWrite _)
    · rfl
    · exact eq_of_startOp s.operands.singleRestored hsame rfl hseq
  case writeMultipleBlock =>
    obtain rfl | ⟨hseq, hsame⟩ := runOperation_transferRestored h (writeMultipleBlockBody_transferWrites _)
    · rfl
    · exact eq_of_startOp s.operands.multipleRestored hsame rfl hseq
  case readStatus =>
    obtain rfl | ⟨hseq, hsame⟩ := runOperation_transferRestored h (readStatusBody_transferLastR2 _)
    · rfl
    · exact eq_of_startOp s.operands.queryRestored hsame rfl hseq
  case query =>
    obtain rfl | ⟨hseq, hsame⟩ := runOperation_transferRestored h (getWrittenBlockCountBody_transferCount _)
    · rfl
    · exact eq_of_startOp s.operands.queryRestored hsame rfl hseq

end Sys2Proof.Settled
end

section
/-! PROOF. The queries and the writes of the host against a card that answers, from their admission to their end: the two queries,
`WRITE_MULTIPLE_BLOCK` with its stop token and its status, and the diagnoses of a rejected block (45_transfer.md R285 to R291,
60_exceptions.md R373). -/

namespace Sys2Proof.Machine

/-! ### The queries -/

/-- A status read whose second byte is no error under the parameter (R288). -/
theorem statusSeq_answered (a : CommandAnswer) (r2 : Byte) (rest : List WireAnswer) (s : State) (ht : s.tableReady)
    (ha : a.ok = true) (hr : a.r1 = r1Normal) (hr2 : s.params.r2NonzeroIsError = true → r2 = 0x00#8)
    (h : s.wire = answers (a.bytes ++ [r2]) ++ rest) :
    statusSeq s = (.ok, { s with
      session.lastR1 := r1Normal
      session.lastR2 := r2
      work := { s.work with fr := frameOf 13 argZero, tries := a.pads.length + 1 }
      wire := rest
      trace := (a.events 13 argZero ++ received [r2]).reverse ++ s.trace }) := by
  have hcode : ¬(s.params.r2NonzeroIsError = true ∧ r2 ≠ 0x00#8) := fun ⟨hp, hne⟩ => hne (hr2 hp)
  rw [statusSeq, cmd13Exchange_answered argZero a r2 rest s ht ha hr h, if_neg hcode]

/-- All that the end of a query writes: `S.state` stays (R289, R291). -/
theorem complete_closeQuery (s : State) : complete (closeQuery s) =
    { s with
      work.seqResult := .ok
      res := .ok
      seq := .idleSeq
      csLevel := .deasserted
      trace := .csDeassert :: s.trace } := rfl

/-- An admitted query is its sequence between chip-select and its release. -/
theorem runOperation_query (ops : Operands) (sequence : State → Code × State) (s : State) (hs : s.seq = .idleSeq)
    (hm : s.session.mode = .transfer) (hp : s.session.state = .standby) (ht : s.tableReady) :
    runOperation ops (commandReady s) (fun s => andThen (sequence (csAssert s)) closeQuery) s =
      .next (complete (andThen (sequence (csAssert (startOp ops s))) closeQuery)) := by
  rw [commandReady_of s hm hp ht, runOperation_ready _ _ s hs]

/-! ### `WRITE_MULTIPLE_BLOCK` -/

/-- The written packets write none of the registers of a command, and read none. -/
theorem Work.afterWrites_command (stamps : Nat) (payloads : List (List Byte)) (i now n : Nat) (fr : Vector Byte 6) (w : Work) :
    Work.afterWrites stamps payloads i now { w with fr := fr, tries := n } =
      { Work.afterWrites stamps payloads i now w with fr := fr, tries := n } := by
  induction payloads generalizing i now w with
  | nil => rfl
  | cons payload payloads ih =>
    exact ih (i + 1) (now + stamps)
      { w with i := i, crcTx := crc16 payload, k := payload.length, t0 := Config.now (now + stamps - 1) }

/-- One dummy byte is one exchange, whatever byte arrives with it. -/
theorem sendDummy_answered (rx : Byte) (rest : List WireAnswer) (s : State) (h : s.wire = .byte rx :: rest) :
    sendDummies 1 s = (.ok, { s with wire := rest, trace := .exchange fill rx :: s.trace }) :=
  sendDummies_answered [rx] rest s h

/-- The stop token, a dummy byte, the busy wait, `Standby`, and the status (R286). -/
theorem stopWrite_answered (d1 d2 : Byte) (busy : List Byte) (status : CommandAnswer) (r2 : Byte) (rest : List WireAnswer)
    (later : List Bool) (s : State) (ht : s.tableReady) (hbusy : busy.all (fun b => b != 0xFF#8) = true)
    (hok : status.ok = true) (hr : status.r1 = r1Normal) (hr2 : s.params.r2NonzeroIsError = true → r2 = 0x00#8)
    (h : s.wire = answers ([d1, d2] ++ busy ++ [0xFF#8] ++ status.bytes ++ [r2]) ++ rest)
    (htm : s.timer = notElapsed busy.length ++ later) :
    stopWrite s = closeQuery { s with
      session.state := .standby
      session.lastR1 := r1Normal
      session.lastR2 := r2
      work := { s.work with fr := frameOf 13 argZero, tries := status.pads.length + 1, t0 := Config.now s.nowCount }
      nowCount := s.nowCount + 1
      wire := rest
      timer := later
      trace := ([Event.exchange tokenStopTranByte d1] ++ received ([d2] ++ busy ++ [0xFF#8]) ++ status.events 13 argZero ++
        received [r2]).reverse ++ s.trace } := by
  rw [stopWrite, sendToken, send8_byte tokenStopTranByte d1
      (.byte d2 :: (answers (busy ++ [0xFF#8]) ++ (answers (status.bytes ++ [r2]) ++ rest))) s (by rw [h]; simp), andThen_ok,
    sendDummy_answered d2 _ _ rfl, andThen_ok, busyWait_answered busy _ later _ hbusy rfl (by exact htm), andThen_ok,
    statusSeq_answered status r2 rest _ (by exact ht) hok hr (by exact hr2) rfl, andThen_ok]
  simp [setState]

/-- An admitted `WRITE_MULTIPLE_BLOCK` is its `CMD25`, the recovery when a block is rejected, and else its end. -/
theorem exec_writeMultipleBlock_admitted (addr buf count : Word) (s : State) (hs : s.seq = .idleSeq)
    (hm : s.session.mode = .transfer) (hp : s.session.state = .standby) (ht : s.tableReady)
    (he : payloadsEven count.toNat s = true) :
    exec (.writeMultipleBlock addr buf count) s = .next (complete
      (andThen (onRejected multiWriteRecovery (cmd25Exchange (xlate s.session addr)
          (writeOpened { s.operands with op := .writeMultipleBlock, addr := addr, buf := buf, count := count } s)))
        fun s => stopWrite (nextStep 3 s))) := by
  show runOperation _ (blockReady count.toNat s) writeMultipleBlockBody s = _
  rw [blockReady_of _ s hm hp ht he, runOperation_ready _ _ s hs]
  rfl

/-! ### Rejected blocks -/

/-- Either code of a rejection is diagnosed, and stays (R285, 60_exceptions.md R373). -/
theorem onRejected_rejection (diagnose : State → State) (r : Rejection) (s : State) :
    onRejected diagnose (r.code, s) = (r.code, diagnose s) := by
  unfold Rejection.code
  split <;> rfl

/-- An operation that ends with the code of a rejection went through the handler. -/
theorem complete_rejection (r : Rejection) (s : State) :
    (complete (r.code, s)).res = r.code ∧ (complete (r.code, s)).session.mode = .inactive ∧
      (complete (r.code, s)).session.state = .inactive ∧ (complete (r.code, s)).csLevel = .deasserted ∧
      (complete (r.code, s)).seq = .idleSeq :=
  ⟨complete_res _, complete_failed _ (by rw [complete_res]; exact r.code_ne_ok)⟩

/-- The end of an operation whose rejected block was diagnosed, from what the diagnosis leaves. -/
theorem complete_diagnosed {c : Code} {diagnose : State → State} {u : State} {left ended : Work → State}
    (h : ∃ w, diagnose u = left w) (hend : ∀ w, complete (c, left w) = ended { w with seqResult := c }) :
    ∃ w, (.next (complete (c, diagnose u)) : Result) = .next (ended w) := by
  obtain ⟨w, hw⟩ := h
  exact ⟨_, congrArg _ (by rw [hw, hend w])⟩

/-- A card that rejects the block: no busy wait (R285). -/
theorem cmd24Exchange_rejected (arg : Word) (a : CommandAnswer) (r : Rejection) (rest : List WireAnswer) (later : List Bool)
    (s : State) (ht : s.tableReady) (he : s.session.blockSize.toNat % 2 = 0) (ha : a.ok = true) (hr : a.r1 = r1Normal)
    (hrej : r.ok s.session.blockSize.toNat = true) (h : s.wire = answers (a.bytes ++ r.bytes) ++ rest)
    (htm : s.timer = notElapsed r.pads.length ++ later) :
    ∃ w, cmd24Exchange arg s = (r.code, { s with
      session.lastR1 := r1Normal
      work := w
      nowCount := s.nowCount + 1
      wire := rest
      timer := later
      trace := (a.events 24 arg ++ r.events tokenStartByte (blockPayload s s.operands.buf 0)).reverse ++ s.trace }) := by
  rw [cmd24Exchange_eq arg s he, sendCommand_expected crc7Fold_eq_bitwise 24 arg r1Normal a r.bytes rest s ht ha hr h,
    andThen_ok, rejectedBlock_answered crc16Words_eq tokenStartByte 0 r rest later _ (by exact he) (by exact hrej) rfl
      (by exact htm)]
  simp only [sentCommand, hr, List.reverse_append, List.append_assoc]
  exact ⟨_, rfl⟩

/-- The status read after a rejected block: its second byte is taken only after the expected R1 (R288). -/
theorem diagnoseWrite_answered (status : CommandAnswer) (r2 : Byte) (rest : List WireAnswer) (s : State) (ht : s.tableReady)
    (hok : status.ok = true) (h : s.wire = answers (status.bytes ++ [r2]) ++ rest) :
    ∃ w, diagnoseWrite s = { s with
      session.lastR1 := status.r1
      session.lastR2 := if status.r1 = r1Normal then r2 else s.session.lastR2
      work := w
      wire := if status.r1 = r1Normal then rest else .byte r2 :: rest
      trace := (status.events 13 argZero ++ if status.r1 = r1Normal then received [r2] else []).reverse ++ s.trace } := by
  by_cases hr : status.r1 = r1Normal
  · rw [diagnoseWrite, statusSeq, cmd13Exchange_answered argZero status r2 rest s ht hok hr h]
    simp only [hr, if_true]
    exact ⟨_, rfl⟩
  · rw [diagnoseWrite, statusSeq, cmd13Exchange, andThen_sendCommand_unexpected 13 argZero r1Normal status (.byte r2 :: rest) s
      ht hok (by rw [h]; simp) hr]
    simp only [hr, if_false, List.append_nil]
    exact ⟨_, rfl⟩

/-- Some blocks accepted, then one rejected: no later block is sent (R286). -/
theorem cmd25Exchange_rejected (arg : Word) (a : CommandAnswer) (dummy : Byte) (blocks : List WriteAnswer) (r : Rejection)
    (rest : List WireAnswer) (later : List Bool) (s : State) (ht : s.tableReady) (he : s.session.blockSize.toNat % 2 = 0)
    (ha : a.ok = true) (hr : a.r1 = r1Normal) (hn : blocks.length < s.operands.count.toNat)
    (hb : ∀ b ∈ blocks, b.ok s.session.blockSize.toNat = true) (hrej : r.ok s.session.blockSize.toNat = true)
    (h : s.wire = answers (a.bytes ++ [dummy] ++ blocks.flatMap WriteAnswer.bytes ++ r.bytes) ++ rest)
    (htm : s.timer = notElapsed ((blocks.map WriteAnswer.queries).sum + r.pads.length) ++ later) :
    ∃ w, cmd25Exchange arg s = (r.code, { s with
      session.lastR1 := r1Normal
      work := w
      nowCount := s.nowCount + s.stamps * blocks.length + 1
      wire := rest
      timer := later
      trace := (a.events 25 arg ++ received [dummy] ++
        writeEvents tokenMultiWriteByte blocks ((List.range blocks.length).map (blockPayload s s.operands.buf)) ++
        r.events tokenMultiWriteByte (blockPayload s s.operands.buf blocks.length)).reverse ++ s.trace }) := by
  obtain ⟨w, hblocks⟩ := writeBlocks_rejected crc16Words_eq blocks r s.operands.count.toNat rest later
    { sentCommand s a 25 arg (answers (blocks.flatMap WriteAnswer.bytes ++ r.bytes) ++ rest) with
      trace := (received [dummy]).reverse ++ ((a.events 25 arg).reverse ++ s.trace) } he hb hrej hn rfl htm
  refine ⟨w, ?_⟩
  rw [cmd25Exchange_eq arg s (payloadsEven_of _ s he), sendCommand_expected crc7Fold_eq_bitwise 25 arg r1Normal a
      ([dummy] ++ (blocks.flatMap WriteAnswer.bytes ++ r.bytes)) rest s ht ha hr
      (by rw [h]; simp only [List.append_assoc]), andThen_ok, sendDummy_answered dummy _ _ rfl, andThen_ok]
  refine hblocks.trans ?_
  simp only [sentCommand, hr, List.reverse_append, List.append_assoc]
  rfl

end Sys2Proof.Machine

namespace Sys2Proof.Settled

open Sys2Proof Sys2Proof.Machine

/-- Settles O39: each query is its sequence between chip-select and its release. -/
theorem queriesComplete : Obligations.QueriesComplete := by
  refine ⟨fun s a r2 rest hs hm hst ht ha hr hr2 h => ?status,
    fun s app a p b0 b1 b2 b3 rest hs hm hst ht happ hr55 ha hr hb hp hg h => ?count⟩
  case status =>
    refine (runOperation_query _ statusSeq s hs hm hst ht).trans ?_
    rw [statusSeq_answered a r2 rest _ (by exact ht) ha hr (by exact hr2) (by exact h), andThen_ok, complete_closeQuery]
    simp [csAssert, startOp, hs, r1Normal, argZero]
  case count =>
    have hcode : p.code = .ok := if_pos hg
    refine (runOperation_query _ wbcSeq s hs hm hst ht).trans ?_
    rw [wbcSeq, acmd22Exchange_answered argZero app a p b0 b1 b2 b3 rest _ (by exact ht) happ
        (by rw [hr55]; exact congrArg expectedOfCmd55 hm) ha hr hb (by exact hp) (by exact h), hcode, andThen_ok,
      complete_closeQuery]
    simp [csAssert, startOp, hs, hg, r1Normal, argZero, Work.afterPacket]

/-- Settles O38: after `CMD25` with its accepted blocks come the stop token, the busy wait and the status. -/
theorem writeMultipleBlockCompletes : Obligations.WriteMultipleBlockCompletes := by
  intro s addr buf count a d0 blocks d1 d2 busy status r2 rest later hs hm hst ht he ha hr hn hb hbusy hok hrs hr2 h htm
  rw [exec_writeMultipleBlock_admitted addr buf count s hs hm hst ht he,
    cmd25Exchange_answered _ a d0 blocks (answers ([d1, d2] ++ busy ++ [0xFF#8] ++ status.bytes ++ [r2]) ++ rest)
      (notElapsed busy.length ++ later) _ (by exact ht) (by exact he) ha hr (by exact hn) (by exact hb)
      (by rw [writeOpened_eq, h]; simp)
      (by rw [writeOpened_eq, htm, notElapsed, List.replicate_add, List.append_assoc]; rfl),
    onRejected_ok, andThen_ok,
    stopWrite_answered d1 d2 busy status r2 rest later _ (by exact ht) hbusy hok hrs (by exact hr2) rfl rfl,
    complete_closeQuery, Work.afterWrites_command]
  simp only [List.reverse_append, List.append_assoc, hs, hst]
  rfl

/-- Settles O40: the status read has no say in the code of the rejected block, and only its own registers change with it. -/
theorem rejectedWriteReadsTheStatus : Obligations.RejectedWriteReadsTheStatus := by
  intro s addr buf a r tail later hs hm hst ht he ha hr hrej h htm
  obtain ⟨w, hcmd⟩ := cmd24Exchange_rejected (xlate s.session addr) a r tail later
    (writeOpened { s.operands with op := .writeBlock, addr := addr, buf := buf } s) ht he ha hr hrej h htm
  rw [exec_writeBlock_admitted addr buf s hs hm hst ht he, hcmd, onRejected_rejection, andThen_error _ _ _ r.code_ne_ok]
  refine ⟨⟨_, rfl, complete_rejection r _⟩, fun status r2 rest hok htail => ?_⟩
  subst htail
  refine complete_diagnosed (diagnoseWrite_answered status r2 rest _ ht hok rfl) fun w' => ?_
  rw [complete_error_eq _ _ r.code_ne_ok]
  simp only [List.reverse_append, List.append_assoc, hs]
  rfl

/-- Settles O41: the recovery has no say in the code of the rejected block, and only its own registers change with it. -/
theorem rejectedMultiWriteRecovers : Obligations.RejectedMultiWriteRecovers := by
  intro s addr buf count a d0 blocks r tail later hs hm hst ht he ha hr hn hb hrej h htm
  obtain ⟨w, hcmd⟩ := cmd25Exchange_rejected (xlate s.session addr) a d0 blocks r tail later
    (writeOpened { s.operands with op := .writeMultipleBlock, addr := addr, buf := buf, count := count } s) ht he ha hr hn hb
    hrej h htm
  rw [exec_writeMultipleBlock_admitted addr buf count s hs hm hst ht (payloadsEven_of _ s he), hcmd, onRejected_rejection,
    andThen_error _ _ _ r.code_ne_ok]
  refine ⟨⟨_, rfl, complete_rejection r _⟩, fun v rest hv htail => ?_⟩
  subst htail
  refine complete_diagnosed
    (multiWriteRecovery_answered crc7Fold_eq_bitwise crc16Words_eq v rest _ ht hm nofun hv rfl) fun w' => ?_
  rw [complete_error_eq _ _ r.code_ne_ok]
  simp only [List.reverse_append, List.append_assoc, hs]
  rfl

end Sys2Proof.Settled
end

section
/-! PROOF. The register decoders (46_register_decoder.md): a field of one byte is a field of the register, so the fields the
engine picks from the bytes are contiguous fields of the register; what they are worth as numbers gives the capacities. -/

namespace Sys2Proof.Machine

/-! ### The fields at the bits of the registers -/

/-- R331: bit `t` of byte `k` is bit `8 × (15 - k) + t` of the register. The proof writes the register's width as the sum of the
bytes' widths, the form that the rules for `++` match. -/
theorem byte_extractLsb'_eq_snapshotBits (q : Vector Byte 16) (k p : Nat) {t len : Nat} (hk : k < 16) (h : t + len ≤ 8)
    (hp : p = 8 * (15 - k) + t) : q[k].extractLsb' t len = (snapshotBits q).extractLsb' p len := by
  change _ = BitVec.extractLsb' (n := 8 + 8 + 8 + 8 + 8 + 8 + 8 + 8 + 8 + 8 + 8 + 8 + 8 + 8 + 8 + 8) _ _ (snapshotBits q)
  unfold snapshotBits
  interval_cases k <;>
    simp (disch := omega) only [BitVec.extractLsb'_append_eq_of_le, BitVec.extractLsb'_append_eq_of_add_le] <;>
    exact congrArg (BitVec.extractLsb' · len _) (by omega)

theorem byte_eq_snapshotBits (q : Vector Byte 16) (k p : Nat) (hk : k < 16) (hp : p = 8 * (15 - k)) :
    q[k] = (snapshotBits q).extractLsb' p 8 :=
  BitVec.extractLsb'_eq_self.symm.trans (byte_extractLsb'_eq_snapshotBits q k p hk le_rfl hp)

theorem ccs_eq_ocrBits (ocr : Vector Byte 4) : ccs ocr = (ocrBits ocr).getLsbD 30 := by
  change _ = BitVec.getLsbD (w := 8 + 8 + 8 + 8) (ocrBits ocr) 30
  simp only [ccs, ocrBits, BitVec.getLsbD_append]
  rfl

theorem csizeV2_eq_snapshotBits (csd : Vector Byte 16) : csizeV2 csd = (snapshotBits csd).extractLsb' 48 22 := by
  rw [csizeV2, byte_extractLsb'_eq_snapshotBits csd 7 64 (by decide) (by decide) rfl,
    byte_eq_snapshotBits csd 8 56 (by decide) rfl, byte_eq_snapshotBits csd 9 48 (by decide) rfl,
    BitVec.extractLsb'_append_extractLsb'_eq_extractLsb' (start₁ := 56) (len₁ := 8) rfl,
    BitVec.extractLsb'_append_extractLsb'_eq_extractLsb' (start₁ := 48) (len₁ := 8) rfl]

theorem csizeV1_eq_snapshotBits (csd : Vector Byte 16) : csizeV1 csd = (snapshotBits csd).extractLsb' 62 12 := by
  rw [csizeV1, byte_extractLsb'_eq_snapshotBits csd 6 72 (by decide) (by decide) rfl,
    byte_eq_snapshotBits csd 7 64 (by decide) rfl, byte_extractLsb'_eq_snapshotBits csd 8 62 (by decide) (by decide) rfl,
    BitVec.extractLsb'_append_extractLsb'_eq_extractLsb' (start₁ := 64) (len₁ := 8) rfl,
    BitVec.extractLsb'_append_extractLsb'_eq_extractLsb' (start₁ := 62) (len₁ := 2) rfl]

theorem cmultV1_eq_snapshotBits (csd : Vector Byte 16) : cmultV1 csd = (snapshotBits csd).extractLsb' 47 3 := by
  rw [cmultV1, byte_extractLsb'_eq_snapshotBits csd 9 48 (by decide) (by decide) rfl,
    byte_extractLsb'_eq_snapshotBits csd 10 47 (by decide) (by decide) rfl,
    BitVec.extractLsb'_append_extractLsb'_eq_extractLsb' (start₁ := 47) (len₁ := 1) rfl]

/-! ### The capacities as numbers -/

theorem toNat_append_eq_add {m n : Nat} (x : BitVec m) (y : BitVec n) : (x ++ y).toNat = x.toNat * 2 ^ n + y.toNat := by
  rw [BitVec.toNat_append, ← Nat.shiftLeft_add_eq_or_of_lt y.isLt, Nat.shiftLeft_eq]

theorem toNat_csizeV2 (csd : Vector Byte 16) :
    (csizeV2 csd).toNat = csd[7].toNat % 64 * 65536 + csd[8].toNat * 256 + csd[9].toNat := by
  simp only [csizeV2, toNat_append_eq_add, BitVec.extractLsb'_toNat, Nat.shiftRight_zero]
  omega

theorem toNat_csizeV1 (csd : Vector Byte 16) :
    (csizeV1 csd).toNat = csd[6].toNat % 4 * 1024 + csd[7].toNat * 4 + csd[8].toNat / 64 := by
  simp only [csizeV1, toNat_append_eq_add, BitVec.extractLsb'_toNat, Nat.shiftRight_eq_div_pow]
  omega

theorem toNat_cmultV1 (csd : Vector Byte 16) : (cmultV1 csd).toNat = csd[9].toNat % 4 * 2 + csd[10].toNat / 128 := by
  simp only [cmultV1, toNat_append_eq_add, BitVec.extractLsb'_toNat, Nat.shiftRight_eq_div_pow]
  omega

/-- A `C_SIZE`, widened to 64 bits, does not wrap when 1 is added. -/
theorem toNat_setWidth_add_one {n : Nat} (hn : n < 64) (x : BitVec n) : (x.setWidth 64 + 1#64).toNat = x.toNat + 1 := by
  have hx : x.toNat + 1 < 2 ^ 64 := (Nat.succ_le_of_lt x.isLt).trans_lt (Nat.pow_lt_pow_right (by decide) hn)
  rw [BitVec.toNat_add, BitVec.toNat_setWidth_of_le hn.le]
  exact Nat.mod_eq_of_lt hx

/-- R334: at most `2 ^ 22` units of `2 ^ 19` bytes fit in 64 bits. -/
theorem toNat_capacityV2 (csd : Vector Byte 16) : (capacityV2 csd).toNat = ((csizeV2 csd).toNat + 1) * 524288 := by
  have hsize : (csizeV2 csd).toNat + 1 ≤ 2 ^ 22 := (csizeV2 csd).isLt
  rw [capacityV2, kib512, BitVec.toNat_mul, toNat_setWidth_add_one (by decide)]
  simp only [BitVec.toNat_ofNat, Nat.reducePow, Nat.reduceMod]
  omega

/-- R336: at most `2 ^ 12` units of at most `2 ^ 9` blocks of 512 bytes fit in 64 bits. -/
theorem toNat_capacityV1 (csd : Vector Byte 16) :
    (capacityV1 csd).toNat = ((csizeV1 csd).toNat + 1) * 2 ^ ((cmultV1 csd).toNat + 2) * 512 := by
  have hsize : (csizeV1 csd).toNat + 1 ≤ 2 ^ 12 := (csizeV1 csd).isLt
  have hmult : 2 ^ ((cmultV1 csd).toNat + 2) ≤ 2 ^ 9 :=
    Nat.pow_le_pow_right (by decide) (Nat.add_le_add_right (Nat.le_of_lt_succ (cmultV1 csd).isLt) 2)
  have hblocks := Nat.mul_le_mul hsize hmult
  rw [capacityV1, BitVec.toNat_mul, BitVec.toNat_shiftLeft, toNat_setWidth_add_one (by decide), Nat.shiftLeft_eq]
  simp only [BitVec.toNat_ofNat, Nat.reducePow, Nat.reduceMod]
  omega

/-! ### The choice of the CSD variant -/

theorem decodeCsd_v1 {s : Session} (h : s.specVersion = .v1) : decodeCsd s = some (.v1 (decodeCsdV1 s.csd)) := by
  rw [decodeCsd, h]

theorem decodeCsd_v2 {s : Session} (h : s.specVersion = .v2) : decodeCsd s = some (.v2 (decodeCsdV2 s.csd)) := by
  rw [decodeCsd, h]

theorem decodeCsd_undetermined {s : Session} (h : s.specVersion = .undetermined) : decodeCsd s = none := by
  rw [decodeCsd, h]

end Sys2Proof.Machine

namespace Sys2Proof.Settled

open Sys2Proof.Machine

/-- Settles O57: neither capacity wraps, and each `C_SIZE` and `C_SIZE_MULT` is the number its bytes spell. -/
theorem capacities : Obligations.Capacities := by
  intro csd
  have h2 := toNat_capacityV2 csd
  have h1 := toNat_capacityV1 csd
  rw [toNat_csizeV2] at h2
  rw [toNat_csizeV1, toNat_cmultV1] at h1
  exact ⟨rfl, h2, rfl, h1⟩

/-- Settles O58: the pieces the engine takes of the bytes lie side by side in the register. -/
theorem fieldPositions : Obligations.FieldPositions :=
  ⟨ccs_eq_ocrBits, fun csd => ⟨csizeV2_eq_snapshotBits csd, csizeV1_eq_snapshotBits csd, cmultV1_eq_snapshotBits csd⟩⟩

/-- Settles O59: the decoder branches on the version, and both layouts return the structure bits from one place. -/
theorem csdVariantByVersion : Obligations.CsdVariantByVersion :=
  fun _ => ⟨decodeCsd_v1, decodeCsd_v2, decodeCsd_undetermined, rfl, rfl⟩

end Sys2Proof.Settled
end

section
/-! PROOF. The uniform error handler (60_exceptions.md R370, R371). -/

namespace Sys2Proof.Settled

open Sys2Proof.Machine

/-- Settles O43: the handler is two register writes around the release of chip-select, and each names all that it changes. -/
theorem uniformErrorHandler : Obligations.UniformErrorHandler := by
  intro s c
  rw [failHandler, csDeassert, setModeState]

end Sys2Proof.Settled
end

section
/-! PROOF. No operation starts while another runs (70_reset_and_hazards.md R417; log 17). -/

namespace Sys2Proof.Machine

/-- A running operation stops every other one, ready or not, before its body is reached. -/
theorem runOperation_running (ops : Operands) (ready : Bool) (body : State → Code × State) {s : State}
    (h : s.seq ≠ .idleSeq) : runOperation ops ready body s = .refused .operationInProgress :=
  if_neg h

theorem RunsTransfer.running {i : Instr} {s : State} (hi : RunsTransfer i s) (h : s.seq ≠ .idleSeq) :
    exec i s = .refused .operationInProgress := by
  obtain ⟨ops, ready, body, he, -⟩ := hi
  exact he.trans (runOperation_running ops ready body h)

end Sys2Proof.Machine

namespace Sys2Proof.Settled

open Sys2Proof.Machine

/-- Settles O48: the two operations that are always ready and the six transfers all start in `runOperation`, which asks first
whether the sequencer is idle. -/
theorem noSecondOperation : Obligations.NoSecondOperation := by
  intro s x y z h i hi
  obtain rfl | hi := List.mem_cons.1 hi
  · exact runOperation_running _ _ _ h
  obtain rfl | hi := List.mem_cons.1 hi
  · exact runOperation_running _ _ _ h
  · exact (runsTransfer_of_mem s hi).running h

end Sys2Proof.Settled
end
